-- ==== Sys2Proof/Word.lean ====
section
/-! DEFINITION. The value types of the rj32: 16-bit words, 8-bit bytes, register numbers (spec/00_scope.md R2, R4). -/

namespace Sys2Proof

/-- A 16-bit value: a general register, a program counter, an instruction word, an address (R2, R4, R14). -/
abbrev Word := BitVec 16

/-- A byte of data memory (R30). -/
abbrev Byte := BitVec 8

/-- A register number, the content of a 4-bit `rd` or `rs` field: r0 to r15 (R10). -/
abbrev Reg := Fin 16

end Sys2Proof
end

