-- ==== Sys2Proof/Syntax.lean ====
section
/-! DEFINITION. The instructions of the rj32: one constructor for each row of spec/opcode_table.json
(spec/30_encoding.md R60). A constructor with the suffix `I` is the immediate form of its instruction. -/

namespace Sys2Proof

/-- A decoded instruction. Register operands are register numbers. The immediates that R57 calls signed
(imm6, imm8, imm11) are integers, imm4 is a natural number; `Instr.wellFormed` checks their ranges. The field of `imm`
only supplies bits (R93 corner case e), so it is a bit vector. -/
inductive Instr where
  /-- R80 -/
  | nop
  /-- R81 -/
  | rets
  /-- R82 -/
  | error
  /-- R83 -/
  | halt
  /-- R84. The spec gives no operand positions; `rd` is bits 15:12 of the rr layout (R51), which only `ERRATA` = on
  reads (D24). -/
  | rcsr (rd : Reg)
  /-- R85 -/
  | wcsr
  /-- R90, rr -/
  | move (rd rs : Reg)
  /-- R91, rr -/
  | loadc (rd rs : Reg)
  /-- R92, rr -/
  | jump (rd : Reg)
  /-- R95: the rr form of opcode 9 -/
  | nopOp9
  /-- R94, rr -/
  | call (rd : Reg)
  /-- R95: the rr form of the reserved opcode 11 -/
  | nopOp11
  /-- R101, rr -/
  | load (rd rs : Reg)
  /-- R102, rr -/
  | store (rd rs : Reg)
  /-- R103, rr -/
  | loadb (rd rs : Reg)
  /-- R104, rr -/
  | storeb (rd rs : Reg)
  /-- R110, rr -/
  | add (rd rs : Reg)
  /-- R111, rr -/
  | sub (rd rs : Reg)
  /-- R112, rr -/
  | addc (rd rs : Reg)
  /-- R113, rr -/
  | subc (rd rs : Reg)
  /-- R114, rr -/
  | xor (rd rs : Reg)
  /-- R115, rr -/
  | and (rd rs : Reg)
  /-- R116, rr -/
  | or (rd rs : Reg)
  /-- R117, rr -/
  | shl (rd rs : Reg)
  /-- R118, rr -/
  | shr (rd rs : Reg)
  /-- R119, rr -/
  | asr (rd rs : Reg)
  /-- R131, rr -/
  | ifEq (rd rs : Reg)
  /-- R132, rr -/
  | ifNe (rd rs : Reg)
  /-- R133, rr -/
  | ifLt (rd rs : Reg)
  /-- R134, rr -/
  | ifGe (rd rs : Reg)
  /-- R135, rr -/
  | ifUlt (rd rs : Reg)
  /-- R136, rr -/
  | ifUge (rd rs : Reg)
  /-- R90, i8 -/
  | moveI (rd : Reg) (imm8 : Int)
  /-- R91, i8 -/
  | loadcI (rd : Reg) (imm8 : Int)
  /-- R92, i11 -/
  | jumpI (imm11 : Int)
  /-- R94, i11 -/
  | callI (imm11 : Int)
  /-- R93, i12 -/
  | imm (imm12 : BitVec 12)
  /-- R101, ls -/
  | loadI (rd rs : Reg) (imm4 : Nat)
  /-- R102, ls -/
  | storeI (rd rs : Reg) (imm4 : Nat)
  /-- R103, ls -/
  | loadbI (rd rs : Reg) (imm4 : Nat)
  /-- R104, ls -/
  | storebI (rd rs : Reg) (imm4 : Nat)
  /-- R110, ri6 -/
  | addI (rd : Reg) (imm6 : Int)
  /-- R111, ri6 -/
  | subI (rd : Reg) (imm6 : Int)
  /-- R112, ri6 -/
  | addcI (rd : Reg) (imm6 : Int)
  /-- R113, ri6 -/
  | subcI (rd : Reg) (imm6 : Int)
  /-- R114, ri6 -/
  | xorI (rd : Reg) (imm6 : Int)
  /-- R115, ri6 -/
  | andI (rd : Reg) (imm6 : Int)
  /-- R116, ri6 -/
  | orI (rd : Reg) (imm6 : Int)
  /-- R117, ri6 -/
  | shlI (rd : Reg) (imm6 : Int)
  /-- R118, ri6 -/
  | shrI (rd : Reg) (imm6 : Int)
  /-- R119, ri6 -/
  | asrI (rd : Reg) (imm6 : Int)
  /-- R131, ri6 -/
  | ifEqI (rd : Reg) (imm6 : Int)
  /-- R132, ri6 -/
  | ifNeI (rd : Reg) (imm6 : Int)
  /-- R133, ri6 -/
  | ifLtI (rd : Reg) (imm6 : Int)
  /-- R134, ri6 -/
  | ifGeI (rd : Reg) (imm6 : Int)
  /-- R135, ri6 -/
  | ifUltI (rd : Reg) (imm6 : Int)
  /-- R136, ri6 -/
  | ifUgeI (rd : Reg) (imm6 : Int)
deriving DecidableEq, Repr

end Sys2Proof
end

