-- ==== Sys2Proof/WellFormed.lean ====
section
/-! DEFINITION. Well-formed instructions: every immediate fits its field (the ranges of spec/30_encoding.md R57). -/

namespace Sys2Proof

/-- imm6: -32..31 (R57). -/
def fitsImm6 (v : Int) : Bool := decide (-32 ≤ v) && decide (v ≤ 31)

/-- imm8: -128..127 (R57). -/
def fitsImm8 (v : Int) : Bool := decide (-128 ≤ v) && decide (v ≤ 127)

/-- imm11: -1024..1023 (R57). -/
def fitsImm11 (v : Int) : Bool := decide (-1024 ≤ v) && decide (v ≤ 1023)

/-- imm4: 0..15 (R57). -/
def fitsImm4 (v : Nat) : Bool := decide (v ≤ 15)

/-- The instruction can be encoded as it stands, without an `imm` before it. -/
def Instr.wellFormed : Instr → Bool
  | .nop | .rets | .error | .halt | .rcsr _ | .wcsr | .move _ _ | .loadc _ _ | .jump _ | .nopOp9 | .call _ | .nopOp11
  | .load _ _ | .store _ _ | .loadb _ _ | .storeb _ _ | .add _ _ | .sub _ _ | .addc _ _ | .subc _ _ | .xor _ _
  | .and _ _ | .or _ _ | .shl _ _ | .shr _ _ | .asr _ _ | .ifEq _ _ | .ifNe _ _ | .ifLt _ _ | .ifGe _ _ | .ifUlt _ _
  | .ifUge _ _ | .imm _ => true
  | .moveI _ v | .loadcI _ v => fitsImm8 v
  | .jumpI v | .callI v => fitsImm11 v
  | .loadI _ _ v | .storeI _ _ v | .loadbI _ _ v | .storebI _ _ v => fitsImm4 v
  | .addI _ v | .subI _ v | .addcI _ v | .subcI _ v | .xorI _ v | .andI _ v | .orI _ v | .shlI _ v | .shrI _ v
  | .asrI _ v | .ifEqI _ v | .ifNeI _ v | .ifLtI _ v | .ifGeI _ v | .ifUltI _ v | .ifUgeI _ v => fitsImm6 v

end Sys2Proof
end

