-- ==== Sys2Proof/Decode.lean ====
section
/-! DEFINITION. Decoding and encoding of instruction words (spec/30_encoding.md R50 to R65), the classification of
instructions by R61, and the decoder as the opcode table numbers its bits. -/

namespace Sys2Proof

/-! ## Fields of a word (R51 to R56) -/

/-- fmt = w[1:0] (R50). -/
def fmtField (w : Word) : BitVec 2 := w.extractLsb' 0 2

/-- rd = w[15:12], in every format that has it. -/
def rdField (w : Word) : Reg := ⟨(w.extractLsb' 12 4).toNat, (w.extractLsb' 12 4).isLt⟩

/-- rs = w[11:8], formats rr and ls. -/
def rsField (w : Word) : Reg := ⟨(w.extractLsb' 8 4).toNat, (w.extractLsb' 8 4).isLt⟩

/-- imm4 = w[7:4], unsigned (R55). -/
def imm4Field (w : Word) : Nat := (w.extractLsb' 4 4).toNat

/-- imm6 = w[11:6], signed (R56). -/
def imm6Field (w : Word) : Int := (w.extractLsb' 6 6).toInt

/-- imm8 = w[11:4], signed (R52). -/
def imm8Field (w : Word) : Int := (w.extractLsb' 4 8).toInt

/-- imm11 = w[15:5], signed (R53). -/
def imm11Field (w : Word) : Int := (w.extractLsb' 5 11).toInt

/-- imm12 = w[15:4] (R54). -/
def imm12Field (w : Word) : BitVec 12 := w.extractLsb' 4 12

/-! ## Decoding (R59, R60) -/

/-- Format rr: all 32 opcodes (the rr column of R60); bit 7 and the fields an instruction does not read are ignored
(R63). -/
def decodeRr (op : Nat) (rd rs : Reg) : Instr :=
  match op with
  | 0 => .nop
  | 1 => .rets
  | 2 => .error
  | 3 => .halt
  | 4 => .rcsr rd
  | 5 => .wcsr
  | 6 => .move rd rs
  | 7 => .loadc rd rs
  | 8 => .jump rd
  | 9 => .nopOp9
  | 10 => .call rd
  | 11 => .nopOp11
  | 12 => .load rd rs
  | 13 => .store rd rs
  | 14 => .loadb rd rs
  | 15 => .storeb rd rs
  | 16 => .add rd rs
  | 17 => .sub rd rs
  | 18 => .addc rd rs
  | 19 => .subc rd rs
  | 20 => .xor rd rs
  | 21 => .and rd rs
  | 22 => .or rd rs
  | 23 => .shl rd rs
  | 24 => .shr rd rs
  | 25 => .asr rd rs
  | 26 => .ifEq rd rs
  | 27 => .ifNe rd rs
  | 28 => .ifLt rd rs
  | 29 => .ifGe rd rs
  | 30 => .ifUlt rd rs
  | _ => .ifUge rd rs

/-- Format ri6: the ALU function w[5:2], opcode 16 + function (R56). -/
def decodeRi6 (func : Nat) (rd : Reg) (imm6 : Int) : Instr :=
  match func with
  | 0 => .addI rd imm6
  | 1 => .subI rd imm6
  | 2 => .addcI rd imm6
  | 3 => .subcI rd imm6
  | 4 => .xorI rd imm6
  | 5 => .andI rd imm6
  | 6 => .orI rd imm6
  | 7 => .shlI rd imm6
  | 8 => .shrI rd imm6
  | 9 => .asrI rd imm6
  | 10 => .ifEqI rd imm6
  | 11 => .ifNeI rd imm6
  | 12 => .ifLtI rd imm6
  | 13 => .ifGeI rd imm6
  | 14 => .ifUltI rd imm6
  | _ => .ifUgeI rd imm6

/-- Format ls: the selector w[3:2], opcode 12 + selector (R55). -/
def decodeLs (op2 : Nat) (rd rs : Reg) (imm4 : Nat) : Instr :=
  match op2 with
  | 0 => .loadI rd rs imm4
  | 1 => .storeI rd rs imm4
  | 2 => .loadbI rd rs imm4
  | _ => .storebI rd rs imm4

/-- The wide-immediate family, fmt 01: i8, i11 and i12, told apart by w[2] and w[3] (R52 to R54). In i12 bit 4 belongs
to the immediate, so opcodes 9 and 11 are the one instruction `imm`. -/
def decodeWide (w : Word) : Instr :=
  match w.getLsbD 2, w.getLsbD 3, w.getLsbD 4 with
  | false, false, _ => .moveI (rdField w) (imm8Field w)
  | false, true, _ => .loadcI (rdField w) (imm8Field w)
  | true, false, false => .jumpI (imm11Field w)
  | true, false, true => .callI (imm11Field w)
  | true, true, _ => .imm (imm12Field w)

/-- `Decode(w)`: every 16-bit word is an instruction (R59, R62). -/
def decode (w : Word) : Instr :=
  match (fmtField w).toNat with
  | 0 => decodeRr (w.extractLsb' 2 5).toNat (rdField w) (rsField w)
  | 1 => decodeWide w
  | 2 => decodeLs (w.extractLsb' 2 2).toNat (rdField w) (rsField w) (imm4Field w)
  | _ => decodeRi6 (w.extractLsb' 2 4).toNat (rdField w) (imm6Field w)

/-- Why a string of bits is no instruction: every instruction is exactly one 16-bit word (R50). -/
inductive DecodeError where
  /-- the number of bits is not 16 -/
  | notOneWord (nbits : Nat)
  /-- the number does not fit 16 bits -/
  | valueTooWide (value : Nat)
deriving DecidableEq, Repr

/-- The decoder on `nbits` bits with the value `w`, bit 0 the least significant. -/
def decodeBits (nbits w : Nat) : Except DecodeError Instr :=
  if nbits ≠ 16 then .error (.notOneWord nbits)
  else if 65536 ≤ w then .error (.valueTooWide w)
  else .ok (decode (BitVec.ofNat 16 w))

/-- The decoder as spec/opcode_table.json numbers an instruction's bits. -/
def decodeTableWord (nbits w : Nat) : Option Instr :=
  match decodeBits nbits w with
  | .ok i => some i
  | .error _ => none

/-! ## Encoding (R51 to R56, R60); don't-care bits are 0 (R63) -/

/-- A register number as a 4-bit field. -/
def regBits (r : Reg) : BitVec 4 := BitVec.ofNat 4 r.val

/-- Format rr: `rd rs - op 00` (R51). -/
def packRr (op : BitVec 5) (rd rs : Reg) : Word := regBits rd ++ regBits rs ++ 0#1 ++ op ++ 0#2

/-- Format i8: `rd imm8 o 0 01` (R52). -/
def packI8 (o : BitVec 1) (rd : Reg) (imm8 : Int) : Word := regBits rd ++ BitVec.ofInt 8 imm8 ++ o ++ 1#3

/-- Format i11: `imm11 o 0 1 01` (R53). -/
def packI11 (o : BitVec 1) (imm11 : Int) : Word := BitVec.ofInt 11 imm11 ++ o ++ 5#4

/-- Format i12: `imm12 1101` (R54). -/
def packI12 (imm12 : BitVec 12) : Word := imm12 ++ 13#4

/-- Format ls: `rd rs imm4 op2 10` (R55). -/
def packLs (op2 : BitVec 2) (rd rs : Reg) (imm4 : Nat) : Word :=
  regBits rd ++ regBits rs ++ BitVec.ofNat 4 imm4 ++ op2 ++ 2#2

/-- Format ri6: `rd imm6 op 11` (R56). -/
def packRi6 (func : BitVec 4) (rd : Reg) (imm6 : Int) : Word := regBits rd ++ BitVec.ofInt 6 imm6 ++ func ++ 3#2

/-- The word of an instruction (R60). -/
def encode : Instr → Word
  | .nop => packRr 0 0 0
  | .rets => packRr 1 0 0
  | .error => packRr 2 0 0
  | .halt => packRr 3 0 0
  | .rcsr rd => packRr 4 rd 0
  | .wcsr => packRr 5 0 0
  | .move rd rs => packRr 6 rd rs
  | .loadc rd rs => packRr 7 rd rs
  | .jump rd => packRr 8 rd 0
  | .nopOp9 => packRr 9 0 0
  | .call rd => packRr 10 rd 0
  | .nopOp11 => packRr 11 0 0
  | .load rd rs => packRr 12 rd rs
  | .store rd rs => packRr 13 rd rs
  | .loadb rd rs => packRr 14 rd rs
  | .storeb rd rs => packRr 15 rd rs
  | .add rd rs => packRr 16 rd rs
  | .sub rd rs => packRr 17 rd rs
  | .addc rd rs => packRr 18 rd rs
  | .subc rd rs => packRr 19 rd rs
  | .xor rd rs => packRr 20 rd rs
  | .and rd rs => packRr 21 rd rs
  | .or rd rs => packRr 22 rd rs
  | .shl rd rs => packRr 23 rd rs
  | .shr rd rs => packRr 24 rd rs
  | .asr rd rs => packRr 25 rd rs
  | .ifEq rd rs => packRr 26 rd rs
  | .ifNe rd rs => packRr 27 rd rs
  | .ifLt rd rs => packRr 28 rd rs
  | .ifGe rd rs => packRr 29 rd rs
  | .ifUlt rd rs => packRr 30 rd rs
  | .ifUge rd rs => packRr 31 rd rs
  | .moveI rd v => packI8 0 rd v
  | .loadcI rd v => packI8 1 rd v
  | .jumpI v => packI11 0 v
  | .callI v => packI11 1 v
  | .imm v => packI12 v
  | .loadI rd rs v => packLs 0 rd rs v
  | .storeI rd rs v => packLs 1 rd rs v
  | .loadbI rd rs v => packLs 2 rd rs v
  | .storebI rd rs v => packLs 3 rd rs v
  | .addI rd v => packRi6 0 rd v
  | .subI rd v => packRi6 1 rd v
  | .addcI rd v => packRi6 2 rd v
  | .subcI rd v => packRi6 3 rd v
  | .xorI rd v => packRi6 4 rd v
  | .andI rd v => packRi6 5 rd v
  | .orI rd v => packRi6 6 rd v
  | .shlI rd v => packRi6 7 rd v
  | .shrI rd v => packRi6 8 rd v
  | .asrI rd v => packRi6 9 rd v
  | .ifEqI rd v => packRi6 10 rd v
  | .ifNeI rd v => packRi6 11 rd v
  | .ifLtI rd v => packRi6 12 rd v
  | .ifGeI rd v => packRi6 13 rd v
  | .ifUltI rd v => packRi6 14 rd v
  | .ifUgeI rd v => packRi6 15 rd v

/-! ## Classification (R61) -/

/-- The instructions that carry state into the next one: `imm`, `addc`, `subc`. Everything else is regular, the rr forms
of opcodes 9 and 11 too (D18). -/
def Instr.isPrefixing : Instr → Bool
  | .imm _ | .addc _ _ | .subc _ _ | .addcI _ _ | .subcI _ _ => true
  | .nop | .rets | .error | .halt | .rcsr _ | .wcsr | .move _ _ | .loadc _ _ | .jump _ | .nopOp9 | .call _ | .nopOp11
  | .load _ _ | .store _ _ | .loadb _ _ | .storeb _ _ | .add _ _ | .sub _ _ | .xor _ _ | .and _ _ | .or _ _ | .shl _ _
  | .shr _ _ | .asr _ _ | .ifEq _ _ | .ifNe _ _ | .ifLt _ _ | .ifGe _ _ | .ifUlt _ _ | .ifUge _ _ | .moveI _ _
  | .loadcI _ _ | .jumpI _ | .callI _ | .loadI _ _ _ | .storeI _ _ _ | .loadbI _ _ _ | .storebI _ _ _ | .addI _ _
  | .subI _ _ | .xorI _ _ | .andI _ _ | .orI _ _ | .shlI _ _ | .shrI _ _ | .asrI _ _ | .ifEqI _ _ | .ifNeI _ _
  | .ifLtI _ _ | .ifGeI _ _ | .ifUltI _ _ | .ifUgeI _ _ => false

end Sys2Proof
end

