-- ==== Sys2Proof/Config.lean ====
section
/-! DEFINITION. What an implementation of the rj32 fixes: the named parameters of spec/00_scope.md R3, as plain data
that a state carries and no step changes, and the values that the spec leaves unspecified (R26), as constants without a body. -/

namespace Sys2Proof

/-- The two privilege modes (spec/60_exceptions.md R168); the value of the flag `K` (spec/10_state.md R15). -/
inductive Mode where
  /-- K = 0 -/
  | user
  /-- K = 1, the kernel or system mode -/
  | kernel
deriving DecidableEq, Repr

/-- `BYTE_ORDER`: which byte of a word of data memory has the lower address (R34, D4). -/
inductive ByteOrder where
  | little
  | big
deriving DecidableEq, Repr

/-- `REL_BASE`: what `jump imm11` and `call imm11` count from (R92, D5). -/
inductive RelBase where
  /-- 0: the address of the jump itself -/
  | ownAddress
  /-- 1: the address of the next instruction -/
  | nextInstruction
deriving DecidableEq, Repr

/-- `SHIFT_MODE`: what the shifts do with an amount outside 0..15 (R120, D9). -/
inductive ShiftMode where
  | low4
  | refuse
deriving DecidableEq, Repr

/-- `IMM_AFTER_CARRY`: what `imm` does to a pending carry (R93, D11). -/
inductive ImmAfterCarry where
  | clear
  | keep
  | refuse
deriving DecidableEq, Repr

/-- `UNIMPL`: what the instructions that the source calls unimplemented do (R84, R85, R91, D17). -/
inductive Unimpl where
  | refuse
  | asDocumented
deriving DecidableEq, Repr

/-- `MEM_MODEL`: the documented data memory, or that of the source's implementation notes (R45, D23). -/
inductive MemModel where
  | byteAddressed
  | wordIndexed
deriving DecidableEq, Repr

/-- The implementation parameters of R3, all thirteen, each under the spec's name. -/
structure Params where
  pcWidth : Nat
  pmemWords : Nat
  dmemBytes : Nat
  byteOrder : ByteOrder
  relBase : RelBase
  shiftMode : ShiftMode
  immAfterCarry : ImmAfterCarry
  ieReset : Bool
  kReset : Mode
  resetPc : Word
  unimpl : Unimpl
  memModel : MemModel
  errata : Bool
deriving DecidableEq, Repr

/-- The defaults of R3. `K_RESET` has none (D15): it is the argument. -/
def Params.defaults (kReset : Mode) : Params where
  pcWidth := 16
  pmemWords := 65536
  dmemBytes := 65536
  byteOrder := .little
  relBase := .ownAddress
  shiftMode := .low4
  immAfterCarry := .clear
  ieReset := false
  kReset := kReset
  resetPc := 0
  unimpl := .refuse
  memModel := .byteAddressed
  errata := false

/-- The parameters of `State.reset`: the defaults of R3, with a choice and a departure.
`kReset`: the spec leaves it OPEN (D15); DESIGN CHOICE user mode, the mode of the spec's vectors (log 3; unsafe).
`unimpl`: the spec's default is `refuse`; DESIGN CHOICE `asDocumented`, the one choice of D17 that gives `loadc`
an effect (log 4; unsafe). -/
def Params.atReset : Params := { Params.defaults .user with unimpl := .asDocumented }

namespace Config

/-- The content of a byte of data memory that nothing has written since the last reset (R26, R40, D25: any value).
`epoch` counts the resets since power-on. Free value, log 5; safe. -/
opaque initialByte (epoch address : Nat) : Byte

/-- The same for a word of the word-indexed data memory of R45. Free value, log 5; safe. -/
opaque initialMemWord (epoch address : Nat) : Word

/-- The content of a word of program memory that the loaded program does not cover (R26). Free value, log 6; safe. -/
opaque initialProgramWord (address : Nat) : Word

/-- The content of general register `number` of a bank after a reset asserted during a run (R26, R180: unspecified).
Free value, log 7; safe. -/
opaque registerAfterReset (epoch : Nat) (bank : Mode) (number : Nat) : Word

/-- The content of the immediate register after a reset asserted during a run (R26, R180: unspecified).
Free value, log 7; safe. -/
opaque immAfterReset (epoch : Nat) : BitVec 12

end Config

end Sys2Proof
end

