-- ==== Sys2Proof/Machine/ProgramCounter.lean ====
section
/-! DEFINITION. What a program counter of `PC_WIDTH` bits holds (spec/00_scope.md R3, spec/10_state.md R14). -/

namespace Sys2Proof.Machine

/-- What `pc <- v` leaves in a program counter of `width` bits: the low bits of `v`, which is `v` itself for the width
16 of R14. Rules compute on 16 bits, so no value reaches a bit above them (log 16). -/
def pcBits (width : Nat) (v : Word) : Word := BitVec.ofNat 16 (v.toNat % 2 ^ width)

end Sys2Proof.Machine
end

