-- ==== Sys2Proof/Machine/State.lean ====
section
/-! DEFINITION. The state of the rj32 (spec/10_state.md section 1), the reasons a step can stop, and the state after
reset (R26, R180). -/

namespace Sys2Proof.Machine

/-- Data memory: the bytes written since the last reset, addresses strictly rising (`Memory.wf`). An unlisted address
has not been written; what a load reads there is `State.byteAt`'s to say (log 5). -/
abbrev Memory := List Host.Cell

/-- A memory of 16-bit words in the same form: program memory (R22, R31), and the data memory of `MEM_MODEL` =
`word_indexed` (R45). -/
abbrev WordMemory := List (Nat × Word)

/-- One bank: 16 general registers and a program counter (R10, R12, R14). -/
structure Bank where
  regs : Vector Word 16
  pc : Word
deriving DecidableEq, Repr

/-- What the environment does in one instruction cycle: the level of the interrupt request line (R161), and whether
reset is asserted (R180). -/
structure CycleInput where
  irq : Bool
  reset : Bool
deriving DecidableEq, Repr

/-- The machine. Fields without a note are the spec's own state (R10 to R22). -/
structure State where
  /-- the implementation parameters of R3; no step changes them (log 1) -/
  cfg : Params
  /-- R[0], PC[0] -/
  user : Bank
  /-- R[1], PC[1] -/
  kernel : Bank
  /-- K, R15 -/
  k : Mode
  /-- S, R16 -/
  skip : Bool
  /-- C, R17 -/
  c : Bool
  /-- UC, R17 -/
  uc : Bool
  /-- IMM, bits 15:4 of the next immediate, R18 -/
  imm : BitVec 12
  /-- IMMV, R18 -/
  immv : Bool
  /-- IE, R19 -/
  ie : Bool
  /-- the halt line, R20 -/
  halt : Bool
  /-- the error line, R20 -/
  error : Bool
  /-- data memory, R22, R30 -/
  mem : Memory
  /-- data memory under `MEM_MODEL` = `word_indexed`, R45; unused otherwise (log 11) -/
  memw : WordMemory
  /-- program memory, R22, R31: the loaded program (log 6) -/
  pmem : WordMemory
  /-- what the environment does in this and the following cycles; both lines are low in a cycle that it does not list
  (log 2) -/
  inputs : List CycleInput
  /-- the model's own: how many resets were asserted since power-on, the argument of the free values of `Config`
  (logs 5, 7) -/
  epoch : Nat
deriving DecidableEq, Repr

/-- An access outside a memory. R31 and R36 call it `refuse`: the spec gives it no meaning. Only a machine whose
`PMEM_WORDS` or `DMEM_BYTES` is below 65536 has such addresses (log 10). -/
inductive Fault where
  /-- raised by a fetch, and by `loadc`, at a word address at or above `PMEM_WORDS` (R31); safe -/
  | outsideProgramMemory
  /-- raised by `load`, `store`, `loadb`, `storeb` at a byte address at or above `DMEM_BYTES` (R36); safe -/
  | outsideDataMemory
deriving DecidableEq, Repr

/-- The spec's `refuse(reason)`: the spec gives the run no meaning (R4). Every one is safe. -/
inductive Refusal where
  /-- raised by an arm of `exec` without a meaning; no arm is left without one -/
  | notModelled (mnemonic : String)
  /-- raised by `rcsr`, R84, unless `ERRATA` is on -/
  | rcsrNotImplemented
  /-- raised by `wcsr`, R85 -/
  | wcsrNotImplemented
  /-- raised by `loadc` under `UNIMPL` = `refuse`, R91 -/
  | loadcNotImplemented
  /-- raised by `shl`, `shr`, `asr` by an amount above 15 under `SHIFT_MODE` = `refuse`, R120 -/
  | shiftAmount
  /-- raised by `imm` after `addc` or `subc` under `IMM_AFTER_CARRY` = `refuse`, R93 -/
  | immAfterCarry
  /-- raised by `loadb`, `storeb` under `MEM_MODEL` = `word_indexed`, R45 -/
  | byteAccessNotImplemented
  /-- raised by `jump rd` under `ERRATA` = on, D24 -/
  | jumpRegisterErrata
deriving DecidableEq, Repr

/-- What one instruction cycle does, the cases of R24 and a reset from outside (R180). -/
inductive CycleAction where
  /-- reset is asserted in this cycle -/
  | reset
  /-- step 1: the halt or the error line is up -/
  | stopped
  /-- step 2 has no word to fetch -/
  | fetchFault (f : Fault)
  /-- step 3: the instruction is skipped -/
  | skip (i : Instr)
  /-- step 4: an interrupt takes the instruction's place -/
  | interrupt
  /-- step 5: the instruction is executed -/
  | execute (i : Instr)
deriving DecidableEq, Repr

/-- The result of an instruction or of a step. -/
abbrev Result := Host.Outcome State Fault Refusal

/-- A bank after power-on. General registers: the spec gives no value; DESIGN CHOICE zero (log 8; unsafe). -/
def Bank.atReset (pc : Word) : Bank := { regs := Vector.replicate 16 0, pc := pc }

/-- The machine right after reset, for any parameters (R26, R180). IMM: the spec gives no value, and it is never read
while IMMV = 0; DESIGN CHOICE zero (log 8). No program is loaded and no data byte has been written. -/
def State.resetWith (p : Params) : State where
  cfg := p
  user := .atReset (pcBits p.pcWidth p.resetPc)
  kernel := .atReset (pcBits p.pcWidth p.resetPc)
  k := p.kReset
  skip := false
  c := false
  uc := false
  imm := 0
  immv := false
  ie := p.ieReset
  halt := false
  error := false
  mem := []
  memw := []
  pmem := []
  inputs := []
  epoch := 0

/-- The machine right after reset. -/
def State.reset : State := State.resetWith Params.atReset

end Sys2Proof.Machine
end

