-- ==== Sys2Proof/Machine/Ops.lean ====
section
/-! DEFINITION. The named operations on registers and memories, the end of an instruction (spec/10_state.md R25), the
skipped instruction (R24 step 3), interrupt entry and `rets` (spec/60_exceptions.md R164, spec/40_system.md R81), reset
(R180), and the choice of what a cycle does (R24). -/

namespace Sys2Proof.Machine

/-! ## Association lists in canonical form -/

/-- The value listed at an address. -/
def Cells.read? {α : Type} : List (Nat × α) → Nat → Option α
  | [], _ => none
  | (k, v) :: rest, a => if a = k then some v else Cells.read? rest a

/-- List a value at an address, keeping the addresses rising. -/
def Cells.write {α : Type} : List (Nat × α) → Nat → α → List (Nat × α)
  | [], a, v => [(a, v)]
  | (k, w) :: rest, a, v =>
    if a < k then (a, v) :: (k, w) :: rest
    else if a = k then (a, v) :: rest
    else (k, w) :: Cells.write rest a v

/-- Addresses strictly rising from `lo`, all below `size`. -/
def Cells.wfFrom {α : Type} (size : Nat) : Nat → List (Nat × α) → Bool
  | _, [] => true
  | lo, (k, _) :: rest => decide (lo ≤ k) && decide (k < size) && Cells.wfFrom size (k + 1) rest

/-- The canonical form of a memory over 16-bit addresses. An unlisted address holds no written value, so no entry can
repeat what an unlisted one says. -/
def Cells.wf {α : Type} (m : List (Nat × α)) : Bool := Cells.wfFrom 65536 0 m

/-- The canonical form of data memory. -/
def Memory.wf (m : Memory) : Bool := Cells.wf m

/-- The canonical form of a word memory. -/
def WordMemory.wf (m : WordMemory) : Bool := Cells.wf m

/-! ## Registers and program counters (R10, R12, R14) -/

/-- The mode that `rets` switches to: `!K` (R81). -/
def otherMode : Mode → Mode
  | .user => .kernel
  | .kernel => .user

/-- The bank of a mode. -/
def State.bank (s : State) (m : Mode) : Bank :=
  match m with
  | .user => s.user
  | .kernel => s.kernel

/-- Replace the bank of a mode. -/
def State.setBank (s : State) (m : Mode) (b : Bank) : State :=
  { s with
    user := match m with | .user => b | .kernel => s.user
    kernel := match m with | .user => s.kernel | .kernel => b }

/-- `R[b][i]`. -/
def State.regOf (s : State) (m : Mode) (i : Reg) : Word := (s.bank m).regs[i.val]

/-- `PC[b]`. -/
def State.pcOf (s : State) (m : Mode) : Word := (s.bank m).pc

/-- `x[i]`: register i of the active bank. -/
def State.reg (s : State) (i : Reg) : Word := s.regOf s.k i

/-- `x[i] <- v`. -/
def State.setReg (s : State) (i : Reg) (v : Word) : State :=
  s.setBank s.k { s.bank s.k with regs := (s.bank s.k).regs.set i.val v i.isLt }

/-- `pc`: the active program counter. -/
def State.pc (s : State) : Word := s.pcOf s.k

/-- `pc <- t`: the active counter takes as many bits of `t` as it has (R14, log 16). -/
def State.setPc (s : State) (t : Word) : State :=
  s.setBank s.k { s.bank s.k with pc := pcBits s.cfg.pcWidth t }

/-- `pc <- pc + 1` (R14). -/
def State.advance (s : State) : State := s.setPc (s.pc + 1)

/-! ## Memories -/

/-- A byte of data memory: what was written last, or the initial content (R40, log 5). -/
def State.byteAt (s : State) (a : Word) : Byte :=
  (Cells.read? s.mem a.toNat).getD (Config.initialByte s.epoch a.toNat)

/-- Write a byte of data memory. -/
def State.setByte (s : State) (a : Word) (v : Byte) : State := { s with mem := Cells.write s.mem a.toNat v }

/-- A word of the word-indexed data memory (R45). -/
def State.indexedWordAt (s : State) (a : Word) : Word :=
  (Cells.read? s.memw a.toNat).getD (Config.initialMemWord s.epoch a.toNat)

/-- Write a word of the word-indexed data memory. -/
def State.setIndexedWord (s : State) (a v : Word) : State := { s with memw := Cells.write s.memw a.toNat v }

/-- A word of program memory: the loaded program, or the initial content (log 6). -/
def State.programWordAt (s : State) (a : Word) : Word :=
  (Cells.read? s.pmem a.toNat).getD (Config.initialProgramWord a.toNat)

/-- `PmemRead(a)` (R31). -/
def State.pmemRead (s : State) (a : Word) : Except Fault Word :=
  if a.toNat < s.cfg.pmemWords then .ok (s.programWordAt a) else .error .outsideProgramMemory

/-- Whether data memory has the byte at an address (R36). -/
def State.hasByte (s : State) (a : Word) : Bool := decide (a.toNat < s.cfg.dmemBytes)

/-- A word from the bytes at its lower and its higher address (R32). -/
def joinBytes (o : ByteOrder) (lower higher : Byte) : Word :=
  match o with
  | .little => higher ++ lower
  | .big => lower ++ higher

/-- The byte of a word that goes to its lower address (R33). -/
def lowerAddressByte (o : ByteOrder) (v : Word) : Byte :=
  match o with
  | .little => v.extractLsb' 0 8
  | .big => v.extractLsb' 8 8

/-- The byte of a word that goes to its higher address (R33). -/
def higherAddressByte (o : ByteOrder) (v : Word) : Byte :=
  match o with
  | .little => v.extractLsb' 8 8
  | .big => v.extractLsb' 0 8

/-- `MemRead(a, 1)` (R32). -/
def State.memReadByte (s : State) (a : Word) : Except Fault Byte :=
  if s.hasByte a then .ok (s.byteAt a) else .error .outsideDataMemory

/-- `MemRead(a, 2)` (R32). -/
def State.memReadWord (s : State) (a : Word) : Except Fault Word :=
  if s.hasByte a && s.hasByte (a + 1) then .ok (joinBytes s.cfg.byteOrder (s.byteAt a) (s.byteAt (a + 1)))
  else .error .outsideDataMemory

/-- `MemWrite(a, 1, v)` (R33). -/
def State.memWriteByte (s : State) (a : Word) (v : Byte) : Except Fault State :=
  if s.hasByte a then .ok (s.setByte a v) else .error .outsideDataMemory

/-- `MemWrite(a, 2, v)`: both bytes in one instruction, or none (R33). -/
def State.memWriteWord (s : State) (a v : Word) : Except Fault State :=
  if s.hasByte a && s.hasByte (a + 1) then
    .ok ((s.setByte a (lowerAddressByte s.cfg.byteOrder v)).setByte (a + 1) (higherAddressByte s.cfg.byteOrder v))
  else .error .outsideDataMemory

/-! ## The end of an instruction (R25) -/

/-- The prefix state is reset: `IMMV <- 0; C <- 0; UC <- 0`. -/
def State.clearPrefix (s : State) : State := { s with immv := false, c := false, uc := false }

/-- The epilogue of a regular instruction that leaves the pc to it. -/
def State.finish (s : State) : State := s.clearPrefix.advance

/-- The epilogue of a regular instruction that sets the pc itself. -/
def State.finishAt (s : State) (target : Word) : State := s.clearPrefix.setPc target

/-- The epilogue of `addc` and `subc`, which leave a carry: `IMMV <- 0; C <- carry; UC <- 1`. -/
def State.finishCarry (s : State) (carry : Bool) : State := { s with immv := false, c := carry, uc := true }.advance

/-! ## Skip, interrupt, mode switch, reset -/

/-- R24 step 3: a skipped instruction only moves the pc, and ends the skip unless it is a prefix instruction. -/
def State.skipOver (s : State) (i : Instr) : State := { s.advance with skip := s.skip && i.isPrefixing }

/-- R164: taking an interrupt does `K <- 1` and nothing else. The registers that hold the interrupted context are bank 0
and PC[0], left in place; the handler is wherever PC[1] points. -/
def State.takeInterrupt (s : State) : State := { s with k := .kernel }

/-- R81: `rets`, the system call from user mode and the return from kernel mode (R165). The pc of the mode that is left
moves past the instruction, then the mode switches. -/
def State.switchMode (s : State) : State := { s.finish with k := otherMode s.k }

/-- A bank after a reset asserted during a run: the pc at `RESET_PC`, registers unspecified (R26, log 7). -/
def Bank.afterReset (epoch : Nat) (m : Mode) (pc : Word) : Bank :=
  { regs := Vector.ofFn fun i : Reg => Config.registerAfterReset epoch m i.val, pc := pc }

/-- R180: reset asserted from outside. The parameters, the loaded program and the environment stay; what R26 leaves
unspecified takes free values (log 7). -/
def State.assertReset (s : State) : State :=
  { State.resetWith s.cfg with
    user := Bank.afterReset (s.epoch + 1) .user (pcBits s.cfg.pcWidth s.cfg.resetPc)
    kernel := Bank.afterReset (s.epoch + 1) .kernel (pcBits s.cfg.pcWidth s.cfg.resetPc)
    imm := Config.immAfterReset (s.epoch + 1)
    pmem := s.pmem
    inputs := s.inputs
    epoch := s.epoch + 1 }

/-! ## The instruction cycle (R24) -/

/-- Both lines low: the environment in a cycle that it does not list (log 2). -/
def CycleInput.low : CycleInput := { irq := false, reset := false }

/-- What the environment does in this cycle. -/
def State.input (s : State) : CycleInput := s.inputs.headD .low

/-- The environment moves on to the next cycle. -/
def State.tick (s : State) : State := { s with inputs := s.inputs.tail }

/-- `Interruptible(d)` (R163). -/
def State.interruptible (s : State) (i : Instr) : Bool := !s.immv && !s.uc && !i.isPrefixing

/-- R162, in a cycle that is neither stopped nor skipped. -/
def State.interruptTaken (s : State) (i : Instr) : Bool :=
  decide (s.k = .user) && s.input.irq && s.ie && s.interruptible i

/-- What this cycle does, in the order of R24; a reset comes before all (log 7). -/
def State.action (s : State) : CycleAction :=
  if s.input.reset then .reset
  else if s.halt || s.error then .stopped
  else
    match s.pmemRead s.pc with
    | .error f => .fetchFault f
    | .ok w =>
      if s.skip then .skip (decode w)
      else if s.interruptTaken (decode w) then .interrupt
      else .execute (decode w)

end Sys2Proof.Machine
end

