-- ==== Sys2Proof/Machine/Operands.lean ====
section
/-! DEFINITION. Operands: immediates with and without an `imm` before them (spec/30_encoding.md R57, R58), effective
addresses (spec/42_load_store.md R100), jump targets (spec/41_move_control.md R92), shift amounts (spec/43_alu.md R120). -/

namespace Sys2Proof.Machine

/-- `immval` of a signed field (imm6, imm8, imm11): the sign-extended field, or after `imm` the immediate register over
the field's four lowest bits. -/
def State.immval (s : State) (field : Int) : Word :=
  if s.immv then s.imm ++ BitVec.ofInt 4 field else BitVec.ofInt 16 field

/-- `immval` of imm4, which is unsigned. -/
def State.immval4 (s : State) (field : Nat) : Word :=
  if s.immv then s.imm ++ BitVec.ofNat 4 field else BitVec.ofNat 16 field

/-- The address of a word access: bit 0 of the base is ignored, the offset doubled (R100, R35). -/
def wordAddress (base off : Word) : Word := (base &&& 0xFFFE#16) + (off + off)

/-- The address of a byte access, and of a word access under `MEM_MODEL` = `word_indexed` (R100, R45). -/
def plainAddress (base off : Word) : Word := base + off

/-- `REL_BASE` as the number that is added to the pc (R3). -/
def relBaseValue : RelBase → Word
  | .ownAddress => 0
  | .nextInstruction => 1

/-- The target of a pc-relative jump or call: `pc + REL_BASE + immval` (R92). -/
def State.relativeTarget (s : State) (field : Int) : Word := s.pc + relBaseValue s.cfg.relBase + s.immval field

/-- The amount of a shift: the value itself in 0..15; above, what `SHIFT_MODE` says (R120). `none`: refused. -/
def shiftAmount (mode : ShiftMode) (b : Word) : Option Nat :=
  if b.toNat < 16 then some b.toNat
  else
    match mode with
    | .low4 => some (b.toNat % 16)
    | .refuse => none

end Sys2Proof.Machine
end

