-- ==== Sys2Proof/Machine/Flags.lean ====
section
/-! DEFINITION. The flag computations: the 17-bit sum and difference whose bit 16 is C (spec/43_alu.md R110 to R113),
and the conditions that set S (spec/44_compare_skip.md R130 to R136). -/

namespace Sys2Proof.Machine

/-- `zext_17(a) + zext_17(b) + C`. -/
def sum17 (a b : Word) (c : Bool) : BitVec 17 := a.setWidth 17 + b.setWidth 17 + (BitVec.ofBool c).setWidth 17

/-- `(zext_17(a) - zext_17(b) - C) mod 2^17`. -/
def diff17 (a b : Word) (c : Bool) : BitVec 17 := a.setWidth 17 - b.setWidth 17 - (BitVec.ofBool c).setWidth 17

/-- `t[15:0]`. -/
def low16 (t : BitVec 17) : Word := t.setWidth 16

/-- `t[16]`: the carry of a sum, the borrow of a difference. -/
def bit16 (t : BitVec 17) : Bool := t.getLsbD 16

/-- R131. -/
def condEq (a b : Word) : Bool := decide (a = b)

/-- R132. -/
def condNe (a b : Word) : Bool := !decide (a = b)

/-- R133, signed. -/
def condLt (a b : Word) : Bool := decide (a.toInt < b.toInt)

/-- R134, signed. -/
def condGe (a b : Word) : Bool := decide (a.toInt ≥ b.toInt)

/-- R135, unsigned. -/
def condUlt (a b : Word) : Bool := decide (a.toNat < b.toNat)

/-- R136, unsigned. -/
def condUge (a b : Word) : Bool := decide (a.toNat ≥ b.toNat)

/-- `S <- !(condition)`, and the end of the instruction (R130). -/
def State.finishCompare (s : State) (condition : Bool) : State := { s with skip := !condition }.finish

end Sys2Proof.Machine
end

