-- ==== Sys2Proof/Machine/MoveControl.lean ====
section
/-! DEFINITION. Move, constant, jump, immediate, call, and the register forms of opcodes 9 and 11
(spec/41_move_control.md R90 to R95). -/

namespace Sys2Proof.Machine

/-- `x[rd] <- v` and the end of a regular instruction. -/
def State.writeBack (s : State) (rd : Reg) (v : Word) : Result := .next (s.setReg rd v).finish

/-- R90, rr. -/
def execMove (rd rs : Reg) (s : State) : Result := s.writeBack rd (s.reg rs)

/-- R90, i8. -/
def execMoveI (rd : Reg) (imm8 : Int) (s : State) : Result := s.writeBack rd (s.immval imm8)

/-- R91: the documented operation `x[rd] <- PmemRead(a)` under `UNIMPL` = `as_documented`, else refused. -/
def loadConstant (rd : Reg) (a : Word) (s : State) : Result :=
  match s.cfg.unimpl with
  | .refuse => .refused .loadcNotImplemented
  | .asDocumented =>
    match s.pmemRead a with
    | .ok v => s.writeBack rd v
    | .error f => .fault f

/-- R91, rr: an absolute word address. -/
def execLoadc (rd rs : Reg) (s : State) : Result := loadConstant rd (s.reg rs) s

/-- R91, i8: an offset from the address of the `loadc` itself. -/
def execLoadcI (rd : Reg) (imm8 : Int) (s : State) : Result := loadConstant rd (s.pc + s.immval imm8) s

/-- R92, rr. Under `ERRATA` = on this word has no defined meaning (D24). -/
def execJump (rd : Reg) (s : State) : Result :=
  if s.cfg.errata then .refused .jumpRegisterErrata else .next (s.finishAt (s.reg rd))

/-- R92, i11. -/
def execJumpI (imm11 : Int) (s : State) : Result := .next (s.finishAt (s.relativeTarget imm11))

/-- R93: `IMM[15:4] <- imm12; IMMV <- 1`. A pending carry (UC = 1) is cleared, kept or refused as
`IMM_AFTER_CARRY` says (D11, log 13). -/
def execImm (imm12 : BitVec 12) (s : State) : Result :=
  match s.cfg.immAfterCarry with
  | .clear => .next { s with imm := imm12, immv := true, c := false, uc := false }.advance
  | .keep => .next { s with imm := imm12, immv := true }.advance
  | .refuse =>
    if s.uc then .refused .immAfterCarry
    else .next { s with imm := imm12, immv := true, c := false, uc := false }.advance

/-- R94: `x[0] <- pc + 1; pc <- target`, the target computed before r0 is written (D22). -/
def callTo (target : Word) (s : State) : Result := .next ((s.setReg 0 (s.pc + 1)).finishAt target)

/-- R94, rr. Under `ERRATA` = on the register is added to the pc (D24, log 12). -/
def execCall (rd : Reg) (s : State) : Result :=
  if s.cfg.errata then callTo (s.pc + s.reg rd) s else callTo (s.reg rd) s

/-- R94, i11. -/
def execCallI (imm11 : Int) (s : State) : Result := callTo (s.relativeTarget imm11) s

/-- R95: acts like nop. -/
def execNopOp9 (s : State) : Result := .next s.finish

/-- R95: acts like nop. -/
def execNopOp11 (s : State) : Result := .next s.finish

end Sys2Proof.Machine
end

