-- ==== Sys2Proof/Machine/Alu.lean ====
section
/-! DEFINITION. Arithmetic, logic and shifts (spec/43_alu.md R110 to R120). In each `a` is x[rd] and `b` is rsval. -/

namespace Sys2Proof.Machine

/-- R110: the carry in is added; none is left. -/
def addTo (rd : Reg) (b : Word) (s : State) : Result := s.writeBack rd (low16 (sum17 (s.reg rd) b s.c))

/-- R111: the borrow in is subtracted; none is left. -/
def subFrom (rd : Reg) (b : Word) (s : State) : Result := s.writeBack rd (low16 (diff17 (s.reg rd) b s.c))

/-- R112: as `addTo`, leaving the carry for the next instruction. -/
def addToCarry (rd : Reg) (b : Word) (s : State) : Result :=
  .next ((s.setReg rd (low16 (sum17 (s.reg rd) b s.c))).finishCarry (bit16 (sum17 (s.reg rd) b s.c)))

/-- R113: as `subFrom`, leaving the borrow for the next instruction. -/
def subFromBorrow (rd : Reg) (b : Word) (s : State) : Result :=
  .next ((s.setReg rd (low16 (diff17 (s.reg rd) b s.c))).finishCarry (bit16 (diff17 (s.reg rd) b s.c)))

/-- R114. -/
def xorWith (rd : Reg) (b : Word) (s : State) : Result := s.writeBack rd (s.reg rd ^^^ b)

/-- R115. -/
def andWith (rd : Reg) (b : Word) (s : State) : Result := s.writeBack rd (s.reg rd &&& b)

/-- R116. -/
def orWith (rd : Reg) (b : Word) (s : State) : Result := s.writeBack rd (s.reg rd ||| b)

/-- R117: zeros enter at bit 0. -/
def shiftLeft (rd : Reg) (b : Word) (s : State) : Result :=
  match shiftAmount s.cfg.shiftMode b with
  | some n => s.writeBack rd (s.reg rd <<< n)
  | none => .refused .shiftAmount

/-- R118: zeros enter at bit 15. -/
def shiftRight (rd : Reg) (b : Word) (s : State) : Result :=
  match shiftAmount s.cfg.shiftMode b with
  | some n => s.writeBack rd (s.reg rd >>> n)
  | none => .refused .shiftAmount

/-- R119: copies of bit 15 enter at bit 15. -/
def shiftRightSigned (rd : Reg) (b : Word) (s : State) : Result :=
  match shiftAmount s.cfg.shiftMode b with
  | some n => s.writeBack rd ((s.reg rd).sshiftRight n)
  | none => .refused .shiftAmount

/-- R110, rr. -/
def execAdd (rd rs : Reg) (s : State) : Result := addTo rd (s.reg rs) s

/-- R110, ri6. -/
def execAddI (rd : Reg) (imm6 : Int) (s : State) : Result := addTo rd (s.immval imm6) s

/-- R111, rr. -/
def execSub (rd rs : Reg) (s : State) : Result := subFrom rd (s.reg rs) s

/-- R111, ri6. -/
def execSubI (rd : Reg) (imm6 : Int) (s : State) : Result := subFrom rd (s.immval imm6) s

/-- R112, rr. -/
def execAddc (rd rs : Reg) (s : State) : Result := addToCarry rd (s.reg rs) s

/-- R112, ri6. -/
def execAddcI (rd : Reg) (imm6 : Int) (s : State) : Result := addToCarry rd (s.immval imm6) s

/-- R113, rr. -/
def execSubc (rd rs : Reg) (s : State) : Result := subFromBorrow rd (s.reg rs) s

/-- R113, ri6. -/
def execSubcI (rd : Reg) (imm6 : Int) (s : State) : Result := subFromBorrow rd (s.immval imm6) s

/-- R114, rr. -/
def execXor (rd rs : Reg) (s : State) : Result := xorWith rd (s.reg rs) s

/-- R114, ri6. -/
def execXorI (rd : Reg) (imm6 : Int) (s : State) : Result := xorWith rd (s.immval imm6) s

/-- R115, rr. -/
def execAnd (rd rs : Reg) (s : State) : Result := andWith rd (s.reg rs) s

/-- R115, ri6. -/
def execAndI (rd : Reg) (imm6 : Int) (s : State) : Result := andWith rd (s.immval imm6) s

/-- R116, rr. -/
def execOr (rd rs : Reg) (s : State) : Result := orWith rd (s.reg rs) s

/-- R116, ri6. -/
def execOrI (rd : Reg) (imm6 : Int) (s : State) : Result := orWith rd (s.immval imm6) s

/-- R117, rr. -/
def execShl (rd rs : Reg) (s : State) : Result := shiftLeft rd (s.reg rs) s

/-- R117, ri6. -/
def execShlI (rd : Reg) (imm6 : Int) (s : State) : Result := shiftLeft rd (s.immval imm6) s

/-- R118, rr. -/
def execShr (rd rs : Reg) (s : State) : Result := shiftRight rd (s.reg rs) s

/-- R118, ri6. -/
def execShrI (rd : Reg) (imm6 : Int) (s : State) : Result := shiftRight rd (s.immval imm6) s

/-- R119, rr. -/
def execAsr (rd rs : Reg) (s : State) : Result := shiftRightSigned rd (s.reg rs) s

/-- R119, ri6. -/
def execAsrI (rd : Reg) (imm6 : Int) (s : State) : Result := shiftRightSigned rd (s.immval imm6) s

end Sys2Proof.Machine
end

