-- ==== Sys2Proof/Machine/CompareSkip.lean ====
section
/-! DEFINITION. Compare and skip (spec/44_compare_skip.md R130 to R136): `a` is x[rd], `b` is rsval. -/

namespace Sys2Proof.Machine

/-- R131, rr. -/
def execIfEq (rd rs : Reg) (s : State) : Result := .next (s.finishCompare (condEq (s.reg rd) (s.reg rs)))

/-- R131, ri6. -/
def execIfEqI (rd : Reg) (imm6 : Int) (s : State) : Result := .next (s.finishCompare (condEq (s.reg rd) (s.immval imm6)))

/-- R132, rr. -/
def execIfNe (rd rs : Reg) (s : State) : Result := .next (s.finishCompare (condNe (s.reg rd) (s.reg rs)))

/-- R132, ri6. -/
def execIfNeI (rd : Reg) (imm6 : Int) (s : State) : Result := .next (s.finishCompare (condNe (s.reg rd) (s.immval imm6)))

/-- R133, rr. -/
def execIfLt (rd rs : Reg) (s : State) : Result := .next (s.finishCompare (condLt (s.reg rd) (s.reg rs)))

/-- R133, ri6. -/
def execIfLtI (rd : Reg) (imm6 : Int) (s : State) : Result := .next (s.finishCompare (condLt (s.reg rd) (s.immval imm6)))

/-- R134, rr. -/
def execIfGe (rd rs : Reg) (s : State) : Result := .next (s.finishCompare (condGe (s.reg rd) (s.reg rs)))

/-- R134, ri6. -/
def execIfGeI (rd : Reg) (imm6 : Int) (s : State) : Result := .next (s.finishCompare (condGe (s.reg rd) (s.immval imm6)))

/-- R135, rr. -/
def execIfUlt (rd rs : Reg) (s : State) : Result := .next (s.finishCompare (condUlt (s.reg rd) (s.reg rs)))

/-- R135, ri6. -/
def execIfUltI (rd : Reg) (imm6 : Int) (s : State) : Result := .next (s.finishCompare (condUlt (s.reg rd) (s.immval imm6)))

/-- R136, rr. -/
def execIfUge (rd rs : Reg) (s : State) : Result := .next (s.finishCompare (condUge (s.reg rd) (s.reg rs)))

/-- R136, ri6. -/
def execIfUgeI (rd : Reg) (imm6 : Int) (s : State) : Result := .next (s.finishCompare (condUge (s.reg rd) (s.immval imm6)))

end Sys2Proof.Machine
end

