-- ==== Sys2Proof/Machine/LoadStore.lean ====
section
/-! DEFINITION. Loads and stores (spec/42_load_store.md R100 to R104), under both memory models (spec/20_memory.md R45). -/

namespace Sys2Proof.Machine

/-- R101. -/
def loadWord (rd : Reg) (base off : Word) (s : State) : Result :=
  match s.cfg.memModel with
  | .byteAddressed =>
    match s.memReadWord (wordAddress base off) with
    | .ok v => s.writeBack rd v
    | .error f => .fault f
  | .wordIndexed => s.writeBack rd (s.indexedWordAt (plainAddress base off))

/-- R102. -/
def storeWord (rd : Reg) (base off : Word) (s : State) : Result :=
  match s.cfg.memModel with
  | .byteAddressed =>
    match s.memWriteWord (wordAddress base off) (s.reg rd) with
    | .ok t => .next t.finish
    | .error f => .fault f
  | .wordIndexed => .next (s.setIndexedWord (plainAddress base off) (s.reg rd)).finish

/-- R103: the byte is zero extended. -/
def loadByte (rd : Reg) (base off : Word) (s : State) : Result :=
  match s.cfg.memModel with
  | .byteAddressed =>
    match s.memReadByte (plainAddress base off) with
    | .ok v => s.writeBack rd (v.setWidth 16)
    | .error f => .fault f
  | .wordIndexed => .refused .byteAccessNotImplemented

/-- R104: the low byte of rd. -/
def storeByte (rd : Reg) (base off : Word) (s : State) : Result :=
  match s.cfg.memModel with
  | .byteAddressed =>
    match s.memWriteByte (plainAddress base off) ((s.reg rd).setWidth 8) with
    | .ok t => .next t.finish
    | .error f => .fault f
  | .wordIndexed => .refused .byteAccessNotImplemented

/-- R101, rr. -/
def execLoad (rd rs : Reg) (s : State) : Result := loadWord rd (s.reg rs) 0 s

/-- R101, ls. -/
def execLoadI (rd rs : Reg) (imm4 : Nat) (s : State) : Result := loadWord rd (s.reg rs) (s.immval4 imm4) s

/-- R102, rr. -/
def execStore (rd rs : Reg) (s : State) : Result := storeWord rd (s.reg rs) 0 s

/-- R102, ls. -/
def execStoreI (rd rs : Reg) (imm4 : Nat) (s : State) : Result := storeWord rd (s.reg rs) (s.immval4 imm4) s

/-- R103, rr. -/
def execLoadb (rd rs : Reg) (s : State) : Result := loadByte rd (s.reg rs) 0 s

/-- R103, ls. -/
def execLoadbI (rd rs : Reg) (imm4 : Nat) (s : State) : Result := loadByte rd (s.reg rs) (s.immval4 imm4) s

/-- R104, rr. -/
def execStoreb (rd rs : Reg) (s : State) : Result := storeByte rd (s.reg rs) 0 s

/-- R104, ls. -/
def execStorebI (rd rs : Reg) (imm4 : Nat) (s : State) : Result := storeByte rd (s.reg rs) (s.immval4 imm4) s

end Sys2Proof.Machine
end

