-- ==== Sys2Proof/Machine/System.lean ====
section
/-! DEFINITION. System instructions: nop, rets, error, halt, rcsr, wcsr (spec/40_system.md R80 to R85). -/

namespace Sys2Proof.Machine

/-- R80. -/
def execNop (s : State) : Result := .next s.finish

/-- R81. -/
def execRets (s : State) : Result := .next s.switchMode

/-- R82: the error line goes up, the pc stays. -/
def execError (s : State) : Result := .next { s.clearPrefix with error := true }

/-- R83: the halt line goes up, the pc stays. -/
def execHalt (s : State) : Result := .next { s.clearPrefix with halt := true }

/-- R84: not implemented, no CSR is defined (R21). Under `ERRATA` = on the word is `pc <- x[rd]` (D24, log 12). -/
def execRcsr (rd : Reg) (s : State) : Result :=
  if s.cfg.errata then .next (s.finishAt (s.reg rd)) else .refused .rcsrNotImplemented

/-- R85: not implemented, no CSR is defined (R21). -/
def execWcsr (_s : State) : Result := .refused .wcsrNotImplemented

end Sys2Proof.Machine
end

