-- ==== Sys2Proof/Machine/Dispatch.lean ====
section
/-! DEFINITION. The meaning of each instruction: step 5 of the instruction cycle (spec/10_state.md R24), the epilogue of
R25 included. -/

namespace Sys2Proof.Machine

def exec (i : Instr) (s : State) : Host.Outcome State Fault Refusal :=
  match i with
  | .nop => Sys2Proof.Machine.execNop s
  | .rets => Sys2Proof.Machine.execRets s
  | .error => Sys2Proof.Machine.execError s
  | .halt => Sys2Proof.Machine.execHalt s
  | .rcsr rd => Sys2Proof.Machine.execRcsr rd s
  | .wcsr => Sys2Proof.Machine.execWcsr s
  | .move rd rs => Sys2Proof.Machine.execMove rd rs s
  | .loadc rd rs => Sys2Proof.Machine.execLoadc rd rs s
  | .jump rd => Sys2Proof.Machine.execJump rd s
  | .nopOp9 => Sys2Proof.Machine.execNopOp9 s
  | .call rd => Sys2Proof.Machine.execCall rd s
  | .nopOp11 => Sys2Proof.Machine.execNopOp11 s
  | .load rd rs => Sys2Proof.Machine.execLoad rd rs s
  | .store rd rs => Sys2Proof.Machine.execStore rd rs s
  | .loadb rd rs => Sys2Proof.Machine.execLoadb rd rs s
  | .storeb rd rs => Sys2Proof.Machine.execStoreb rd rs s
  | .add rd rs => Sys2Proof.Machine.execAdd rd rs s
  | .sub rd rs => Sys2Proof.Machine.execSub rd rs s
  | .addc rd rs => Sys2Proof.Machine.execAddc rd rs s
  | .subc rd rs => Sys2Proof.Machine.execSubc rd rs s
  | .xor rd rs => Sys2Proof.Machine.execXor rd rs s
  | .and rd rs => Sys2Proof.Machine.execAnd rd rs s
  | .or rd rs => Sys2Proof.Machine.execOr rd rs s
  | .shl rd rs => Sys2Proof.Machine.execShl rd rs s
  | .shr rd rs => Sys2Proof.Machine.execShr rd rs s
  | .asr rd rs => Sys2Proof.Machine.execAsr rd rs s
  | .ifEq rd rs => Sys2Proof.Machine.execIfEq rd rs s
  | .ifNe rd rs => Sys2Proof.Machine.execIfNe rd rs s
  | .ifLt rd rs => Sys2Proof.Machine.execIfLt rd rs s
  | .ifGe rd rs => Sys2Proof.Machine.execIfGe rd rs s
  | .ifUlt rd rs => Sys2Proof.Machine.execIfUlt rd rs s
  | .ifUge rd rs => Sys2Proof.Machine.execIfUge rd rs s
  | .moveI rd imm8 => Sys2Proof.Machine.execMoveI rd imm8 s
  | .loadcI rd imm8 => Sys2Proof.Machine.execLoadcI rd imm8 s
  | .jumpI imm11 => Sys2Proof.Machine.execJumpI imm11 s
  | .callI imm11 => Sys2Proof.Machine.execCallI imm11 s
  | .imm imm12 => Sys2Proof.Machine.execImm imm12 s
  | .loadI rd rs imm4 => Sys2Proof.Machine.execLoadI rd rs imm4 s
  | .storeI rd rs imm4 => Sys2Proof.Machine.execStoreI rd rs imm4 s
  | .loadbI rd rs imm4 => Sys2Proof.Machine.execLoadbI rd rs imm4 s
  | .storebI rd rs imm4 => Sys2Proof.Machine.execStorebI rd rs imm4 s
  | .addI rd imm6 => Sys2Proof.Machine.execAddI rd imm6 s
  | .subI rd imm6 => Sys2Proof.Machine.execSubI rd imm6 s
  | .addcI rd imm6 => Sys2Proof.Machine.execAddcI rd imm6 s
  | .subcI rd imm6 => Sys2Proof.Machine.execSubcI rd imm6 s
  | .xorI rd imm6 => Sys2Proof.Machine.execXorI rd imm6 s
  | .andI rd imm6 => Sys2Proof.Machine.execAndI rd imm6 s
  | .orI rd imm6 => Sys2Proof.Machine.execOrI rd imm6 s
  | .shlI rd imm6 => Sys2Proof.Machine.execShlI rd imm6 s
  | .shrI rd imm6 => Sys2Proof.Machine.execShrI rd imm6 s
  | .asrI rd imm6 => Sys2Proof.Machine.execAsrI rd imm6 s
  | .ifEqI rd imm6 => Sys2Proof.Machine.execIfEqI rd imm6 s
  | .ifNeI rd imm6 => Sys2Proof.Machine.execIfNeI rd imm6 s
  | .ifLtI rd imm6 => Sys2Proof.Machine.execIfLtI rd imm6 s
  | .ifGeI rd imm6 => Sys2Proof.Machine.execIfGeI rd imm6 s
  | .ifUltI rd imm6 => Sys2Proof.Machine.execIfUltI rd imm6 s
  | .ifUgeI rd imm6 => Sys2Proof.Machine.execIfUgeI rd imm6 s

end Sys2Proof.Machine
end

