-- ==== Sys2Proof/Machine/Step.lean ====
section
/-! DEFINITION. One instruction cycle (spec/10_state.md R24), and the placing of an instruction word where the next
cycle fetches it. -/

namespace Sys2Proof.Machine

/-- One instruction cycle: what `State.action` chooses, done to the machine while the environment moves on by a cycle. -/
def step (s : State) : Host.Outcome State Fault Refusal :=
  match s.action with
  | .reset => .next s.tick.assertReset
  | .stopped => .next s.tick
  | .fetchFault f => .fault f
  | .skip i => .next (s.tick.skipOver i)
  | .interrupt => .next s.tick.takeInterrupt
  | .execute i => exec i s.tick

/-- The machine with an instruction word in program memory at the active pc (log 6). -/
def State.withFetchWord (s : State) (nbits w : Nat) : State :=
  { s with pmem := Cells.write s.pmem s.pc.toNat (BitVec.ofNat 16 (w % 2 ^ nbits)) }

end Sys2Proof.Machine
end

