-- ==== Sys2Proof/Safety.lean ====
section
/-! DEFINITION. What counts as a good state and a good run, and the terms in which claims about the machine are stated:
the invariant, reachability, frames, sequences of executed instructions. -/

namespace Sys2Proof

/-! ## Kinds of instructions -/

/-- The six compare instructions in both forms: the writers of S (R130). -/
def Instr.isCompare : Instr → Bool
  | .ifEq _ _ | .ifNe _ _ | .ifLt _ _ | .ifGe _ _ | .ifUlt _ _ | .ifUge _ _ | .ifEqI _ _ | .ifNeI _ _ | .ifLtI _ _
  | .ifGeI _ _ | .ifUltI _ _ | .ifUgeI _ _ => true
  | .nop | .rets | .error | .halt | .rcsr _ | .wcsr | .move _ _ | .loadc _ _ | .jump _ | .nopOp9 | .call _ | .nopOp11
  | .load _ _ | .store _ _ | .loadb _ _ | .storeb _ _ | .add _ _ | .sub _ _ | .addc _ _ | .subc _ _ | .xor _ _
  | .and _ _ | .or _ _ | .shl _ _ | .shr _ _ | .asr _ _ | .imm _ | .moveI _ _ | .loadcI _ _ | .jumpI _ | .callI _
  | .loadI _ _ _ | .storeI _ _ _ | .loadbI _ _ _ | .storebI _ _ _ | .addI _ _ | .subI _ _ | .addcI _ _ | .subcI _ _
  | .xorI _ _ | .andI _ _ | .orI _ _ | .shlI _ _ | .shrI _ _ | .asrI _ _ => false

/-- The instructions that write data memory (R22, R30). -/
def Instr.isStore : Instr → Bool
  | .store _ _ | .storeb _ _ | .storeI _ _ _ | .storebI _ _ _ => true
  | .nop | .rets | .error | .halt | .rcsr _ | .wcsr | .move _ _ | .loadc _ _ | .jump _ | .nopOp9 | .call _ | .nopOp11
  | .load _ _ | .loadb _ _ | .add _ _ | .sub _ _ | .addc _ _ | .subc _ _ | .xor _ _ | .and _ _ | .or _ _ | .shl _ _
  | .shr _ _ | .asr _ _ | .ifEq _ _ | .ifNe _ _ | .ifLt _ _ | .ifGe _ _ | .ifUlt _ _ | .ifUge _ _ | .moveI _ _
  | .loadcI _ _ | .jumpI _ | .callI _ | .imm _ | .loadI _ _ _ | .loadbI _ _ _ | .addI _ _ | .subI _ _ | .addcI _ _
  | .subcI _ _ | .xorI _ _ | .andI _ _ | .orI _ _ | .shlI _ _ | .shrI _ _ | .asrI _ _ | .ifEqI _ _ | .ifNeI _ _
  | .ifLtI _ _ | .ifGeI _ _ | .ifUltI _ _ | .ifUgeI _ _ => false

/-- The instructions whose own rule sets the pc or leaves it: `jump`, `call`, `rets`, `halt`, `error` (R25), and the
word of `rcsr`, which is a jump under `ERRATA` = on (D24). -/
def Instr.setsPc : Instr → Bool
  | .jump _ | .jumpI _ | .call _ | .callI _ | .rets | .halt | .error | .rcsr _ => true
  | .nop | .wcsr | .move _ _ | .loadc _ _ | .nopOp9 | .nopOp11 | .load _ _ | .store _ _ | .loadb _ _ | .storeb _ _
  | .add _ _ | .sub _ _ | .addc _ _ | .subc _ _ | .xor _ _ | .and _ _ | .or _ _ | .shl _ _ | .shr _ _ | .asr _ _
  | .ifEq _ _ | .ifNe _ _ | .ifLt _ _ | .ifGe _ _ | .ifUlt _ _ | .ifUge _ _ | .moveI _ _ | .loadcI _ _ | .imm _
  | .loadI _ _ _ | .storeI _ _ _ | .loadbI _ _ _ | .storebI _ _ _ | .addI _ _ | .subI _ _ | .addcI _ _ | .subcI _ _
  | .xorI _ _ | .andI _ _ | .orI _ _ | .shlI _ _ | .shrI _ _ | .asrI _ _ | .ifEqI _ _ | .ifNeI _ _ | .ifLtI _ _
  | .ifGeI _ _ | .ifUltI _ _ | .ifUgeI _ _ => false

/-! ## Fields of a word as numbers, for the opcode map -/

/-- The unsigned field of `n` bits from bit `lo` up. -/
def fieldNat (lo n : Nat) (w : Word) : Nat := w.toNat / 2 ^ lo % 2 ^ n

/-- The same field read as two's complement. -/
def fieldInt (lo n : Nat) (w : Word) : Int :=
  if fieldNat lo n w < 2 ^ (n - 1) then fieldNat lo n w else fieldNat lo n w - 2 ^ n

/-- The register that bits 15:12 name. -/
def wordRd (w : Word) : Reg := Fin.ofNat 16 (fieldNat 12 4 w)

/-- The register that bits 11:8 name. -/
def wordRs (w : Word) : Reg := Fin.ofNat 16 (fieldNat 8 4 w)

end Sys2Proof

namespace Sys2Proof.Machine

/-! ## Runs -/

/-- The run has ended, in success or in failure (spec/10_state.md R20). -/
def State.stopped (s : State) : Bool := s.halt || s.error

/-- What every state that a run reaches satisfies: memories in canonical form, the rules (a) and (b) of R23, at most
one of the two lines up (D33), and program counters of `PC_WIDTH` bits (R3, R14). -/
structure State.Inv (s : State) : Prop where
  mem_wf : Memory.wf s.mem = true
  memw_wf : WordMemory.wf s.memw = true
  pmem_wf : WordMemory.wf s.pmem = true
  carry_pending : s.uc = false → s.c = false
  skip_clean : s.skip = true → s.immv = false ∧ s.uc = false ∧ s.c = false
  one_line : ¬(s.halt = true ∧ s.error = true)
  pc_fits : ∀ m, pcBits s.cfg.pcWidth (s.pcOf m) = s.pcOf m

/-- A state in which a run starts: the machine after reset, for any parameters, with any program loaded and any
behaviour of the environment to come (R26, R161). -/
def State.Initial (s : State) : Prop :=
  ∃ (p : Params) (program : WordMemory) (environment : List CycleInput),
    WordMemory.wf program = true ∧ s = { State.resetWith p with pmem := program, inputs := environment }

/-- A state that some run reaches. -/
inductive Reachable : State → Prop where
  | start {s : State} : s.Initial → Reachable s
  | next {s t : State} : Reachable s → step s = .next t → Reachable t

/-- Execute instructions one after the other (each with its epilogue), stopping at the first that stops. -/
def execSeq : List Instr → State → Result
  | [], s => .next s
  | i :: rest, s =>
    match exec i s with
    | .next t => execSeq rest t
    | .fault f => .fault f
    | .refused r => .refused r

/-- Apply a function to the next state of an outcome. -/
def mapNext (f : State → State) : Result → Result
  | .next t => .next (f t)
  | .fault r => .fault r
  | .refused r => .refused r

/-- The machine with the two modes exchanged. -/
def State.swapModes (s : State) : State := { s with user := s.kernel, kernel := s.user, k := otherMode s.k }

/-- The number that registers of the active bank hold together, the first one least significant. -/
def State.multiword (s : State) : List Reg → Nat
  | [] => 0
  | r :: rest => (s.reg r).toNat + 65536 * s.multiword rest

/-- The machine with the low bits of its two program counters, as many as they have. -/
def State.narrowPcs (s : State) : State :=
  { s with
    user := { s.user with pc := pcBits s.cfg.pcWidth s.user.pc }
    kernel := { s.kernel with pc := pcBits s.cfg.pcWidth s.kernel.pc } }

/-! ## Frames -/

/-- The state carried into the next instruction is gone: `IMMV = 0, C = 0, UC = 0` (R25). -/
def PrefixCleared (t : State) : Prop := t.immv = false ∧ t.c = false ∧ t.uc = false

/-- Both banks keep their registers, but for one register of the active bank, and the inactive program counter stays. -/
def KeepsBanksBut (s t : State) (rd : Option Reg) : Prop :=
  (∀ m i, ¬(m = s.k ∧ rd = some i) → t.regOf m i = s.regOf m i) ∧ ∀ m, m ≠ s.k → t.pcOf m = s.pcOf m

/-- The mode, the immediate register, the halt and the error line stay. -/
def KeepsModeAndLines (s t : State) : Prop := t.k = s.k ∧ t.imm = s.imm ∧ t.halt = s.halt ∧ t.error = s.error

/-- What no executed instruction writes: the parameters, IE, program memory, the environment, the count of resets. -/
def KeepsSetting (s t : State) : Prop :=
  t.cfg = s.cfg ∧ t.ie = s.ie ∧ (∀ a, t.programWordAt a = s.programWordAt a) ∧ t.inputs = s.inputs ∧ t.epoch = s.epoch

/-- Every byte of data memory, and every word of the word-indexed one, reads as before. -/
def KeepsDataMemory (s t : State) : Prop :=
  (∀ a, t.byteAt a = s.byteAt a) ∧ ∀ a, t.indexedWordAt a = s.indexedWordAt a

/-- All of the machine but the active pc, the prefix state, S, data memory, and one register of the active bank. -/
def KeepsCore (s t : State) (rd : Option Reg) : Prop :=
  KeepsBanksBut s t rd ∧ KeepsModeAndLines s t ∧ KeepsSetting s t

/-- The frame of a form that stores nothing and sets no skip flag. -/
def RegisterFrame (s t : State) (rd : Option Reg) : Prop :=
  KeepsCore s t rd ∧ t.skip = s.skip ∧ KeepsDataMemory s t

/-- The instruction completes as a regular one that does nothing else than write `v` to register `rd`.
The pc that `pc <- v` leaves is written `pcBits s.cfg.pcWidth v` here and below: `v` itself at the width 16 of R14; what
it is at other widths is the subject of obligation `ProgramCounterWidth` (log 16). -/
def Writes (i : Instr) (s : State) (rd : Reg) (v : Word) : Prop :=
  ∃ t, exec i s = .next t ∧ t.regOf s.k rd = v ∧ t.pcOf s.k = pcBits s.cfg.pcWidth (s.pcOf s.k + 1) ∧
    PrefixCleared t ∧ RegisterFrame s t (some rd)

/-- The instruction completes as a regular one that does nothing else than continue at `target`. -/
def JumpsTo (i : Instr) (s : State) (target : Word) : Prop :=
  ∃ t, exec i s = .next t ∧ t.pcOf s.k = pcBits s.cfg.pcWidth target ∧ PrefixCleared t ∧ RegisterFrame s t none

/-- The instruction completes as a regular one that does nothing else than set `S <- !condition`. -/
def Compares (i : Instr) (s : State) (condition : Prop) : Prop :=
  ∃ t, exec i s = .next t ∧ (t.skip = false ↔ condition) ∧ t.pcOf s.k = pcBits s.cfg.pcWidth (s.pcOf s.k + 1) ∧
    PrefixCleared t ∧ KeepsCore s t none ∧ KeepsDataMemory s t

/-- The word of the instruction has these bits under a mask. -/
abbrev HasBits (i : Instr) (mask bits : Word) : Prop := encode i &&& mask = bits

end Sys2Proof.Machine
end

