-- ==== Sys2Proof/Certificates/Slice0/Obligations.lean ====
section
/-! DEFINITION. The statements for the provers. Each docstring names the rules of spec/ that the statement formalises.
Throughout, `pcBits s.cfg.pcWidth v` is the program counter that a rule's `pc <- v` leaves: `v` itself at the width 16 of
R14. What it is at another width is the model's reading (log 16), stated in `ProgramCounterWidth`. -/

open Sys2Proof Sys2Proof.Machine

/-! ## Encoding -/

/-- R60, the opcode map: a word that matches a row of the map is the row's instruction, with the row's fields. Of the
row of opcode 4 (`rcsr`) R60 says 'not given' for its fields; that the model keeps bits 15:12 there as rd is its own
choice (log 9, PRESUMED), no rule of the spec. -/
def Obligations.OpcodeMapDecodes : Prop :=
  ∀ w : Word,
    (w &&& 0x007F = 0x0000 → decode w = .nop) ∧
    (w &&& 0x007F = 0x0004 → decode w = .rets) ∧
    (w &&& 0x007F = 0x0008 → decode w = .error) ∧
    (w &&& 0x007F = 0x000C → decode w = .halt) ∧
    (w &&& 0x007F = 0x0010 → decode w = .rcsr (wordRd w)) ∧
    (w &&& 0x007F = 0x0014 → decode w = .wcsr) ∧
    (w &&& 0x007F = 0x0018 → decode w = .move (wordRd w) (wordRs w)) ∧
    (w &&& 0x007F = 0x001C → decode w = .loadc (wordRd w) (wordRs w)) ∧
    (w &&& 0x007F = 0x0020 → decode w = .jump (wordRd w)) ∧
    (w &&& 0x007F = 0x0024 → decode w = .nopOp9) ∧
    (w &&& 0x007F = 0x0028 → decode w = .call (wordRd w)) ∧
    (w &&& 0x007F = 0x002C → decode w = .nopOp11) ∧
    (w &&& 0x007F = 0x0030 → decode w = .load (wordRd w) (wordRs w)) ∧
    (w &&& 0x007F = 0x0034 → decode w = .store (wordRd w) (wordRs w)) ∧
    (w &&& 0x007F = 0x0038 → decode w = .loadb (wordRd w) (wordRs w)) ∧
    (w &&& 0x007F = 0x003C → decode w = .storeb (wordRd w) (wordRs w)) ∧
    (w &&& 0x007F = 0x0040 → decode w = .add (wordRd w) (wordRs w)) ∧
    (w &&& 0x007F = 0x0044 → decode w = .sub (wordRd w) (wordRs w)) ∧
    (w &&& 0x007F = 0x0048 → decode w = .addc (wordRd w) (wordRs w)) ∧
    (w &&& 0x007F = 0x004C → decode w = .subc (wordRd w) (wordRs w)) ∧
    (w &&& 0x007F = 0x0050 → decode w = .xor (wordRd w) (wordRs w)) ∧
    (w &&& 0x007F = 0x0054 → decode w = .and (wordRd w) (wordRs w)) ∧
    (w &&& 0x007F = 0x0058 → decode w = .or (wordRd w) (wordRs w)) ∧
    (w &&& 0x007F = 0x005C → decode w = .shl (wordRd w) (wordRs w)) ∧
    (w &&& 0x007F = 0x0060 → decode w = .shr (wordRd w) (wordRs w)) ∧
    (w &&& 0x007F = 0x0064 → decode w = .asr (wordRd w) (wordRs w)) ∧
    (w &&& 0x007F = 0x0068 → decode w = .ifEq (wordRd w) (wordRs w)) ∧
    (w &&& 0x007F = 0x006C → decode w = .ifNe (wordRd w) (wordRs w)) ∧
    (w &&& 0x007F = 0x0070 → decode w = .ifLt (wordRd w) (wordRs w)) ∧
    (w &&& 0x007F = 0x0074 → decode w = .ifGe (wordRd w) (wordRs w)) ∧
    (w &&& 0x007F = 0x0078 → decode w = .ifUlt (wordRd w) (wordRs w)) ∧
    (w &&& 0x007F = 0x007C → decode w = .ifUge (wordRd w) (wordRs w)) ∧
    (w &&& 0x000F = 0x0001 → decode w = .moveI (wordRd w) (fieldInt 4 8 w)) ∧
    (w &&& 0x000F = 0x0009 → decode w = .loadcI (wordRd w) (fieldInt 4 8 w)) ∧
    (w &&& 0x001F = 0x0005 → decode w = .jumpI (fieldInt 5 11 w)) ∧
    (w &&& 0x001F = 0x0015 → decode w = .callI (fieldInt 5 11 w)) ∧
    (w &&& 0x000F = 0x000D → decode w = .imm (BitVec.ofNat 12 (fieldNat 4 12 w))) ∧
    (w &&& 0x000F = 0x0002 → decode w = .loadI (wordRd w) (wordRs w) (fieldNat 4 4 w)) ∧
    (w &&& 0x000F = 0x0006 → decode w = .storeI (wordRd w) (wordRs w) (fieldNat 4 4 w)) ∧
    (w &&& 0x000F = 0x000A → decode w = .loadbI (wordRd w) (wordRs w) (fieldNat 4 4 w)) ∧
    (w &&& 0x000F = 0x000E → decode w = .storebI (wordRd w) (wordRs w) (fieldNat 4 4 w)) ∧
    (w &&& 0x003F = 0x0003 → decode w = .addI (wordRd w) (fieldInt 6 6 w)) ∧
    (w &&& 0x003F = 0x0007 → decode w = .subI (wordRd w) (fieldInt 6 6 w)) ∧
    (w &&& 0x003F = 0x000B → decode w = .addcI (wordRd w) (fieldInt 6 6 w)) ∧
    (w &&& 0x003F = 0x000F → decode w = .subcI (wordRd w) (fieldInt 6 6 w)) ∧
    (w &&& 0x003F = 0x0013 → decode w = .xorI (wordRd w) (fieldInt 6 6 w)) ∧
    (w &&& 0x003F = 0x0017 → decode w = .andI (wordRd w) (fieldInt 6 6 w)) ∧
    (w &&& 0x003F = 0x001B → decode w = .orI (wordRd w) (fieldInt 6 6 w)) ∧
    (w &&& 0x003F = 0x001F → decode w = .shlI (wordRd w) (fieldInt 6 6 w)) ∧
    (w &&& 0x003F = 0x0023 → decode w = .shrI (wordRd w) (fieldInt 6 6 w)) ∧
    (w &&& 0x003F = 0x0027 → decode w = .asrI (wordRd w) (fieldInt 6 6 w)) ∧
    (w &&& 0x003F = 0x002B → decode w = .ifEqI (wordRd w) (fieldInt 6 6 w)) ∧
    (w &&& 0x003F = 0x002F → decode w = .ifNeI (wordRd w) (fieldInt 6 6 w)) ∧
    (w &&& 0x003F = 0x0033 → decode w = .ifLtI (wordRd w) (fieldInt 6 6 w)) ∧
    (w &&& 0x003F = 0x0037 → decode w = .ifGeI (wordRd w) (fieldInt 6 6 w)) ∧
    (w &&& 0x003F = 0x003B → decode w = .ifUltI (wordRd w) (fieldInt 6 6 w)) ∧
    (w &&& 0x003F = 0x003F → decode w = .ifUgeI (wordRd w) (fieldInt 6 6 w))

/-- 95_test_vectors.md section 2.9: what the decoder makes of some words. -/
def Obligations.SpecDecoderVectors : Prop :=
  decode 0x0000 = .nop ∧ decode 0xFFFF = .ifUgeI 15 (-1) ∧ decode 0xFFFD = .imm 0xFFF ∧ decode 0xFFE5 = .jumpI (-1) ∧
  decode 0xFFF5 = .callI (-1) ∧ decode 0xFFF1 = .moveI 15 (-1) ∧ decode 0xFFF9 = .loadcI 15 (-1) ∧
  decode 0xFFFE = .storebI 15 15 15 ∧ decode 0xFFF2 = .loadI 15 15 15 ∧ decode 0xFFFC = .ifUge 15 15 ∧
  decode 0x0001 = .moveI 0 0 ∧ decode 0x0002 = .loadI 0 0 0 ∧ decode 0x0003 = .addI 0 0 ∧ decode 0x000D = .imm 0

/-- Decoding the word of a well-formed instruction gives the instruction back (30_encoding.md sections 2 and 4). -/
def Obligations.DecodeEncodeRoundTrip : Prop := ∀ i : Instr, i.wellFormed = true → decode (encode i) = i

/-- R62: every word decodes, and what it decodes to is well-formed; a string of bits is refused only for its length. -/
def Obligations.EveryWordDecodesWellFormed : Prop :=
  (∀ w : Word, (decode w).wellFormed = true ∧ decodeTableWord 16 w.toNat = some (decode w)) ∧
  ∀ n w : Nat, n ≠ 16 ∨ 65536 ≤ w → decodeTableWord n w = none

/-- R63: bit 7 of an rr word, and the register fields that an instruction does not read, are ignored; the encoder
leaves bit 7 zero. The word of `rcsr` keeps bits 15:12 (log 12: the model's choice). -/
def Obligations.IgnoredBitsDoNotMatter : Prop :=
  (∀ w : Word, w &&& 3 = 0 → decode (w ^^^ 0x80) = decode w) ∧
  (∀ u w : Word, w &&& 0x7F = u &&& 0x7F → w &&& 0x7F ∈ [0x00#16, 0x04, 0x08, 0x0C, 0x14, 0x24, 0x2C] →
    decode u = decode w) ∧
  (∀ u w : Word, w &&& 0xF07F = u &&& 0xF07F → w &&& 0x7F ∈ [0x10#16, 0x20, 0x28] → decode u = decode w) ∧
  ∀ i : Instr, encode i &&& 3 = 0 → encode i &&& 0x80 = 0

/-- R61: the prefix instructions are `imm` in form i12, and `addc` and `subc` in either form; everything else is
regular. -/
def Obligations.PrefixInstructionsByWord : Prop :=
  ∀ w : Word, (decode w).isPrefixing = true ↔
    w &&& 0xF = 0xD ∨ w &&& 0x7F = 0x48 ∨ w &&& 0x3F = 0x0B ∨ w &&& 0x7F = 0x4C ∨ w &&& 0x3F = 0x0F

/-- R57: the immediate of each immediate format, with and without a pending `imm`, and the ranges of the fields. -/
def Obligations.ImmediateAssembly : Prop :=
  ∀ (s : State) (w : Word),
    (s.immv = true →
      s.immval (imm8Field w) = s.imm ++ w.extractLsb' 4 4 ∧ s.immval (imm11Field w) = s.imm ++ w.extractLsb' 5 4 ∧
      s.immval4 (imm4Field w) = s.imm ++ w.extractLsb' 4 4 ∧ s.immval (imm6Field w) = s.imm ++ w.extractLsb' 6 4) ∧
    (s.immv = false →
      s.immval (imm8Field w) = (w.extractLsb' 4 8).signExtend 16 ∧
      s.immval (imm11Field w) = (w.extractLsb' 5 11).signExtend 16 ∧
      s.immval4 (imm4Field w) = (w.extractLsb' 4 4).zeroExtend 16 ∧
      s.immval (imm6Field w) = (w.extractLsb' 6 6).signExtend 16) ∧
    (-128 ≤ imm8Field w ∧ imm8Field w ≤ 127) ∧ (-1024 ≤ imm11Field w ∧ imm11Field w ≤ 1023) ∧ imm4Field w ≤ 15 ∧
    (-32 ≤ imm6Field w ∧ imm6Field w ≤ 31)

/-- R65: `imm` with the upper 12 bits of a value, and the next instruction with its lower four bits as the field, gives
that instruction the whole value as its immediate. -/
def Obligations.ImmSuppliesAnyConstant : Prop :=
  ∀ (s : State) (v : Word), s.cfg.immAfterCarry ≠ .refuse ∨ s.uc = false →
    ∃ t, exec (.imm (v.extractLsb' 4 12)) s = .next t ∧
      (∀ f : Int, BitVec.ofInt 4 f = v.extractLsb' 0 4 → t.immval f = v) ∧
      ∀ f : Nat, BitVec.ofNat 4 f = v.extractLsb' 0 4 → t.immval4 f = v

/-! ## The instruction cycle -/

/-- R24 step 5: a fetched instruction that is neither skipped nor replaced by an interrupt is executed, in the machine
whose environment has moved on by one cycle. -/
def Obligations.StepRunsTheDecodedInstruction : Prop :=
  ∀ (s : State) (w : Word) (i : Instr), s.input.reset = false → s.halt = false → s.error = false →
    s.pmemRead s.pc = .ok w → decode w = i → s.skip = false →
    ¬(s.k = .user ∧ s.input.irq = true ∧ s.ie = true ∧ s.immv = false ∧ s.uc = false ∧ i.isPrefixing = false) →
    step s = exec i { s with inputs := s.inputs.tail }

/-- R24, the five cases in their order. Where there is no word to fetch R31 says `refuse`; that the model answers it with
a fault is its own choice (log 10). A reset in the cycle is `ResetInputResetsTheMachine`. -/
def Obligations.InstructionCycleOrder : Prop :=
  ∀ s t : State, s.input.reset = false → t = { s with inputs := s.inputs.tail } →
    (s.halt = true ∨ s.error = true → step s = .next t) ∧
    (s.halt = false → s.error = false →
      (s.cfg.pmemWords ≤ s.pc.toNat → step s = .fault .outsideProgramMemory) ∧
      ∀ d : Instr, s.pc.toNat < s.cfg.pmemWords → decode (s.programWordAt s.pc) = d →
        (s.skip = true → step s = .next { t.setPc (s.pc + 1) with skip := d.isPrefixing }) ∧
        (s.skip = false → s.k = .user → s.input.irq = true → s.ie = true → s.interruptible d = true →
          step s = .next { t with k := .kernel }) ∧
        (s.skip = false → ¬(s.k = .user ∧ s.input.irq = true ∧ s.ie = true ∧ s.interruptible d = true) →
          step s = exec d t))

/-- R162 and R163: the conditions under which an interrupt is taken, each of them and no other. -/
def Obligations.InterruptTakenExactlyWhen : Prop :=
  ∀ (s : State) (w : Word), s.input.reset = false → s.pmemRead s.pc = .ok w →
    (s.action = .interrupt ↔
      s.halt = false ∧ s.error = false ∧ s.skip = false ∧ s.k = .user ∧ s.input.irq = true ∧ s.ie = true ∧
      s.immv = false ∧ s.uc = false ∧ (decode w).isPrefixing = false)

/-- R164: taking an interrupt does `K <- 1` and nothing else, so that the kernel's registers and pc are in use and the
interrupted instruction is the one at the user's pc. -/
def Obligations.TakenInterruptChangesModeOnly : Prop :=
  ∀ s : State, s.action = .interrupt → (s.uc = false → s.c = false) →
    ∃ t, step s = .next t ∧ s.k = .user ∧ t.k = .kernel ∧ t.pc = s.pcOf .kernel ∧ (∀ i, t.reg i = s.regOf .kernel i) ∧
      (∀ m, t.pcOf m = s.pcOf m) ∧ (∀ m i, t.regOf m i = s.regOf m i) ∧ KeepsDataMemory s t ∧
      t.skip = false ∧ PrefixCleared t ∧ t.skip = s.skip ∧ t.c = s.c ∧ t.uc = s.uc ∧ t.immv = s.immv ∧ t.imm = s.imm ∧
      t.ie = s.ie ∧ t.halt = s.halt ∧ t.error = s.error ∧ t.cfg = s.cfg ∧ (∀ a, t.programWordAt a = s.programWordAt a)

/-- R163 over two cycles: after an executed `imm`, `addc` or `subc` the next instruction is not replaced by an
interrupt, whatever the environment does. -/
def Obligations.PrefixHoldsOffInterrupt : Prop :=
  ∀ (s t : State) (i : Instr), s.action = .execute i → i.isPrefixing = true → step s = .next t → t.action ≠ .interrupt

/-- R16: S is written by the compare instructions alone and read by no instruction; a skip ends with the first regular
instruction and holds off interrupts. -/
def Obligations.SkipFlagWritersAndReaders : Prop :=
  (∀ (i : Instr) (s t : State), exec i s = .next t → i.isCompare = false → t.skip = s.skip) ∧
  (∀ (i : Instr) (s : State) (b : Bool), i.isCompare = true → exec i { s with skip := b } = exec i s) ∧
  (∀ (i : Instr) (s : State) (b : Bool), i.isCompare = false →
    exec i { s with skip := b } = mapNext (fun t => { t with skip := b }) (exec i s)) ∧
  (∀ s : State, s.skip = true → s.action ≠ .interrupt) ∧
  ∀ (s t : State) (i : Instr), s.action = .skip i → step s = .next t → t.skip = i.isPrefixing

/-- R24 step 3 and R130: a skip runs over any number of prefix instructions and one regular instruction, and all it
does is to move the pc past them and to end. That the pc holds no more bits than it has is a premise, kept by every step
(`StepKeepsInvariant`). -/
def Obligations.SkipCoversPrefixesAndOneInstruction : Prop :=
  ∀ (s : State) (n : Nat), s.skip = true → s.halt = false → s.error = false →
    pcBits s.cfg.pcWidth s.pc = s.pc →
    (∀ j, j ≤ n → (s.inputs.getD j .low).reset = false) →
    (∀ j, j ≤ n → ∃ w, s.pmemRead (pcBits s.cfg.pcWidth (s.pc + BitVec.ofNat 16 j)) = .ok w ∧
      (decode w).isPrefixing = decide (j < n)) →
    Host.Core.run Sys2Proof.core (n + 1) s =
      .next ({ s with skip := false, inputs := s.inputs.drop (n + 1) }.setPc (s.pc + BitVec.ofNat 16 (n + 1)))

/-- R25: what the end of an executed instruction leaves of the prefix state and does to the pc, by class. That under
`keep` an `imm` leaves C and UC both is the model's reading (log 13), and that the word of `rcsr`, where `ERRATA` makes it
a jump, is exempt from pc + 1 is its reading too (log 12); R25 states neither. -/
def Obligations.EpilogueByClass : Prop :=
  ∀ (i : Instr) (s t : State), exec i s = .next t →
    (∀ v, i = .imm v → t.immv = true ∧ t.imm = v ∧
      (s.cfg.immAfterCarry = .keep → t.c = s.c ∧ t.uc = s.uc) ∧
      (s.cfg.immAfterCarry ≠ .keep → t.c = false ∧ t.uc = false)) ∧
    (i.isPrefixing = true → (∀ v, i ≠ .imm v) → t.immv = false ∧ t.uc = true) ∧
    (i.isPrefixing = false → PrefixCleared t) ∧
    (i.setsPc = false → t.pcOf s.k = pcBits s.cfg.pcWidth (s.pcOf s.k + 1)) ∧
    (i = .halt ∨ i = .error → t.pcOf s.k = s.pcOf s.k)

/-! ## Invariants -/

/-- Every step keeps the invariant of the machine: memories in canonical form, R23 (a) and (b), one line at most, program
counters of `PC_WIDTH` bits. -/
def Obligations.StepKeepsInvariant : Prop := ∀ s t : State, s.Inv → step s = .next t → t.Inv

/-- The machine after reset has the invariant, for every choice of the parameters. -/
def Obligations.ResetHasInvariant : Prop := State.reset.Inv ∧ ∀ p : Params, (State.resetWith p).Inv

/-- R23, in every state that a run reaches. -/
def Obligations.ReachablePrefixState : Prop :=
  ∀ s : State, Reachable s →
    (s.uc = false → s.c = false) ∧ (s.skip = true → s.immv = false ∧ s.uc = false ∧ s.c = false) ∧
    ∀ t, step s = .next t → t.k ≠ s.k → t.skip = false ∧ t.immv = false ∧ t.uc = false ∧ t.c = false

/-! ## Program counters -/

/-- R3 and R14: a program counter of `PC_WIDTH` bits holds what is written to it modulo 2^`PC_WIDTH`, a word whole at the
width 16; and every instruction does on a narrower counter what it does on one of 16 bits, but for the bits that the
counter does not have. That a narrower counter keeps the low bits, and that everything else (the return address of
`call`, the address of `loadc`) is computed on 16 bits at any width, is the model's reading (log 16). -/
def Obligations.ProgramCounterWidth : Prop :=
  (∀ (s : State) (v : Word), (s.setPc v).pc.toNat = v.toNat % 2 ^ s.cfg.pcWidth ∧
    (16 ≤ s.cfg.pcWidth → (s.setPc v).pc = v)) ∧
  ∀ (i : Instr) (s : State), (∀ m, pcBits s.cfg.pcWidth (s.pcOf m) = s.pcOf m) →
    exec i s = mapNext (fun t => State.narrowPcs { t with cfg := s.cfg })
      (exec i { s with cfg := { s.cfg with pcWidth := 16 } })

/-! ## Modes -/

/-- R12 and R14: no cycle without a reset changes the bank of the other mode, its program counter included. -/
def Obligations.InactiveBankUnchanged : Prop :=
  ∀ s t : State, s.input.reset = false → step s = .next t → t.bank (otherMode s.k) = s.bank (otherMode s.k)

/-- R12: no instruction reads the bank of the other mode: with another inactive bank it does the same, and carries that
bank along. -/
def Obligations.InactiveBankUnseen : Prop :=
  ∀ (i : Instr) (s : State) (b : Bank),
    exec i (s.setBank (otherMode s.k) b) = mapNext (fun t => t.setBank (otherMode s.k) b) (exec i s)

/-- R168: every instruction does the same in both modes: exchanging the modes commutes with it. -/
def Obligations.InstructionsTreatModesAlike : Prop :=
  ∀ (i : Instr) (s : State), exec i s.swapModes = mapNext State.swapModes (exec i s)

/-- R15: without a reset, K changes only by an executed `rets` or, to kernel mode, by a taken interrupt. -/
def Obligations.ModeWrittenByRetsAndInterruptOnly : Prop :=
  ∀ s t : State, s.input.reset = false → step s = .next t → t.k ≠ s.k →
    s.action = .execute .rets ∨ (s.action = .interrupt ∧ s.k = .user ∧ t.k = .kernel)

/-- R81: `rets`, its words and what it does. -/
def Obligations.RetsSwitchesModes : Prop :=
  encode .rets = 0x0004 ∧ (∀ w : Word, w &&& 0x7F = 0x04 → decode w = .rets) ∧
  ∀ s : State, ∃ t, exec .rets s = .next t ∧ t.k = otherMode s.k ∧ t.pcOf s.k = pcBits s.cfg.pcWidth (s.pcOf s.k + 1) ∧
    t.pc = s.pcOf (otherMode s.k) ∧ (∀ m, m ≠ s.k → t.pcOf m = s.pcOf m) ∧ (∀ m i, t.regOf m i = s.regOf m i) ∧
    PrefixCleared t ∧ t.imm = s.imm ∧ t.skip = s.skip ∧ t.halt = s.halt ∧ t.error = s.error ∧ KeepsSetting s t ∧
    KeepsDataMemory s t

/-- R165: an interrupt whose handler is a single `rets` comes back to the interrupted instruction, with the user's
registers as they were and the kernel's pc one further. -/
def Obligations.InterruptThenRetsResumesUser : Prop :=
  ∀ (s : State) (w : Word), s.action = .interrupt → s.pmemRead (s.pcOf .kernel) = .ok w → decode w = .rets →
    (s.inputs.getD 1 .low).reset = false →
    ∃ t, Host.Core.run Sys2Proof.core 2 s = .next t ∧ t.k = .user ∧ t.pcOf .user = s.pcOf .user ∧
      t.pcOf .kernel = pcBits s.cfg.pcWidth (s.pcOf .kernel + 1) ∧ (∀ m i, t.regOf m i = s.regOf m i) ∧ KeepsDataMemory s t

/-- R81 and R165: a system call (`rets` in user mode) whose handler is a single `rets` comes back to the instruction
after it; from kernel mode likewise. -/
def Obligations.RetsTwiceComesBack : Prop :=
  ∀ s : State, ∃ t, execSeq [.rets, .rets] s = .next t ∧ t.k = s.k ∧ (∀ m, t.pcOf m = pcBits s.cfg.pcWidth (s.pcOf m + 1)) ∧
    (∀ m i, t.regOf m i = s.regOf m i) ∧ KeepsDataMemory s t

/-! ## Lines, reset, fetch -/

/-- R20: what raises the lines, and that a stopped machine changes nothing until a reset. -/
def Obligations.StoppedUntilReset : Prop :=
  (∀ s t : State, exec .halt s = .next t → t.halt = true ∧ t.pcOf s.k = s.pcOf s.k) ∧
  (∀ s t : State, exec .error s = .next t → t.error = true ∧ t.pcOf s.k = s.pcOf s.k) ∧
  (∀ s : State, s.halt = true ∨ s.error = true → s.input.reset = false →
    step s = .next { s with inputs := s.inputs.tail }) ∧
  (∀ s t : State, s.input.reset = false → step s = .next t →
    (s.halt = true → t.halt = true) ∧ (s.error = true → t.error = true)) ∧
  ∀ s t : State, s.input.reset = false → step s = .next t →
    (t.halt ≠ s.halt → s.action = .execute .halt) ∧ (t.error ≠ s.error → s.action = .execute .error)

/-- R26: the state after reset, where the spec gives a value, for every choice of the parameters (`RESET_PC` in as many
bits as the program counter has, log 16). -/
def Obligations.ResetValues : Prop :=
  ∀ p : Params, ∃ s, s = State.resetWith p ∧ s.pcOf .user = pcBits p.pcWidth p.resetPc ∧
    s.pcOf .kernel = pcBits p.pcWidth p.resetPc ∧ s.k = p.kReset ∧
    s.skip = false ∧ s.c = false ∧ s.uc = false ∧ s.immv = false ∧ s.ie = p.ieReset ∧ s.halt = false ∧ s.error = false ∧
    State.reset.pcOf .user = 0 ∧ State.reset.pcOf .kernel = 0 ∧ State.reset.ie = false

/-- R180: a reset asserted in a cycle, from any state, stopped ones too; registers, IMM and data memory are unspecified
after it. That it replaces the cycle, and that the program stays, is the model's choice (log 7). -/
def Obligations.ResetInputResetsTheMachine : Prop :=
  ∀ s : State, s.input.reset = true → ∃ t, step s = .next t ∧
    t.pcOf .user = pcBits s.cfg.pcWidth s.cfg.resetPc ∧
    t.pcOf .kernel = pcBits s.cfg.pcWidth s.cfg.resetPc ∧ t.k = s.cfg.kReset ∧ t.skip = false ∧
    PrefixCleared t ∧ t.ie = s.cfg.ieReset ∧ t.halt = false ∧ t.error = false ∧ t.cfg = s.cfg ∧
    t.inputs = s.inputs.tail ∧ ∀ a, t.programWordAt a = s.programWordAt a

/-- A word placed by `withFetchWord` after reset is the instruction that the first step runs (log 6). -/
def Obligations.PlacedWordRunsFirst : Prop :=
  ∀ w : Word, step (State.reset.withFetchWord 16 w.toNat) = exec (decode w) (State.reset.withFetchWord 16 w.toNat)

/-- R22, R43, R19: of data memory only the stores write anything; no instruction writes program memory, IE, the
parameters or the environment. -/
def Obligations.OnlyStoresWriteDataMemory : Prop :=
  ∀ (i : Instr) (s t : State), exec i s = .next t →
    KeepsSetting s t ∧ (i.isStore = false → KeepsDataMemory s t)

/-! ## System instructions -/

/-- R80: `nop` only moves on, consuming the prefix state; so do the register forms of opcodes 9 and 11 (R95). -/
def Obligations.NopFormsOnlyMoveOn : Prop :=
  ∀ s : State, JumpsTo .nop s (s.pc + 1) ∧ JumpsTo .nopOp9 s (s.pc + 1) ∧ JumpsTo .nopOp11 s (s.pc + 1) ∧
    HasBits (.nop) 0x007F 0x0000 ∧ HasBits (.nopOp9) 0x007F 0x0024 ∧ HasBits (.nopOp11) 0x007F 0x002C ∧ encode .nop = 0x0000

/-- R82 and R83: `error` and `halt` raise their line and do nothing else but reset the prefix state; after that nothing
changes, cycle after cycle, but that the environment moves on. -/
def Obligations.HaltAndErrorRaiseTheirLine : Prop :=
  ∀ s : State,
    (∃ t, exec .halt s = .next t ∧ t.halt = true ∧ t.error = s.error ∧ PrefixCleared t ∧ t.pcOf s.k = s.pcOf s.k ∧
      KeepsBanksBut s t none ∧ t.k = s.k ∧ t.imm = s.imm ∧ t.skip = s.skip ∧ KeepsSetting s t ∧ KeepsDataMemory s t ∧
      (t.input.reset = false → step t = .next { t with inputs := t.inputs.tail })) ∧
    (∃ t, exec .error s = .next t ∧ t.error = true ∧ t.halt = s.halt ∧ PrefixCleared t ∧ t.pcOf s.k = s.pcOf s.k ∧
      KeepsBanksBut s t none ∧ t.k = s.k ∧ t.imm = s.imm ∧ t.skip = s.skip ∧ KeepsSetting s t ∧ KeepsDataMemory s t ∧
      (t.input.reset = false → step t = .next { t with inputs := t.inputs.tail })) ∧
    HasBits (.halt) 0x007F 0x000C ∧ HasBits (.error) 0x007F 0x0008 ∧ encode .halt = 0x000C ∧ encode .error = 0x0008

/-- R84 and R85: `rcsr` and `wcsr` are refused, `rcsr` unless `ERRATA` is on. -/
def Obligations.CsrInstructionsAreRefused : Prop :=
  ∀ s : State, exec .wcsr s = .refused .wcsrNotImplemented ∧ HasBits (.wcsr) 0x007F 0x0014 ∧
    ∀ rd, HasBits (.rcsr rd) 0x007F 0x0010 ∧
      (s.cfg.errata = false → exec (.rcsr rd) s = .refused .rcsrNotImplemented)

/-- D24: the three words that `ERRATA` = on changes. That `call` still writes r0, and that the register of opcode 4
is in bits 15:12, is the model's reading (log 12). -/
def Obligations.ErrataForms : Prop :=
  ∀ (s : State) (rd : Reg), s.cfg.errata = true →
    JumpsTo (.rcsr rd) s (s.reg rd) ∧ exec (.jump rd) s = .refused .jumpRegisterErrata ∧
    ∃ t, exec (.call rd) s = .next t ∧ t.pcOf s.k = pcBits s.cfg.pcWidth (s.pc + s.reg rd) ∧ t.regOf s.k 0 = s.pc + 1 ∧ PrefixCleared t ∧
      RegisterFrame s t (some 0)

/-! ## Move, constants, jumps, calls -/

/-- R90: `move`, both forms. -/
def Obligations.MoveWritesRegister : Prop :=
  ∀ (s : State) (rd : Reg),
    (∀ rs, Writes (.move rd rs) s rd (s.reg rs) ∧ HasBits (.move rd rs) 0x007F 0x0018) ∧
    ∀ v, Writes (.moveI rd v) s rd (s.immval v) ∧ HasBits (.moveI rd v) 0x000F 0x0001

/-- R91: `loadc`, both forms: the documented operation under `UNIMPL` = `as_documented` (log 4), and the refusal under
`UNIMPL` = `refuse`. Beyond `PMEM_WORDS` R31 says `refuse`; that the model stops there with a fault is its own choice
(log 10). -/
def Obligations.LoadcReadsProgramMemory : Prop :=
  (∀ rd, (∀ rs, HasBits (.loadc rd rs) 0x007F 0x001C) ∧ ∀ v, HasBits (.loadcI rd v) 0x000F 0x0009) ∧
  ∀ (s : State) (rd : Reg) (i : Instr) (a : Word),
    ((∃ rs, i = .loadc rd rs ∧ a = s.reg rs) ∨
      ∃ v, i = .loadcI rd v ∧ a = s.pc + s.immval v) →
    (s.cfg.unimpl = .asDocumented → a.toNat < s.cfg.pmemWords → Writes i s rd (s.programWordAt a)) ∧
    (s.cfg.unimpl = .asDocumented → s.cfg.pmemWords ≤ a.toNat → exec i s = .fault .outsideProgramMemory) ∧
    (s.cfg.unimpl = .refuse → exec i s = .refused .loadcNotImplemented)

/-- R92: `jump`, both forms. -/
def Obligations.JumpSetsPc : Prop :=
  ∀ s : State,
    (∀ rd, HasBits (.jump rd) 0x007F 0x0020 ∧ (s.cfg.errata = false → JumpsTo (.jump rd) s (s.reg rd))) ∧
    ∀ v, HasBits (.jumpI v) 0x001F 0x0005 ∧
      (s.cfg.relBase = .ownAddress → JumpsTo (.jumpI v) s (s.pc + s.immval v)) ∧
      (s.cfg.relBase = .nextInstruction → JumpsTo (.jumpI v) s (s.pc + 1 + s.immval v))

/-- R94: `call`, both forms: the target is computed before r0 takes the return address. -/
def Obligations.CallSavesReturnAddress : Prop :=
  ((∀ rd, HasBits (.call rd) 0x007F 0x0028) ∧ ∀ v, HasBits (.callI v) 0x001F 0x0015) ∧
  ∀ (s : State) (i : Instr) (target : Word),
    ((∃ rd, i = .call rd ∧ s.cfg.errata = false ∧ target = s.reg rd) ∨
      ∃ v, i = .callI v ∧
        ((s.cfg.relBase = .ownAddress ∧ target = s.pc + s.immval v) ∨
          (s.cfg.relBase = .nextInstruction ∧ target = s.pc + 1 + s.immval v))) →
    ∃ t, exec i s = .next t ∧ t.pcOf s.k = pcBits s.cfg.pcWidth target ∧ t.regOf s.k 0 = s.pc + 1 ∧ PrefixCleared t ∧
      RegisterFrame s t (some 0)

/-- R93: `imm`, with each choice of `IMM_AFTER_CARRY`; a carry is pending when UC = 1 (log 13). -/
def Obligations.ImmLoadsImmediateRegister : Prop :=
  ∀ (s : State) (v : BitVec 12), HasBits (.imm v) 0x000F 0x000D ∧
    (s.cfg.immAfterCarry = .refuse → s.uc = true → exec (.imm v) s = .refused .immAfterCarry) ∧
    (s.cfg.immAfterCarry ≠ .refuse ∨ s.uc = false →
      ∃ t, exec (.imm v) s = .next t ∧ t.imm = v ∧ t.immv = true ∧ t.pcOf s.k = pcBits s.cfg.pcWidth (s.pcOf s.k + 1) ∧
        (s.cfg.immAfterCarry = .keep → t.c = s.c ∧ t.uc = s.uc) ∧
        (s.cfg.immAfterCarry ≠ .keep → t.c = false ∧ t.uc = false) ∧
        KeepsBanksBut s t none ∧ t.k = s.k ∧ t.skip = s.skip ∧ t.halt = s.halt ∧ t.error = s.error ∧
        KeepsSetting s t ∧ KeepsDataMemory s t)

/-! ## Loads and stores -/

/-- R100, R35, R36: effective addresses as numbers; a word address is even, whatever the base. -/
def Obligations.EffectiveAddresses : Prop :=
  ∀ base off : Word,
    (wordAddress base off).toNat = (base.toNat - base.toNat % 2 + 2 * off.toNat) % 65536 ∧
    (plainAddress base off).toNat = (base.toNat + off.toNat) % 65536 ∧ (wordAddress base off).toNat % 2 = 0

/-- R101 and R32, and R45 under `MEM_MODEL` = `word_indexed`: `load`, both forms. That the word-indexed memory is one of
its own and has all 65536 words, whatever `DMEM_BYTES` is, is the model's choice (log 11). -/
def Obligations.LoadReadsWord : Prop :=
  (∀ rd rs, HasBits (.load rd rs) 0x007F 0x0030 ∧ ∀ n, HasBits (.loadI rd rs n) 0x000F 0x0002) ∧
  ∀ (s : State) (rd rs : Reg) (i : Instr) (off ea : Word),
    ((i = .load rd rs ∧ off = 0) ∨ ∃ n, i = .loadI rd rs n ∧ off = s.immval4 n) → ea = wordAddress (s.reg rs) off →
    (s.cfg.memModel = .byteAddressed → ea.toNat < s.cfg.dmemBytes → (ea + 1).toNat < s.cfg.dmemBytes →
      (s.cfg.byteOrder = .little → Writes i s rd (s.byteAt (ea + 1) ++ s.byteAt ea)) ∧
      (s.cfg.byteOrder = .big → Writes i s rd (s.byteAt ea ++ s.byteAt (ea + 1)))) ∧
    (s.cfg.memModel = .wordIndexed → Writes i s rd (s.indexedWordAt (s.reg rs + off)))

/-- R102 and R33, and R45 under `MEM_MODEL` = `word_indexed`: `store`, both forms: the bytes stored, and that every other
byte stays. That the word-indexed memory is one of its own, beside the bytes, and has all 65536 words, whatever
`DMEM_BYTES` is, is the model's choice (log 11). -/
def Obligations.StoreWritesWord : Prop :=
  (∀ rd rs, HasBits (.store rd rs) 0x007F 0x0034 ∧ ∀ n, HasBits (.storeI rd rs n) 0x000F 0x0006) ∧
  ∀ (s : State) (rd rs : Reg) (i : Instr) (off ea : Word),
    ((i = .store rd rs ∧ off = 0) ∨ ∃ n, i = .storeI rd rs n ∧ off = s.immval4 n) → ea = wordAddress (s.reg rs) off →
    (s.cfg.memModel = .byteAddressed → ea.toNat < s.cfg.dmemBytes → (ea + 1).toNat < s.cfg.dmemBytes →
      ∃ t, exec i s = .next t ∧ t.pcOf s.k = pcBits s.cfg.pcWidth (s.pcOf s.k + 1) ∧ PrefixCleared t ∧
        KeepsCore s t none ∧ t.skip = s.skip ∧
        (s.cfg.byteOrder = .little →
          t.byteAt ea = (s.reg rd).extractLsb' 0 8 ∧ t.byteAt (ea + 1) = (s.reg rd).extractLsb' 8 8) ∧
        (s.cfg.byteOrder = .big →
          t.byteAt ea = (s.reg rd).extractLsb' 8 8 ∧ t.byteAt (ea + 1) = (s.reg rd).extractLsb' 0 8) ∧
        (∀ b, b ≠ ea → b ≠ ea + 1 → t.byteAt b = s.byteAt b) ∧ ∀ b, t.indexedWordAt b = s.indexedWordAt b) ∧
    (s.cfg.memModel = .wordIndexed →
      ∃ t, exec i s = .next t ∧ t.pcOf s.k = pcBits s.cfg.pcWidth (s.pcOf s.k + 1) ∧ PrefixCleared t ∧
        KeepsCore s t none ∧ t.skip = s.skip ∧
        t.indexedWordAt (s.reg rs + off) = s.reg rd ∧
        (∀ b, b ≠ s.reg rs + off → t.indexedWordAt b = s.indexedWordAt b) ∧ ∀ b, t.byteAt b = s.byteAt b)

/-- R103: `loadb`, both forms: the byte, zero extended; refused in the word-indexed memory. -/
def Obligations.LoadbReadsByte : Prop :=
  (∀ rd rs, HasBits (.loadb rd rs) 0x007F 0x0038 ∧ ∀ n, HasBits (.loadbI rd rs n) 0x000F 0x000A) ∧
  ∀ (s : State) (rd rs : Reg) (i : Instr) (off ea : Word),
    ((i = .loadb rd rs ∧ off = 0) ∨ ∃ n, i = .loadbI rd rs n ∧ off = s.immval4 n) → ea = plainAddress (s.reg rs) off →
    (s.cfg.memModel = .byteAddressed → ea.toNat < s.cfg.dmemBytes → Writes i s rd (0#8 ++ s.byteAt ea)) ∧
    (s.cfg.memModel = .wordIndexed → exec i s = .refused .byteAccessNotImplemented)

/-- R104: `storeb`, both forms: one byte, and every other byte stays; refused in the word-indexed memory. -/
def Obligations.StorebWritesByte : Prop :=
  (∀ rd rs, HasBits (.storeb rd rs) 0x007F 0x003C ∧ ∀ n, HasBits (.storebI rd rs n) 0x000F 0x000E) ∧
  ∀ (s : State) (rd rs : Reg) (i : Instr) (off ea : Word),
    ((i = .storeb rd rs ∧ off = 0) ∨ ∃ n, i = .storebI rd rs n ∧ off = s.immval4 n) →
    ea = plainAddress (s.reg rs) off →
    (s.cfg.memModel = .byteAddressed → ea.toNat < s.cfg.dmemBytes →
      ∃ t, exec i s = .next t ∧ t.pcOf s.k = pcBits s.cfg.pcWidth (s.pcOf s.k + 1) ∧ PrefixCleared t ∧
        KeepsCore s t none ∧ t.skip = s.skip ∧
        t.byteAt ea = (s.reg rd).extractLsb' 0 8 ∧ (∀ b, b ≠ ea → t.byteAt b = s.byteAt b) ∧
        ∀ b, t.indexedWordAt b = s.indexedWordAt b) ∧
    (s.cfg.memModel = .wordIndexed → exec i s = .refused .byteAccessNotImplemented)

/-- R36 and R45: an access that touches a byte at or above `DMEM_BYTES` has no meaning, and byte accesses have none in
the word-indexed memory. Both rules say `refuse`; that the model answers the first with a fault is its own choice
(log 10). -/
def Obligations.DataAccessOutsideMemoryStops : Prop :=
  ∀ (s : State) (rd rs : Reg) (n : Nat),
    (s.cfg.memModel = .byteAddressed →
      (∀ ea, s.cfg.dmemBytes ≤ ea.toNat ∨ s.cfg.dmemBytes ≤ (ea + 1).toNat →
        (ea = wordAddress (s.reg rs) 0 →
          exec (.load rd rs) s = .fault .outsideDataMemory ∧ exec (.store rd rs) s = .fault .outsideDataMemory) ∧
        (ea = wordAddress (s.reg rs) (s.immval4 n) →
          exec (.loadI rd rs n) s = .fault .outsideDataMemory ∧ exec (.storeI rd rs n) s = .fault .outsideDataMemory)) ∧
      ∀ ea : Word, s.cfg.dmemBytes ≤ ea.toNat →
        (ea = s.reg rs →
          exec (.loadb rd rs) s = .fault .outsideDataMemory ∧ exec (.storeb rd rs) s = .fault .outsideDataMemory) ∧
        (ea = s.reg rs + s.immval4 n →
          exec (.loadbI rd rs n) s = .fault .outsideDataMemory ∧
          exec (.storebI rd rs n) s = .fault .outsideDataMemory)) ∧
    (s.cfg.memModel = .wordIndexed →
      exec (.loadb rd rs) s = .refused .byteAccessNotImplemented ∧
      exec (.storeb rd rs) s = .refused .byteAccessNotImplemented ∧
      exec (.loadbI rd rs n) s = .refused .byteAccessNotImplemented ∧
      exec (.storebI rd rs n) s = .refused .byteAccessNotImplemented)

/-- R40: a load returns what the store before it stored at the same address, in both memory models. That the
word-indexed memory (R45) has all 65536 words, whatever `DMEM_BYTES` is, is the model's choice (log 11). -/
def Obligations.StoreThenLoadReturnsWord : Prop :=
  ∀ (s : State) (rd rs rt : Reg),
    (s.cfg.memModel = .byteAddressed →
      (wordAddress (s.reg rs) 0).toNat < s.cfg.dmemBytes ∧ (wordAddress (s.reg rs) 0 + 1).toNat < s.cfg.dmemBytes) →
    ∃ t, execSeq [.store rd rs, .load rt rs] s = .next t ∧ t.regOf s.k rt = s.reg rd

/-- R34: which byte of a stored word a byte load returns, by `BYTE_ORDER` and the lowest bit of the address. -/
def Obligations.ByteOrderOfStoredWord : Prop :=
  ∀ (s : State) (rd rs rt : Reg), s.cfg.memModel = .byteAddressed →
    (wordAddress (s.reg rs) 0).toNat < s.cfg.dmemBytes → (wordAddress (s.reg rs) 0 + 1).toNat < s.cfg.dmemBytes →
    ∃ t, execSeq [.store rd rs, .loadb rt rs] s = .next t ∧
      ((s.cfg.byteOrder = .little ↔ (s.reg rs).toNat % 2 = 0) → (t.regOf s.k rt).toNat = (s.reg rd).toNat % 256) ∧
      (¬(s.cfg.byteOrder = .little ↔ (s.reg rs).toNat % 2 = 0) → (t.regOf s.k rt).toNat = (s.reg rd).toNat / 256)

/-! ## Arithmetic, logic, shifts -/

/-- R110 and R111: `add` and `sub`, both forms. -/
def Obligations.AddAndSubWriteRegister : Prop :=
  ∀ (s : State) (rd : Reg) (b carry : Word), carry = (if s.c then 1 else 0) →
    (∀ rs, b = s.reg rs →
      Writes (.add rd rs) s rd (s.reg rd + b + carry) ∧ Writes (.sub rd rs) s rd (s.reg rd - b - carry) ∧
      HasBits (.add rd rs) 0x007F 0x0040 ∧ HasBits (.sub rd rs) 0x007F 0x0044) ∧
    ∀ v, b = s.immval v →
      Writes (.addI rd v) s rd (s.reg rd + b + carry) ∧ Writes (.subI rd v) s rd (s.reg rd - b - carry) ∧
      HasBits (.addI rd v) 0x003F 0x0003 ∧ HasBits (.subI rd v) 0x003F 0x0007

/-- R112 and R113: `addc` and `subc`, both forms, with the carry or borrow they leave; both are prefix instructions. -/
def Obligations.AddcAndSubcLeaveCarry : Prop :=
  (∀ rd : Reg, (∀ rs, HasBits (.addc rd rs) 0x007F 0x0048 ∧ HasBits (.subc rd rs) 0x007F 0x004C) ∧
    ∀ v, HasBits (.addcI rd v) 0x003F 0x000B ∧ HasBits (.subcI rd v) 0x003F 0x000F) ∧
  ∀ (s : State) (rd : Reg) (b : Word) (i : Instr),
    ((∃ rs, i = .addc rd rs ∧ b = s.reg rs) ∨
      (∃ v, i = .addcI rd v ∧ b = s.immval v) →
      ∃ t, exec i s = .next t ∧
        (t.regOf s.k rd).toNat = ((s.reg rd).toNat + b.toNat + s.c.toNat) % 65536 ∧
        (t.c = true ↔ 65536 ≤ (s.reg rd).toNat + b.toNat + s.c.toNat) ∧ t.uc = true ∧ t.immv = false ∧
        t.pcOf s.k = pcBits s.cfg.pcWidth (s.pcOf s.k + 1) ∧ RegisterFrame s t (some rd) ∧ i.isPrefixing = true) ∧
    ((∃ rs, i = .subc rd rs ∧ b = s.reg rs) ∨
      (∃ v, i = .subcI rd v ∧ b = s.immval v) →
      ∃ t, exec i s = .next t ∧
        ((t.regOf s.k rd).toNat : Int) = ((s.reg rd).toNat - b.toNat - s.c.toNat : Int) % 65536 ∧
        (t.c = true ↔ (s.reg rd).toNat < b.toNat + s.c.toNat) ∧ t.uc = true ∧ t.immv = false ∧
        t.pcOf s.k = pcBits s.cfg.pcWidth (s.pcOf s.k + 1) ∧ RegisterFrame s t (some rd) ∧ i.isPrefixing = true)

/-- The source's carry chain (95_test_vectors.md V30): `addc` on all limbs but the last and `add` on the last add two
numbers of any length, and leave no carry behind. No limb may be written before it is read. -/
def Obligations.AddcChainAddsMultiwordNumbers : Prop :=
  ∀ (s : State) (limbs : List (Reg × Reg)) (rd rs : Reg),
    (limbs ++ [(rd, rs)]).Pairwise (fun p q => q.1 ≠ p.1 ∧ q.2 ≠ p.1) →
    ∃ t, execSeq (limbs.map (fun p => Instr.addc p.1 p.2) ++ [.add rd rs]) s = .next t ∧
      t.multiword (limbs.map Prod.fst ++ [rd]) =
        (s.multiword (limbs.map Prod.fst ++ [rd]) + s.multiword (limbs.map Prod.snd ++ [rs]) + s.c.toNat) %
          65536 ^ (limbs.length + 1) ∧
      PrefixCleared t

/-- The same for subtraction: `subc` on all limbs but the last and `sub` on the last (R111, R113). -/
def Obligations.SubcChainSubtractsMultiwordNumbers : Prop :=
  ∀ (s : State) (limbs : List (Reg × Reg)) (rd rs : Reg),
    (limbs ++ [(rd, rs)]).Pairwise (fun p q => q.1 ≠ p.1 ∧ q.2 ≠ p.1) →
    ∃ t, execSeq (limbs.map (fun p => Instr.subc p.1 p.2) ++ [.sub rd rs]) s = .next t ∧
      (t.multiword (limbs.map Prod.fst ++ [rd]) : Int) =
        ((s.multiword (limbs.map Prod.fst ++ [rd]) : Int) - s.multiword (limbs.map Prod.snd ++ [rs]) - s.c.toNat) %
          65536 ^ (limbs.length + 1) ∧
      PrefixCleared t

/-- R114, R115, R116: `xor`, `and`, `or`, both forms. -/
def Obligations.LogicWritesRegister : Prop :=
  ∀ (s : State) (rd : Reg) (b : Word),
    (∀ rs, b = s.reg rs →
      Writes (.xor rd rs) s rd (s.reg rd ^^^ b) ∧ Writes (.and rd rs) s rd (s.reg rd &&& b) ∧
      Writes (.or rd rs) s rd (s.reg rd ||| b) ∧
      HasBits (.xor rd rs) 0x007F 0x0050 ∧ HasBits (.and rd rs) 0x007F 0x0054 ∧ HasBits (.or rd rs) 0x007F 0x0058) ∧
    ∀ v, b = s.immval v →
      Writes (.xorI rd v) s rd (s.reg rd ^^^ b) ∧ Writes (.andI rd v) s rd (s.reg rd &&& b) ∧
      Writes (.orI rd v) s rd (s.reg rd ||| b) ∧
      HasBits (.xorI rd v) 0x003F 0x0013 ∧ HasBits (.andI rd v) 0x003F 0x0017 ∧ HasBits (.orI rd v) 0x003F 0x001B

/-- R117 to R120: the shifts, both forms, as arithmetic on the value; amounts above 15 by `SHIFT_MODE`. -/
def Obligations.ShiftsWriteRegister : Prop :=
  (∀ rd : Reg, (∀ rs, HasBits (.shl rd rs) 0x007F 0x005C ∧ HasBits (.shr rd rs) 0x007F 0x0060 ∧ HasBits (.asr rd rs) 0x007F 0x0064) ∧
    ∀ v, HasBits (.shlI rd v) 0x003F 0x001F ∧ HasBits (.shrI rd v) 0x003F 0x0023 ∧ HasBits (.asrI rd v) 0x003F 0x0027) ∧
  ∀ (s : State) (rd : Reg) (b : Word) (shl shr asr : Instr),
    ((∃ rs, b = s.reg rs ∧ shl = .shl rd rs ∧ shr = .shr rd rs ∧ asr = .asr rd rs) ∨
      ∃ v, b = s.immval v ∧ shl = .shlI rd v ∧ shr = .shrI rd v ∧ asr = .asrI rd v) →
    (b.toNat ≤ 15 ∨ s.cfg.shiftMode = .low4 →
      Writes shl s rd (BitVec.ofNat 16 ((s.reg rd).toNat * 2 ^ (b.toNat % 16))) ∧
      Writes shr s rd (BitVec.ofNat 16 ((s.reg rd).toNat / 2 ^ (b.toNat % 16))) ∧
      Writes asr s rd (BitVec.ofInt 16 ((s.reg rd).toInt / 2 ^ (b.toNat % 16)))) ∧
    (15 < b.toNat → s.cfg.shiftMode = .refuse →
      exec shl s = .refused .shiftAmount ∧ exec shr s = .refused .shiftAmount ∧ exec asr s = .refused .shiftAmount)

/-! ## Compare and skip -/

/-- R130 to R136: the compare instructions, both forms: S = 0 exactly when the condition holds. -/
def Obligations.CompareInstructionsSetSkip : Prop :=
  (∀ rd : Reg,
    (∀ rs, HasBits (.ifEq rd rs) 0x007F 0x0068 ∧ HasBits (.ifNe rd rs) 0x007F 0x006C ∧ HasBits (.ifLt rd rs) 0x007F 0x0070 ∧
      HasBits (.ifGe rd rs) 0x007F 0x0074 ∧ HasBits (.ifUlt rd rs) 0x007F 0x0078 ∧ HasBits (.ifUge rd rs) 0x007F 0x007C) ∧
    ∀ v, HasBits (.ifEqI rd v) 0x003F 0x002B ∧ HasBits (.ifNeI rd v) 0x003F 0x002F ∧ HasBits (.ifLtI rd v) 0x003F 0x0033 ∧
      HasBits (.ifGeI rd v) 0x003F 0x0037 ∧ HasBits (.ifUltI rd v) 0x003F 0x003B ∧ HasBits (.ifUgeI rd v) 0x003F 0x003F) ∧
  ∀ (s : State) (rd : Reg) (b : Word),
    (∀ rs, b = s.reg rs →
      Compares (.ifEq rd rs) s (s.reg rd = b) ∧ Compares (.ifNe rd rs) s (s.reg rd ≠ b) ∧
      Compares (.ifLt rd rs) s ((s.reg rd).toInt < b.toInt) ∧ Compares (.ifGe rd rs) s ((s.reg rd).toInt ≥ b.toInt) ∧
      Compares (.ifUlt rd rs) s ((s.reg rd).toNat < b.toNat) ∧ Compares (.ifUge rd rs) s ((s.reg rd).toNat ≥ b.toNat)) ∧
    ∀ v, b = s.immval v →
      Compares (.ifEqI rd v) s (s.reg rd = b) ∧ Compares (.ifNeI rd v) s (s.reg rd ≠ b) ∧
      Compares (.ifLtI rd v) s ((s.reg rd).toInt < b.toInt) ∧ Compares (.ifGeI rd v) s ((s.reg rd).toInt ≥ b.toInt) ∧
      Compares (.ifUltI rd v) s ((s.reg rd).toNat < b.toNat) ∧ Compares (.ifUgeI rd v) s ((s.reg rd).toNat ≥ b.toNat)

/-! ## Pseudoinstructions -/

/-- R141 and R142: `sxt` and `zxt` extend the low byte; the words for r1. -/
def Obligations.SxtAndZxtExtendTheByte : Prop :=
  encode (.shlI 1 8) = 0x121F ∧ encode (.asrI 1 8) = 0x1227 ∧ encode (.shrI 1 8) = 0x1223 ∧
  ∀ (s : State) (rd : Reg), s.immv = false →
    (∃ t, execSeq [.shlI rd 8, .asrI rd 8] s = .next t ∧
      t.regOf s.k rd = ((s.reg rd).extractLsb' 0 8).signExtend 16 ∧
      t.pcOf s.k = pcBits s.cfg.pcWidth (s.pcOf s.k + 2) ∧ RegisterFrame s t (some rd)) ∧
    ∃ t, execSeq [.shlI rd 8, .shrI rd 8] s = .next t ∧
      t.regOf s.k rd = ((s.reg rd).extractLsb' 0 8).zeroExtend 16 ∧
      t.pcOf s.k = pcBits s.cfg.pcWidth (s.pcOf s.k + 2) ∧ RegisterFrame s t (some rd)

/-- R143 and R144: `not` complements, `neg` negates whatever carry is pending; the words for r1. -/
def Obligations.NotAndNegComplement : Prop :=
  encode (.xorI 1 (-1)) = 0x1FD3 ∧ encode (.addI 1 1) = 0x1043 ∧
  ∀ (s : State) (rd : Reg), s.immv = false →
    Writes (.xorI rd (-1)) s rd (~~~(s.reg rd)) ∧
    ∃ t, execSeq [.xorI rd (-1), .addI rd 1] s = .next t ∧ t.regOf s.k rd = 0 - s.reg rd ∧
      t.pcOf s.k = pcBits s.cfg.pcWidth (s.pcOf s.k + 2) ∧ RegisterFrame s t (some rd)

/-- R145, R147, R149, R151: the compares made by exchanging the operands, and those of R146, R148, R150, R152 made by
adding one to an immediate that does not wrap. -/
def Obligations.DerivedCompares : Prop :=
  ∀ (s : State) (rd : Reg),
    (∀ rs, Compares (.ifLt rs rd) s ((s.reg rd).toInt > (s.reg rs).toInt) ∧
      Compares (.ifGe rs rd) s ((s.reg rd).toInt ≤ (s.reg rs).toInt) ∧
      Compares (.ifUlt rs rd) s ((s.reg rd).toNat > (s.reg rs).toNat) ∧
      Compares (.ifUge rs rd) s ((s.reg rd).toNat ≤ (s.reg rs).toNat)) ∧
    ∀ (v : Int) (b c : Word), s.immval v = c → c = b + 1 →
      (b.toInt < 32767 → Compares (.ifGeI rd v) s ((s.reg rd).toInt > b.toInt) ∧
        Compares (.ifLtI rd v) s ((s.reg rd).toInt ≤ b.toInt)) ∧
      (b.toNat < 65535 → Compares (.ifUgeI rd v) s ((s.reg rd).toNat > b.toNat) ∧
        Compares (.ifUltI rd v) s ((s.reg rd).toNat ≤ b.toNat))
end

