-- ==== Sys2Proof/Laws/Arith.lean ====
section
/-! SUPPORT. The flag computations and the shift amount as numbers, and the immediates with and without an `imm` before
them: one lemma for each shared operation, which proofs cite instead of unfolding it. -/

namespace Sys2Proof.Machine

theorem sum17_toNat (a b : Word) (c : Bool) : (sum17 a b c).toNat = a.toNat + b.toNat + c.toNat := by
  have := a.isLt
  have := b.isLt
  cases c <;> simp [sum17] <;> omega

theorem diff17_toNat (a b : Word) (c : Bool) :
    ((diff17 a b c).toNat : Int) = (a.toNat - b.toNat - c.toNat : Int) % 131072 := by
  have := a.isLt
  have := b.isLt
  cases c <;> simp [diff17] <;> omega

theorem low16_toNat (t : BitVec 17) : (low16 t).toNat = t.toNat % 65536 := by
  simp [low16]

theorem bit16_iff (t : BitVec 17) : bit16 t = true ↔ 65536 ≤ t.toNat := by
  have := t.isLt
  rw [bit16, BitVec.getLsbD, Nat.testBit_eq_decide_div_mod_eq]
  simp
  omega

theorem shiftAmount_of_lt {m : ShiftMode} {b : Word} (h : b.toNat ≤ 15) : shiftAmount m b = some b.toNat := by
  unfold shiftAmount
  rw [if_pos (by omega)]

theorem shiftAmount_low4 (b : Word) : shiftAmount .low4 b = some (b.toNat % 16) := by
  unfold shiftAmount
  split
  · rw [Nat.mod_eq_of_lt ‹_›]
  · rfl

theorem shiftAmount_refuse {b : Word} (h : 15 < b.toNat) : shiftAmount .refuse b = none := by
  unfold shiftAmount
  rw [if_neg (by omega)]

theorem State.immval_pending {s : State} (h : s.immv = true) (f : Int) : s.immval f = s.imm ++ BitVec.ofInt 4 f := by
  rw [State.immval, if_pos h]

theorem State.immval_plain {s : State} (h : s.immv = false) (f : Int) : s.immval f = BitVec.ofInt 16 f := by
  simp [State.immval, h]

theorem State.immval4_pending {s : State} (h : s.immv = true) (f : Nat) :
    s.immval4 f = s.imm ++ BitVec.ofNat 4 f := by
  rw [State.immval4, if_pos h]

theorem State.immval4_plain {s : State} (h : s.immv = false) (f : Nat) : s.immval4 f = BitVec.ofNat 16 f := by
  simp [State.immval4, h]

end Sys2Proof.Machine
end

