-- ==== Sys2Proof/Laws/Encode.lean ====
section
/-! SUPPORT. The fields of an encoded word of each format, and what the decoder makes of it. -/

namespace Sys2Proof

@[simp] theorem regBits_toNat (r : Reg) : (regBits r).toNat = r.val := by
  simp [regBits]

theorem fmtField_packRr (op : BitVec 5) (rd rs : Reg) : fmtField (packRr op rd rs) = 0#2 := by
  unfold packRr fmtField
  ext i hi
  simp
  grind

theorem op_packRr (op : BitVec 5) (rd rs : Reg) : (packRr op rd rs).extractLsb' 2 5 = op := by
  unfold packRr
  ext i hi
  simp
  grind

theorem rs_packRr (op : BitVec 5) (rd rs : Reg) : (packRr op rd rs).extractLsb' 8 4 = regBits rs := by
  unfold packRr
  ext i hi
  simp
  grind

theorem rd_packRr (op : BitVec 5) (rd rs : Reg) : (packRr op rd rs).extractLsb' 12 4 = regBits rd := by
  unfold packRr
  ext i hi
  simp
  grind

theorem fmtField_packI8 (o : BitVec 1) (rd : Reg) (v : Int) : fmtField (packI8 o rd v) = 1#2 := by
  unfold packI8 fmtField
  ext i hi
  simp
  grind

theorem imm8_packI8 (o : BitVec 1) (rd : Reg) (v : Int) : (packI8 o rd v).extractLsb' 4 8 = BitVec.ofInt 8 v := by
  unfold packI8
  ext i hi
  simp
  grind

theorem rd_packI8 (o : BitVec 1) (rd : Reg) (v : Int) : (packI8 o rd v).extractLsb' 12 4 = regBits rd := by
  unfold packI8
  ext i hi
  simp
  grind

theorem fmtField_packI11 (o : BitVec 1) (v : Int) : fmtField (packI11 o v) = 1#2 := by
  unfold packI11 fmtField
  ext i hi
  interval_cases i <;> grind

theorem imm11_packI11 (o : BitVec 1) (v : Int) : (packI11 o v).extractLsb' 5 11 = BitVec.ofInt 11 v := by
  unfold packI11
  ext i hi
  simp
  grind

theorem fmtField_packI12 (v : BitVec 12) : fmtField (packI12 v) = 1#2 := by
  unfold packI12 fmtField
  ext i hi
  interval_cases i <;> grind

theorem imm12_packI12 (v : BitVec 12) : (packI12 v).extractLsb' 4 12 = v := by
  unfold packI12
  ext i hi
  simp
  grind

theorem fmtField_packLs (op : BitVec 2) (rd rs : Reg) (v : Nat) : fmtField (packLs op rd rs v) = 2#2 := by
  unfold packLs fmtField
  ext i hi
  simp
  grind

theorem op_packLs (op : BitVec 2) (rd rs : Reg) (v : Nat) : (packLs op rd rs v).extractLsb' 2 2 = op := by
  unfold packLs
  ext i hi
  simp
  grind

theorem imm4_packLs (op : BitVec 2) (rd rs : Reg) (v : Nat) : (packLs op rd rs v).extractLsb' 4 4 = BitVec.ofNat 4 v := by
  unfold packLs
  ext i hi
  simp
  grind

theorem rs_packLs (op : BitVec 2) (rd rs : Reg) (v : Nat) : (packLs op rd rs v).extractLsb' 8 4 = regBits rs := by
  unfold packLs
  ext i hi
  simp
  grind

theorem rd_packLs (op : BitVec 2) (rd rs : Reg) (v : Nat) : (packLs op rd rs v).extractLsb' 12 4 = regBits rd := by
  unfold packLs
  ext i hi
  simp
  grind

theorem fmtField_packRi6 (op : BitVec 4) (rd : Reg) (v : Int) : fmtField (packRi6 op rd v) = 3#2 := by
  unfold packRi6 fmtField
  ext i hi
  simp
  grind

theorem op_packRi6 (op : BitVec 4) (rd : Reg) (v : Int) : (packRi6 op rd v).extractLsb' 2 4 = op := by
  unfold packRi6
  ext i hi
  simp
  grind

theorem imm6_packRi6 (op : BitVec 4) (rd : Reg) (v : Int) : (packRi6 op rd v).extractLsb' 6 6 = BitVec.ofInt 6 v := by
  unfold packRi6
  ext i hi
  simp
  grind

theorem rd_packRi6 (op : BitVec 4) (rd : Reg) (v : Int) : (packRi6 op rd v).extractLsb' 12 4 = regBits rd := by
  unfold packRi6
  ext i hi
  simp
  grind

theorem bit2_packI8 (o : BitVec 1) (rd : Reg) (v : Int) : (packI8 o rd v)[2] = false := by
  unfold packI8
  grind

theorem bit3_packI8 (o : BitVec 1) (rd : Reg) (v : Int) : (packI8 o rd v)[3] = o[0] := by
  unfold packI8
  grind

theorem bit2_packI11 (o : BitVec 1) (v : Int) : (packI11 o v)[2] = true := by
  unfold packI11
  grind

theorem bit3_packI11 (o : BitVec 1) (v : Int) : (packI11 o v)[3] = false := by
  unfold packI11
  grind

theorem bit4_packI11 (o : BitVec 1) (v : Int) : (packI11 o v)[4] = o[0] := by
  unfold packI11
  grind

theorem bit2_packI12 (v : BitVec 12) : (packI12 v)[2] = true := by
  unfold packI12
  grind

theorem bit3_packI12 (v : BitVec 12) : (packI12 v)[3] = true := by
  unfold packI12
  grind

/-- What the decoder makes of a word of format rr. -/
theorem decode_packRr (op : BitVec 5) (rd rs : Reg) : decode (packRr op rd rs) = decodeRr op.toNat rd rs := by
  simp [decode, fmtField_packRr, op_packRr, rdField, rsField, rs_packRr, rd_packRr]

/-- What the decoder makes of a word of format ls. -/
theorem decode_packLs (op : BitVec 2) (rd rs : Reg) (v : Nat) (hv : v ≤ 15) :
    decode (packLs op rd rs v) = decodeLs op.toNat rd rs v := by
  have h : v % 16 = v := Nat.mod_eq_of_lt (by omega)
  simp [decode, fmtField_packLs, op_packLs, rdField, rsField, rs_packLs, rd_packLs, imm4Field, imm4_packLs, h]

/-- What the decoder makes of a word of format ri6. -/
theorem decode_packRi6 (op : BitVec 4) (rd : Reg) (v : Int) (hlo : -32 ≤ v) (hhi : v ≤ 31) :
    decode (packRi6 op rd v) = decodeRi6 op.toNat rd v := by
  have h : (BitVec.ofInt 6 v).toInt = v :=
    BitVec.toInt_ofInt_eq_self (by omega) (by simpa using hlo) (by simpa using Int.lt_add_one_of_le hhi)
  simp [decode, fmtField_packRi6, op_packRi6, rdField, rd_packRi6, imm6Field, imm6_packRi6, h]

/-- What the decoder makes of a word of format i8. -/
theorem decode_packI8 (o : BitVec 1) (rd : Reg) (v : Int) (hlo : -128 ≤ v) (hhi : v ≤ 127) :
    decode (packI8 o rd v) = if o[0] then .loadcI rd v else .moveI rd v := by
  have h : (BitVec.ofInt 8 v).toInt = v :=
    BitVec.toInt_ofInt_eq_self (by omega) (by simpa using hlo) (by simpa using Int.lt_add_one_of_le hhi)
  cases ho : o[0] <;>
    simp [decode, fmtField_packI8, decodeWide, bit2_packI8, bit3_packI8, ho, rdField, rd_packI8, imm8Field, imm8_packI8, h]

/-- What the decoder makes of a word of format i11. -/
theorem decode_packI11 (o : BitVec 1) (v : Int) (hlo : -1024 ≤ v) (hhi : v ≤ 1023) :
    decode (packI11 o v) = if o[0] then .callI v else .jumpI v := by
  have h : (BitVec.ofInt 11 v).toInt = v :=
    BitVec.toInt_ofInt_eq_self (by omega) (by simpa using hlo) (by simpa using Int.lt_add_one_of_le hhi)
  cases ho : o[0] <;>
    simp [decode, fmtField_packI11, decodeWide, bit2_packI11, bit3_packI11, bit4_packI11, ho, imm11Field, imm11_packI11, h]

/-- What the decoder makes of a word of format i12. -/
theorem decode_packI12 (v : BitVec 12) : decode (packI12 v) = .imm v := by
  simp [decode, fmtField_packI12, decodeWide, bit2_packI12, bit3_packI12, imm12Field, imm12_packI12]

/-! ## The bits of an encoded word that R60 fixes -/

theorem mask_packRr (op : BitVec 5) (rd rs : Reg) : packRr op rd rs &&& 0x007F#16 = 0#9 ++ op ++ 0#2 := by
  unfold packRr
  ext i hi
  interval_cases i <;> simp <;> grind

theorem mask_packI8 (o : BitVec 1) (rd : Reg) (v : Int) : packI8 o rd v &&& 0x000F#16 = 0#12 ++ o ++ 1#3 := by
  unfold packI8
  ext i hi
  interval_cases i <;> simp <;> grind

theorem mask_packI11 (o : BitVec 1) (v : Int) : packI11 o v &&& 0x001F#16 = 0#11 ++ o ++ 5#4 := by
  unfold packI11
  ext i hi
  interval_cases i <;> simp <;> grind

theorem mask_packI12 (v : BitVec 12) : packI12 v &&& 0x000F#16 = 0x000D#16 := by
  unfold packI12
  ext i hi
  interval_cases i <;> simp <;> grind

theorem mask_packLs (op : BitVec 2) (rd rs : Reg) (v : Nat) : packLs op rd rs v &&& 0x000F#16 = 0#12 ++ op ++ 2#2 := by
  unfold packLs
  ext i hi
  interval_cases i <;> simp <;> grind

theorem mask_packRi6 (op : BitVec 4) (rd : Reg) (v : Int) : packRi6 op rd v &&& 0x003F#16 = 0#10 ++ op ++ 3#2 := by
  unfold packRi6
  ext i hi
  interval_cases i <;> simp <;> grind

end Sys2Proof
end

