-- ==== Sys2Proof/Laws/State.lean ====
section
/-! SUPPORT. One lemma per field per update of the state, and the registers, program counters and memory reads after each
update, so that no later proof unfolds a record update. -/

namespace Sys2Proof.Machine

variable (s : State)

/-! ## Plain fields -/

@[simp] theorem State.setBank_cfg (m : Mode) (b : Bank) : (s.setBank m b).cfg = s.cfg := rfl
@[simp] theorem State.setBank_k (m : Mode) (b : Bank) : (s.setBank m b).k = s.k := rfl
@[simp] theorem State.setBank_skip (m : Mode) (b : Bank) : (s.setBank m b).skip = s.skip := rfl
@[simp] theorem State.setBank_c (m : Mode) (b : Bank) : (s.setBank m b).c = s.c := rfl
@[simp] theorem State.setBank_uc (m : Mode) (b : Bank) : (s.setBank m b).uc = s.uc := rfl
@[simp] theorem State.setBank_imm (m : Mode) (b : Bank) : (s.setBank m b).imm = s.imm := rfl
@[simp] theorem State.setBank_immv (m : Mode) (b : Bank) : (s.setBank m b).immv = s.immv := rfl
@[simp] theorem State.setBank_ie (m : Mode) (b : Bank) : (s.setBank m b).ie = s.ie := rfl
@[simp] theorem State.setBank_halt (m : Mode) (b : Bank) : (s.setBank m b).halt = s.halt := rfl
@[simp] theorem State.setBank_error (m : Mode) (b : Bank) : (s.setBank m b).error = s.error := rfl
@[simp] theorem State.setBank_mem (m : Mode) (b : Bank) : (s.setBank m b).mem = s.mem := rfl
@[simp] theorem State.setBank_memw (m : Mode) (b : Bank) : (s.setBank m b).memw = s.memw := rfl
@[simp] theorem State.setBank_pmem (m : Mode) (b : Bank) : (s.setBank m b).pmem = s.pmem := rfl
@[simp] theorem State.setBank_inputs (m : Mode) (b : Bank) : (s.setBank m b).inputs = s.inputs := rfl
@[simp] theorem State.setBank_epoch (m : Mode) (b : Bank) : (s.setBank m b).epoch = s.epoch := rfl
@[simp] theorem State.setReg_cfg (i : Reg) (v : Word) : (s.setReg i v).cfg = s.cfg := rfl
@[simp] theorem State.setReg_k (i : Reg) (v : Word) : (s.setReg i v).k = s.k := rfl
@[simp] theorem State.setReg_skip (i : Reg) (v : Word) : (s.setReg i v).skip = s.skip := rfl
@[simp] theorem State.setReg_c (i : Reg) (v : Word) : (s.setReg i v).c = s.c := rfl
@[simp] theorem State.setReg_uc (i : Reg) (v : Word) : (s.setReg i v).uc = s.uc := rfl
@[simp] theorem State.setReg_imm (i : Reg) (v : Word) : (s.setReg i v).imm = s.imm := rfl
@[simp] theorem State.setReg_immv (i : Reg) (v : Word) : (s.setReg i v).immv = s.immv := rfl
@[simp] theorem State.setReg_ie (i : Reg) (v : Word) : (s.setReg i v).ie = s.ie := rfl
@[simp] theorem State.setReg_halt (i : Reg) (v : Word) : (s.setReg i v).halt = s.halt := rfl
@[simp] theorem State.setReg_error (i : Reg) (v : Word) : (s.setReg i v).error = s.error := rfl
@[simp] theorem State.setReg_mem (i : Reg) (v : Word) : (s.setReg i v).mem = s.mem := rfl
@[simp] theorem State.setReg_memw (i : Reg) (v : Word) : (s.setReg i v).memw = s.memw := rfl
@[simp] theorem State.setReg_pmem (i : Reg) (v : Word) : (s.setReg i v).pmem = s.pmem := rfl
@[simp] theorem State.setReg_inputs (i : Reg) (v : Word) : (s.setReg i v).inputs = s.inputs := rfl
@[simp] theorem State.setReg_epoch (i : Reg) (v : Word) : (s.setReg i v).epoch = s.epoch := rfl
@[simp] theorem State.setPc_cfg (t : Word) : (s.setPc t).cfg = s.cfg := rfl
@[simp] theorem State.setPc_k (t : Word) : (s.setPc t).k = s.k := rfl
@[simp] theorem State.setPc_skip (t : Word) : (s.setPc t).skip = s.skip := rfl
@[simp] theorem State.setPc_c (t : Word) : (s.setPc t).c = s.c := rfl
@[simp] theorem State.setPc_uc (t : Word) : (s.setPc t).uc = s.uc := rfl
@[simp] theorem State.setPc_imm (t : Word) : (s.setPc t).imm = s.imm := rfl
@[simp] theorem State.setPc_immv (t : Word) : (s.setPc t).immv = s.immv := rfl
@[simp] theorem State.setPc_ie (t : Word) : (s.setPc t).ie = s.ie := rfl
@[simp] theorem State.setPc_halt (t : Word) : (s.setPc t).halt = s.halt := rfl
@[simp] theorem State.setPc_error (t : Word) : (s.setPc t).error = s.error := rfl
@[simp] theorem State.setPc_mem (t : Word) : (s.setPc t).mem = s.mem := rfl
@[simp] theorem State.setPc_memw (t : Word) : (s.setPc t).memw = s.memw := rfl
@[simp] theorem State.setPc_pmem (t : Word) : (s.setPc t).pmem = s.pmem := rfl
@[simp] theorem State.setPc_inputs (t : Word) : (s.setPc t).inputs = s.inputs := rfl
@[simp] theorem State.setPc_epoch (t : Word) : (s.setPc t).epoch = s.epoch := rfl
@[simp] theorem State.advance_cfg : (s.advance).cfg = s.cfg := rfl
@[simp] theorem State.advance_k : (s.advance).k = s.k := rfl
@[simp] theorem State.advance_skip : (s.advance).skip = s.skip := rfl
@[simp] theorem State.advance_c : (s.advance).c = s.c := rfl
@[simp] theorem State.advance_uc : (s.advance).uc = s.uc := rfl
@[simp] theorem State.advance_imm : (s.advance).imm = s.imm := rfl
@[simp] theorem State.advance_immv : (s.advance).immv = s.immv := rfl
@[simp] theorem State.advance_ie : (s.advance).ie = s.ie := rfl
@[simp] theorem State.advance_halt : (s.advance).halt = s.halt := rfl
@[simp] theorem State.advance_error : (s.advance).error = s.error := rfl
@[simp] theorem State.advance_mem : (s.advance).mem = s.mem := rfl
@[simp] theorem State.advance_memw : (s.advance).memw = s.memw := rfl
@[simp] theorem State.advance_pmem : (s.advance).pmem = s.pmem := rfl
@[simp] theorem State.advance_inputs : (s.advance).inputs = s.inputs := rfl
@[simp] theorem State.advance_epoch : (s.advance).epoch = s.epoch := rfl
@[simp] theorem State.setByte_cfg (a : Word) (v : Byte) : (s.setByte a v).cfg = s.cfg := rfl
@[simp] theorem State.setByte_k (a : Word) (v : Byte) : (s.setByte a v).k = s.k := rfl
@[simp] theorem State.setByte_skip (a : Word) (v : Byte) : (s.setByte a v).skip = s.skip := rfl
@[simp] theorem State.setByte_c (a : Word) (v : Byte) : (s.setByte a v).c = s.c := rfl
@[simp] theorem State.setByte_uc (a : Word) (v : Byte) : (s.setByte a v).uc = s.uc := rfl
@[simp] theorem State.setByte_imm (a : Word) (v : Byte) : (s.setByte a v).imm = s.imm := rfl
@[simp] theorem State.setByte_immv (a : Word) (v : Byte) : (s.setByte a v).immv = s.immv := rfl
@[simp] theorem State.setByte_ie (a : Word) (v : Byte) : (s.setByte a v).ie = s.ie := rfl
@[simp] theorem State.setByte_halt (a : Word) (v : Byte) : (s.setByte a v).halt = s.halt := rfl
@[simp] theorem State.setByte_error (a : Word) (v : Byte) : (s.setByte a v).error = s.error := rfl
@[simp] theorem State.setByte_mem (a : Word) (v : Byte) : (s.setByte a v).mem = Cells.write s.mem a.toNat v := rfl
@[simp] theorem State.setByte_memw (a : Word) (v : Byte) : (s.setByte a v).memw = s.memw := rfl
@[simp] theorem State.setByte_pmem (a : Word) (v : Byte) : (s.setByte a v).pmem = s.pmem := rfl
@[simp] theorem State.setByte_inputs (a : Word) (v : Byte) : (s.setByte a v).inputs = s.inputs := rfl
@[simp] theorem State.setByte_epoch (a : Word) (v : Byte) : (s.setByte a v).epoch = s.epoch := rfl
@[simp] theorem State.setIndexedWord_cfg (a v : Word) : (s.setIndexedWord a v).cfg = s.cfg := rfl
@[simp] theorem State.setIndexedWord_k (a v : Word) : (s.setIndexedWord a v).k = s.k := rfl
@[simp] theorem State.setIndexedWord_skip (a v : Word) : (s.setIndexedWord a v).skip = s.skip := rfl
@[simp] theorem State.setIndexedWord_c (a v : Word) : (s.setIndexedWord a v).c = s.c := rfl
@[simp] theorem State.setIndexedWord_uc (a v : Word) : (s.setIndexedWord a v).uc = s.uc := rfl
@[simp] theorem State.setIndexedWord_imm (a v : Word) : (s.setIndexedWord a v).imm = s.imm := rfl
@[simp] theorem State.setIndexedWord_immv (a v : Word) : (s.setIndexedWord a v).immv = s.immv := rfl
@[simp] theorem State.setIndexedWord_ie (a v : Word) : (s.setIndexedWord a v).ie = s.ie := rfl
@[simp] theorem State.setIndexedWord_halt (a v : Word) : (s.setIndexedWord a v).halt = s.halt := rfl
@[simp] theorem State.setIndexedWord_error (a v : Word) : (s.setIndexedWord a v).error = s.error := rfl
@[simp] theorem State.setIndexedWord_mem (a v : Word) : (s.setIndexedWord a v).mem = s.mem := rfl
@[simp] theorem State.setIndexedWord_memw (a v : Word) : (s.setIndexedWord a v).memw = Cells.write s.memw a.toNat v := rfl
@[simp] theorem State.setIndexedWord_pmem (a v : Word) : (s.setIndexedWord a v).pmem = s.pmem := rfl
@[simp] theorem State.setIndexedWord_inputs (a v : Word) : (s.setIndexedWord a v).inputs = s.inputs := rfl
@[simp] theorem State.setIndexedWord_epoch (a v : Word) : (s.setIndexedWord a v).epoch = s.epoch := rfl
@[simp] theorem State.clearPrefix_cfg : (s.clearPrefix).cfg = s.cfg := rfl
@[simp] theorem State.clearPrefix_k : (s.clearPrefix).k = s.k := rfl
@[simp] theorem State.clearPrefix_skip : (s.clearPrefix).skip = s.skip := rfl
@[simp] theorem State.clearPrefix_c : (s.clearPrefix).c = false := rfl
@[simp] theorem State.clearPrefix_uc : (s.clearPrefix).uc = false := rfl
@[simp] theorem State.clearPrefix_imm : (s.clearPrefix).imm = s.imm := rfl
@[simp] theorem State.clearPrefix_immv : (s.clearPrefix).immv = false := rfl
@[simp] theorem State.clearPrefix_ie : (s.clearPrefix).ie = s.ie := rfl
@[simp] theorem State.clearPrefix_halt : (s.clearPrefix).halt = s.halt := rfl
@[simp] theorem State.clearPrefix_error : (s.clearPrefix).error = s.error := rfl
@[simp] theorem State.clearPrefix_mem : (s.clearPrefix).mem = s.mem := rfl
@[simp] theorem State.clearPrefix_memw : (s.clearPrefix).memw = s.memw := rfl
@[simp] theorem State.clearPrefix_pmem : (s.clearPrefix).pmem = s.pmem := rfl
@[simp] theorem State.clearPrefix_inputs : (s.clearPrefix).inputs = s.inputs := rfl
@[simp] theorem State.clearPrefix_epoch : (s.clearPrefix).epoch = s.epoch := rfl
@[simp] theorem State.finish_cfg : (s.finish).cfg = s.cfg := rfl
@[simp] theorem State.finish_k : (s.finish).k = s.k := rfl
@[simp] theorem State.finish_skip : (s.finish).skip = s.skip := rfl
@[simp] theorem State.finish_c : (s.finish).c = false := rfl
@[simp] theorem State.finish_uc : (s.finish).uc = false := rfl
@[simp] theorem State.finish_imm : (s.finish).imm = s.imm := rfl
@[simp] theorem State.finish_immv : (s.finish).immv = false := rfl
@[simp] theorem State.finish_ie : (s.finish).ie = s.ie := rfl
@[simp] theorem State.finish_halt : (s.finish).halt = s.halt := rfl
@[simp] theorem State.finish_error : (s.finish).error = s.error := rfl
@[simp] theorem State.finish_mem : (s.finish).mem = s.mem := rfl
@[simp] theorem State.finish_memw : (s.finish).memw = s.memw := rfl
@[simp] theorem State.finish_pmem : (s.finish).pmem = s.pmem := rfl
@[simp] theorem State.finish_inputs : (s.finish).inputs = s.inputs := rfl
@[simp] theorem State.finish_epoch : (s.finish).epoch = s.epoch := rfl
@[simp] theorem State.finishAt_cfg (t : Word) : (s.finishAt t).cfg = s.cfg := rfl
@[simp] theorem State.finishAt_k (t : Word) : (s.finishAt t).k = s.k := rfl
@[simp] theorem State.finishAt_skip (t : Word) : (s.finishAt t).skip = s.skip := rfl
@[simp] theorem State.finishAt_c (t : Word) : (s.finishAt t).c = false := rfl
@[simp] theorem State.finishAt_uc (t : Word) : (s.finishAt t).uc = false := rfl
@[simp] theorem State.finishAt_imm (t : Word) : (s.finishAt t).imm = s.imm := rfl
@[simp] theorem State.finishAt_immv (t : Word) : (s.finishAt t).immv = false := rfl
@[simp] theorem State.finishAt_ie (t : Word) : (s.finishAt t).ie = s.ie := rfl
@[simp] theorem State.finishAt_halt (t : Word) : (s.finishAt t).halt = s.halt := rfl
@[simp] theorem State.finishAt_error (t : Word) : (s.finishAt t).error = s.error := rfl
@[simp] theorem State.finishAt_mem (t : Word) : (s.finishAt t).mem = s.mem := rfl
@[simp] theorem State.finishAt_memw (t : Word) : (s.finishAt t).memw = s.memw := rfl
@[simp] theorem State.finishAt_pmem (t : Word) : (s.finishAt t).pmem = s.pmem := rfl
@[simp] theorem State.finishAt_inputs (t : Word) : (s.finishAt t).inputs = s.inputs := rfl
@[simp] theorem State.finishAt_epoch (t : Word) : (s.finishAt t).epoch = s.epoch := rfl
@[simp] theorem State.finishCarry_cfg (x : Bool) : (s.finishCarry x).cfg = s.cfg := rfl
@[simp] theorem State.finishCarry_k (x : Bool) : (s.finishCarry x).k = s.k := rfl
@[simp] theorem State.finishCarry_skip (x : Bool) : (s.finishCarry x).skip = s.skip := rfl
@[simp] theorem State.finishCarry_c (x : Bool) : (s.finishCarry x).c = x := rfl
@[simp] theorem State.finishCarry_uc (x : Bool) : (s.finishCarry x).uc = true := rfl
@[simp] theorem State.finishCarry_imm (x : Bool) : (s.finishCarry x).imm = s.imm := rfl
@[simp] theorem State.finishCarry_immv (x : Bool) : (s.finishCarry x).immv = false := rfl
@[simp] theorem State.finishCarry_ie (x : Bool) : (s.finishCarry x).ie = s.ie := rfl
@[simp] theorem State.finishCarry_halt (x : Bool) : (s.finishCarry x).halt = s.halt := rfl
@[simp] theorem State.finishCarry_error (x : Bool) : (s.finishCarry x).error = s.error := rfl
@[simp] theorem State.finishCarry_mem (x : Bool) : (s.finishCarry x).mem = s.mem := rfl
@[simp] theorem State.finishCarry_memw (x : Bool) : (s.finishCarry x).memw = s.memw := rfl
@[simp] theorem State.finishCarry_pmem (x : Bool) : (s.finishCarry x).pmem = s.pmem := rfl
@[simp] theorem State.finishCarry_inputs (x : Bool) : (s.finishCarry x).inputs = s.inputs := rfl
@[simp] theorem State.finishCarry_epoch (x : Bool) : (s.finishCarry x).epoch = s.epoch := rfl
@[simp] theorem State.finishCompare_cfg (x : Bool) : (s.finishCompare x).cfg = s.cfg := rfl
@[simp] theorem State.finishCompare_k (x : Bool) : (s.finishCompare x).k = s.k := rfl
@[simp] theorem State.finishCompare_skip (x : Bool) : (s.finishCompare x).skip = !x := rfl
@[simp] theorem State.finishCompare_c (x : Bool) : (s.finishCompare x).c = false := rfl
@[simp] theorem State.finishCompare_uc (x : Bool) : (s.finishCompare x).uc = false := rfl
@[simp] theorem State.finishCompare_imm (x : Bool) : (s.finishCompare x).imm = s.imm := rfl
@[simp] theorem State.finishCompare_immv (x : Bool) : (s.finishCompare x).immv = false := rfl
@[simp] theorem State.finishCompare_ie (x : Bool) : (s.finishCompare x).ie = s.ie := rfl
@[simp] theorem State.finishCompare_halt (x : Bool) : (s.finishCompare x).halt = s.halt := rfl
@[simp] theorem State.finishCompare_error (x : Bool) : (s.finishCompare x).error = s.error := rfl
@[simp] theorem State.finishCompare_mem (x : Bool) : (s.finishCompare x).mem = s.mem := rfl
@[simp] theorem State.finishCompare_memw (x : Bool) : (s.finishCompare x).memw = s.memw := rfl
@[simp] theorem State.finishCompare_pmem (x : Bool) : (s.finishCompare x).pmem = s.pmem := rfl
@[simp] theorem State.finishCompare_inputs (x : Bool) : (s.finishCompare x).inputs = s.inputs := rfl
@[simp] theorem State.finishCompare_epoch (x : Bool) : (s.finishCompare x).epoch = s.epoch := rfl
@[simp] theorem State.skipOver_cfg (i : Instr) : (s.skipOver i).cfg = s.cfg := rfl
@[simp] theorem State.skipOver_k (i : Instr) : (s.skipOver i).k = s.k := rfl
@[simp] theorem State.skipOver_skip (i : Instr) : (s.skipOver i).skip = (s.skip && i.isPrefixing) := rfl
@[simp] theorem State.skipOver_c (i : Instr) : (s.skipOver i).c = s.c := rfl
@[simp] theorem State.skipOver_uc (i : Instr) : (s.skipOver i).uc = s.uc := rfl
@[simp] theorem State.skipOver_imm (i : Instr) : (s.skipOver i).imm = s.imm := rfl
@[simp] theorem State.skipOver_immv (i : Instr) : (s.skipOver i).immv = s.immv := rfl
@[simp] theorem State.skipOver_ie (i : Instr) : (s.skipOver i).ie = s.ie := rfl
@[simp] theorem State.skipOver_halt (i : Instr) : (s.skipOver i).halt = s.halt := rfl
@[simp] theorem State.skipOver_error (i : Instr) : (s.skipOver i).error = s.error := rfl
@[simp] theorem State.skipOver_mem (i : Instr) : (s.skipOver i).mem = s.mem := rfl
@[simp] theorem State.skipOver_memw (i : Instr) : (s.skipOver i).memw = s.memw := rfl
@[simp] theorem State.skipOver_pmem (i : Instr) : (s.skipOver i).pmem = s.pmem := rfl
@[simp] theorem State.skipOver_inputs (i : Instr) : (s.skipOver i).inputs = s.inputs := rfl
@[simp] theorem State.skipOver_epoch (i : Instr) : (s.skipOver i).epoch = s.epoch := rfl
@[simp] theorem State.takeInterrupt_cfg : (s.takeInterrupt).cfg = s.cfg := rfl
@[simp] theorem State.takeInterrupt_k : (s.takeInterrupt).k = .kernel := rfl
@[simp] theorem State.takeInterrupt_skip : (s.takeInterrupt).skip = s.skip := rfl
@[simp] theorem State.takeInterrupt_c : (s.takeInterrupt).c = s.c := rfl
@[simp] theorem State.takeInterrupt_uc : (s.takeInterrupt).uc = s.uc := rfl
@[simp] theorem State.takeInterrupt_imm : (s.takeInterrupt).imm = s.imm := rfl
@[simp] theorem State.takeInterrupt_immv : (s.takeInterrupt).immv = s.immv := rfl
@[simp] theorem State.takeInterrupt_ie : (s.takeInterrupt).ie = s.ie := rfl
@[simp] theorem State.takeInterrupt_halt : (s.takeInterrupt).halt = s.halt := rfl
@[simp] theorem State.takeInterrupt_error : (s.takeInterrupt).error = s.error := rfl
@[simp] theorem State.takeInterrupt_mem : (s.takeInterrupt).mem = s.mem := rfl
@[simp] theorem State.takeInterrupt_memw : (s.takeInterrupt).memw = s.memw := rfl
@[simp] theorem State.takeInterrupt_pmem : (s.takeInterrupt).pmem = s.pmem := rfl
@[simp] theorem State.takeInterrupt_inputs : (s.takeInterrupt).inputs = s.inputs := rfl
@[simp] theorem State.takeInterrupt_epoch : (s.takeInterrupt).epoch = s.epoch := rfl
@[simp] theorem State.switchMode_cfg : (s.switchMode).cfg = s.cfg := rfl
@[simp] theorem State.switchMode_k : (s.switchMode).k = otherMode s.k := rfl
@[simp] theorem State.switchMode_skip : (s.switchMode).skip = s.skip := rfl
@[simp] theorem State.switchMode_c : (s.switchMode).c = false := rfl
@[simp] theorem State.switchMode_uc : (s.switchMode).uc = false := rfl
@[simp] theorem State.switchMode_imm : (s.switchMode).imm = s.imm := rfl
@[simp] theorem State.switchMode_immv : (s.switchMode).immv = false := rfl
@[simp] theorem State.switchMode_ie : (s.switchMode).ie = s.ie := rfl
@[simp] theorem State.switchMode_halt : (s.switchMode).halt = s.halt := rfl
@[simp] theorem State.switchMode_error : (s.switchMode).error = s.error := rfl
@[simp] theorem State.switchMode_mem : (s.switchMode).mem = s.mem := rfl
@[simp] theorem State.switchMode_memw : (s.switchMode).memw = s.memw := rfl
@[simp] theorem State.switchMode_pmem : (s.switchMode).pmem = s.pmem := rfl
@[simp] theorem State.switchMode_inputs : (s.switchMode).inputs = s.inputs := rfl
@[simp] theorem State.switchMode_epoch : (s.switchMode).epoch = s.epoch := rfl
@[simp] theorem State.tick_cfg : (s.tick).cfg = s.cfg := rfl
@[simp] theorem State.tick_k : (s.tick).k = s.k := rfl
@[simp] theorem State.tick_skip : (s.tick).skip = s.skip := rfl
@[simp] theorem State.tick_c : (s.tick).c = s.c := rfl
@[simp] theorem State.tick_uc : (s.tick).uc = s.uc := rfl
@[simp] theorem State.tick_imm : (s.tick).imm = s.imm := rfl
@[simp] theorem State.tick_immv : (s.tick).immv = s.immv := rfl
@[simp] theorem State.tick_ie : (s.tick).ie = s.ie := rfl
@[simp] theorem State.tick_halt : (s.tick).halt = s.halt := rfl
@[simp] theorem State.tick_error : (s.tick).error = s.error := rfl
@[simp] theorem State.tick_mem : (s.tick).mem = s.mem := rfl
@[simp] theorem State.tick_memw : (s.tick).memw = s.memw := rfl
@[simp] theorem State.tick_pmem : (s.tick).pmem = s.pmem := rfl
@[simp] theorem State.tick_inputs : (s.tick).inputs = s.inputs.tail := rfl
@[simp] theorem State.tick_epoch : (s.tick).epoch = s.epoch := rfl

/-! ## Banks -/

@[simp] theorem otherMode_ne (m : Mode) : otherMode m ≠ m := by cases m <;> decide

@[simp] theorem ne_otherMode (m : Mode) : m ≠ otherMode m := by cases m <;> decide

@[simp] theorem otherMode_otherMode (m : Mode) : otherMode (otherMode m) = m := by cases m <;> rfl

theorem eq_otherMode_of_ne {m n : Mode} (h : m ≠ n) : m = otherMode n := by
  cases m <;> cases n <;> first | rfl | exact absurd rfl h

theorem State.bank_setBank (m n : Mode) (b : Bank) : (s.setBank m b).bank n = if n = m then b else s.bank n := by
  cases m <;> cases n <;> rfl

@[simp] theorem State.bank_setBank_same (m : Mode) (b : Bank) : (s.setBank m b).bank m = b := by cases m <;> rfl

theorem State.bank_setBank_of_ne {m n : Mode} (h : n ≠ m) (b : Bank) : (s.setBank m b).bank n = s.bank n := by
  simp [State.bank_setBank, h]

/-- A register write changes one register of the active bank. -/
theorem State.regOf_setReg (i j : Reg) (v : Word) (m : Mode) :
    (s.setReg i v).regOf m j = if m = s.k ∧ j = i then v else s.regOf m j := by
  simp only [State.regOf, State.setReg, State.bank_setBank]
  by_cases hm : m = s.k
  · subst hm
    simp [Vector.getElem_set, Fin.ext_iff, eq_comm]
  · simp [hm]

@[simp] theorem State.pcOf_setReg (i : Reg) (v : Word) (m : Mode) : (s.setReg i v).pcOf m = s.pcOf m := by
  by_cases hm : m = s.k <;> simp [State.pcOf, State.setReg, State.bank_setBank, hm]

@[simp] theorem State.regOf_setPc (t : Word) (m : Mode) (i : Reg) : (s.setPc t).regOf m i = s.regOf m i := by
  by_cases hm : m = s.k <;> simp [State.regOf, State.setPc, State.bank_setBank, hm]

/-- A pc write changes the active program counter alone. -/
theorem State.pcOf_setPc (t : Word) (m : Mode) :
    (s.setPc t).pcOf m = if m = s.k then pcBits s.cfg.pcWidth t else s.pcOf m := by
  by_cases hm : m = s.k <;> simp [State.pcOf, State.setPc, State.bank_setBank, hm]

theorem State.regOf_congr {s t : State} (hu : t.user = s.user) (hk : t.kernel = s.kernel) (m : Mode) (i : Reg) :
    t.regOf m i = s.regOf m i := by
  cases m <;> simp [State.regOf, State.bank, hu, hk]

theorem State.pcOf_congr {s t : State} (hu : t.user = s.user) (hk : t.kernel = s.kernel) (m : Mode) :
    t.pcOf m = s.pcOf m := by
  cases m <;> simp [State.pcOf, State.bank, hu, hk]

@[simp] theorem State.regOf_setByte (a : Word) (v : Byte) (m : Mode) (i : Reg) : (s.setByte a v).regOf m i = s.regOf m i := by
  cases m <;> rfl

@[simp] theorem State.pcOf_setByte (a : Word) (v : Byte) (m : Mode) : (s.setByte a v).pcOf m = s.pcOf m := by
  cases m <;> rfl

@[simp] theorem State.regOf_setIndexedWord (a v : Word) (m : Mode) (i : Reg) : (s.setIndexedWord a v).regOf m i = s.regOf m i := by
  cases m <;> rfl

@[simp] theorem State.pcOf_setIndexedWord (a v : Word) (m : Mode) : (s.setIndexedWord a v).pcOf m = s.pcOf m := by
  cases m <;> rfl

@[simp] theorem State.regOf_clearPrefix (m : Mode) (i : Reg) : (s.clearPrefix).regOf m i = s.regOf m i := by
  cases m <;> rfl

@[simp] theorem State.pcOf_clearPrefix (m : Mode) : (s.clearPrefix).pcOf m = s.pcOf m := by
  cases m <;> rfl

@[simp] theorem State.regOf_takeInterrupt (m : Mode) (i : Reg) : (s.takeInterrupt).regOf m i = s.regOf m i := by
  cases m <;> rfl

@[simp] theorem State.pcOf_takeInterrupt (m : Mode) : (s.takeInterrupt).pcOf m = s.pcOf m := by
  cases m <;> rfl

@[simp] theorem State.regOf_tick (m : Mode) (i : Reg) : (s.tick).regOf m i = s.regOf m i := by
  cases m <;> rfl

@[simp] theorem State.pcOf_tick (m : Mode) : (s.tick).pcOf m = s.pcOf m := by
  cases m <;> rfl

@[simp] theorem State.regOf_advance (m : Mode) (i : Reg) : (s.advance).regOf m i = s.regOf m i :=
  State.regOf_setPc _ _ m i

theorem State.pcOf_advance (m : Mode) :
    (s.advance).pcOf m = if m = s.k then pcBits s.cfg.pcWidth (s.pc + 1) else s.pcOf m :=
  State.pcOf_setPc _ _ m

@[simp] theorem State.regOf_finish (m : Mode) (i : Reg) : (s.finish).regOf m i = s.regOf m i :=
  State.regOf_setPc _ _ m i

theorem State.pcOf_finish (m : Mode) :
    (s.finish).pcOf m = if m = s.k then pcBits s.cfg.pcWidth (s.pc + 1) else s.pcOf m :=
  State.pcOf_setPc _ _ m

@[simp] theorem State.regOf_finishAt (t : Word) (m : Mode) (i : Reg) : (s.finishAt t).regOf m i = s.regOf m i :=
  State.regOf_setPc _ _ m i

theorem State.pcOf_finishAt (t : Word) (m : Mode) :
    (s.finishAt t).pcOf m = if m = s.k then pcBits s.cfg.pcWidth t else s.pcOf m :=
  State.pcOf_setPc _ _ m

@[simp] theorem State.regOf_finishCarry (x : Bool) (m : Mode) (i : Reg) : (s.finishCarry x).regOf m i = s.regOf m i :=
  State.regOf_setPc _ _ m i

theorem State.pcOf_finishCarry (x : Bool) (m : Mode) :
    (s.finishCarry x).pcOf m = if m = s.k then pcBits s.cfg.pcWidth (s.pc + 1) else s.pcOf m :=
  State.pcOf_setPc _ _ m

@[simp] theorem State.regOf_finishCompare (x : Bool) (m : Mode) (i : Reg) : (s.finishCompare x).regOf m i = s.regOf m i :=
  State.regOf_setPc _ _ m i

theorem State.pcOf_finishCompare (x : Bool) (m : Mode) :
    (s.finishCompare x).pcOf m = if m = s.k then pcBits s.cfg.pcWidth (s.pc + 1) else s.pcOf m :=
  State.pcOf_setPc _ _ m

@[simp] theorem State.regOf_skipOver (j : Instr) (m : Mode) (i : Reg) : (s.skipOver j).regOf m i = s.regOf m i :=
  State.regOf_setPc _ _ m i

theorem State.pcOf_skipOver (j : Instr) (m : Mode) :
    (s.skipOver j).pcOf m = if m = s.k then pcBits s.cfg.pcWidth (s.pc + 1) else s.pcOf m :=
  State.pcOf_setPc _ _ m

@[simp] theorem State.regOf_switchMode (m : Mode) (i : Reg) : (s.switchMode).regOf m i = s.regOf m i :=
  State.regOf_setPc _ _ m i

theorem State.pcOf_switchMode (m : Mode) :
    (s.switchMode).pcOf m = if m = s.k then pcBits s.cfg.pcWidth (s.pc + 1) else s.pcOf m :=
  State.pcOf_setPc _ _ m


/-! ## The bits of a program counter -/

theorem pcBits_toNat (n : Nat) (v : Word) : (pcBits n v).toNat = v.toNat % 2 ^ n := by
  rw [pcBits, BitVec.toNat_ofNat]
  exact Nat.mod_eq_of_lt (Nat.lt_of_le_of_lt (Nat.mod_le _ _) v.isLt)

/-- A counter keeps what it holds. -/
@[simp] theorem pcBits_pcBits (n : Nat) (v : Word) : pcBits n (pcBits n v) = pcBits n v := by
  apply BitVec.eq_of_toNat_eq
  simp [pcBits_toNat]

/-- At 16 bits, and at any more, a counter holds a word whole. -/
theorem pcBits_of_ge {n : Nat} (h : 16 ≤ n) (v : Word) : pcBits n v = v := by
  apply BitVec.eq_of_toNat_eq
  rw [pcBits_toNat]
  exact Nat.mod_eq_of_lt (Nat.lt_of_lt_of_le v.isLt (Nat.pow_le_pow_right (by decide) h))

/-- Counting on from what a counter holds is counting on from the word written to it. -/
theorem pcBits_add_pcBits (n : Nat) (v d : Word) : pcBits n (pcBits n v + d) = pcBits n (v + d) := by
  by_cases h : 16 ≤ n
  · rw [pcBits_of_ge h, pcBits_of_ge h, pcBits_of_ge h]
  · have hd : 2 ^ n ∣ 65536 := by
      have := pow_dvd_pow 2 (by omega : n ≤ 16)
      simpa using this
    apply BitVec.eq_of_toNat_eq
    simp only [pcBits_toNat, BitVec.toNat_add, Nat.reducePow, Nat.mod_mod_of_dvd _ hd, Nat.mod_add_mod]

/-- Writing the pc keeps both program counters within their bits. -/
theorem State.setPc_fits {s : State} (t : Word) (h : ∀ m, pcBits s.cfg.pcWidth (s.pcOf m) = s.pcOf m) (m : Mode) :
    pcBits s.cfg.pcWidth ((s.setPc t).pcOf m) = (s.setPc t).pcOf m := by
  rw [State.pcOf_setPc]
  split
  · exact pcBits_pcBits _ _
  · exact h m

/-! ## Memory reads depend on the memory and the epoch alone -/

theorem State.byteAt_congr {s t : State} (hm : t.mem = s.mem) (he : t.epoch = s.epoch) (a : Word) :
    t.byteAt a = s.byteAt a := by
  simp [State.byteAt, hm, he]

theorem State.indexedWordAt_congr {s t : State} (hm : t.memw = s.memw) (he : t.epoch = s.epoch) (a : Word) :
    t.indexedWordAt a = s.indexedWordAt a := by
  simp [State.indexedWordAt, hm, he]

theorem State.programWordAt_congr {s t : State} (hp : t.pmem = s.pmem) (a : Word) :
    t.programWordAt a = s.programWordAt a := by
  simp [State.programWordAt, hp]

end Sys2Proof.Machine
end

