-- ==== Sys2Proof/Laws/Memory.lean ====
section
/-! SUPPORT. The laws of the memories: a read after a write, other addresses, and that every memory operation keeps the
canonical form. -/

namespace Sys2Proof.Machine

/-! ## Association lists -/

@[simp] theorem Cells.read?_write_same {α : Type} (m : List (Nat × α)) (a : Nat) (v : α) :
    Cells.read? (Cells.write m a v) a = some v := by
  induction m with
  | nil => simp [Cells.write, Cells.read?]
  | cons c rest ih =>
    obtain ⟨k, w⟩ := c
    simp only [Cells.write]
    split
    · simp [Cells.read?]
    · split
      · simp [Cells.read?]
      · rename_i hlt hne
        simp [Cells.read?, hne, ih]

theorem Cells.read?_write_of_ne {α : Type} (m : List (Nat × α)) {a b : Nat} (v : α) (h : b ≠ a) :
    Cells.read? (Cells.write m a v) b = Cells.read? m b := by
  induction m with
  | nil => simp [Cells.write, Cells.read?, h]
  | cons c rest ih =>
    obtain ⟨k, w⟩ := c
    simp only [Cells.write]
    split
    · simp [Cells.read?, h]
    · split
      · rename_i hlt hk
        subst hk
        simp [Cells.read?, h]
      · simp [Cells.read?, ih]

theorem Cells.wfFrom_write {α : Type} {size : Nat} (m : List (Nat × α)) {lo a : Nat} (v : α)
    (hm : Cells.wfFrom size lo m = true) (hlo : lo ≤ a) (ha : a < size) :
    Cells.wfFrom size lo (Cells.write m a v) = true := by
  induction m generalizing lo with
  | nil => simp [Cells.write, Cells.wfFrom, hlo, ha]
  | cons c rest ih =>
    obtain ⟨k, w⟩ := c
    simp only [Cells.wfFrom, Bool.and_eq_true, decide_eq_true_eq] at hm
    obtain ⟨⟨hk, hks⟩, hr⟩ := hm
    simp only [Cells.write]
    split
    · rename_i hlt
      simp [Cells.wfFrom, hlo, ha, hks, hr, Nat.succ_le_of_lt hlt]
    · split
      · rename_i _ he
        subst he
        simp [Cells.wfFrom, hlo, ha, hr]
      · rename_i hlt hne
        simp [Cells.wfFrom, hk, hks, ih hr (by omega)]

/-- Writing at a 16-bit address keeps the canonical form. -/
theorem Cells.wf_write {α : Type} (m : List (Nat × α)) (a : Word) (v : α) (hm : Cells.wf m = true) :
    Cells.wf (Cells.write m a.toNat v) = true :=
  Cells.wfFrom_write m v hm (Nat.zero_le _) a.isLt

/-! ## Memory operations keep the canonical form -/

theorem State.setByte_wf (s : State) (a : Word) (v : Byte) (h : Memory.wf s.mem = true) :
    Memory.wf (s.setByte a v).mem = true := Cells.wf_write s.mem a v h

theorem State.setIndexedWord_wf (s : State) (a v : Word) (h : WordMemory.wf s.memw = true) :
    WordMemory.wf (s.setIndexedWord a v).memw = true := Cells.wf_write s.memw a v h

/-- Everything a byte store can do. -/
theorem State.memWriteByte_ok {s t : State} {a : Word} {v : Byte} (h : s.memWriteByte a v = .ok t) :
    s.hasByte a = true ∧ t = s.setByte a v := by
  unfold State.memWriteByte at h
  split at h
  · cases h
    exact ⟨by assumption, rfl⟩
  · cases h

/-- Everything a word store can do: both bytes exist and both are written. -/
theorem State.memWriteWord_ok {s t : State} {a v : Word} (h : s.memWriteWord a v = .ok t) :
    (s.hasByte a = true ∧ s.hasByte (a + 1) = true) ∧
      t = (s.setByte a (lowerAddressByte s.cfg.byteOrder v)).setByte (a + 1) (higherAddressByte s.cfg.byteOrder v) := by
  unfold State.memWriteWord at h
  split at h
  · cases h
    rename_i hb
    exact ⟨(Bool.and_eq_true _ _).mp hb, rfl⟩
  · cases h

theorem State.memWriteByte_wf {s t : State} {a : Word} {v : Byte} (h : s.memWriteByte a v = .ok t)
    (hw : Memory.wf s.mem = true) : Memory.wf t.mem = true := by
  obtain ⟨-, rfl⟩ := State.memWriteByte_ok h
  exact State.setByte_wf s a v hw

theorem State.memWriteWord_wf {s t : State} {a v : Word} (h : s.memWriteWord a v = .ok t)
    (hw : Memory.wf s.mem = true) : Memory.wf t.mem = true := by
  obtain ⟨-, rfl⟩ := State.memWriteWord_ok h
  exact State.setByte_wf _ _ _ (State.setByte_wf s _ _ hw)

theorem State.resetWith_wf (p : Params) :
    Memory.wf (State.resetWith p).mem = true ∧ WordMemory.wf (State.resetWith p).memw = true ∧
      WordMemory.wf (State.resetWith p).pmem = true := ⟨rfl, rfl, rfl⟩

/-! ## Reads after writes -/

theorem word_toNat_ne {a b : Word} (h : b ≠ a) : b.toNat ≠ a.toNat := fun e => h (BitVec.eq_of_toNat_eq e)

/-- A byte write changes one byte. -/
theorem State.byteAt_setByte (s : State) (a b : Word) (v : Byte) :
    (s.setByte a v).byteAt b = if b = a then v else s.byteAt b := by
  by_cases h : b = a
  · simp [State.byteAt, State.setByte, h]
  · simp [State.byteAt, State.setByte, h, Cells.read?_write_of_ne _ _ (word_toNat_ne h)]

@[simp] theorem State.indexedWordAt_setByte (s : State) (a b : Word) (v : Byte) :
    (s.setByte a v).indexedWordAt b = s.indexedWordAt b := rfl

theorem State.indexedWordAt_setIndexedWord (s : State) (a b v : Word) :
    (s.setIndexedWord a v).indexedWordAt b = if b = a then v else s.indexedWordAt b := by
  by_cases h : b = a
  · simp [State.indexedWordAt, State.setIndexedWord, h]
  · simp [State.indexedWordAt, State.setIndexedWord, h, Cells.read?_write_of_ne _ _ (word_toNat_ne h)]

@[simp] theorem State.byteAt_setIndexedWord (s : State) (a b v : Word) :
    (s.setIndexedWord a v).byteAt b = s.byteAt b := rfl

/-- The two bytes of a word, put back together in the same order, are the word. -/
@[simp] theorem joinBytes_split (o : ByteOrder) (v : Word) :
    joinBytes o (lowerAddressByte o v) (higherAddressByte o v) = v := by
  cases o <;>
  · simp only [joinBytes, lowerAddressByte, higherAddressByte]
    ext i hi
    simp
    grind

end Sys2Proof.Machine
end

