-- ==== Sys2Proof/Laws/Exec.lean ====
section
/-! SUPPORT. What each shared operation and each instruction can do, said once: the shapes of a next state, and the
frames that the claims speak of. -/

namespace Sys2Proof.Machine

/-! ## Frames of the shared endings -/

theorem KeepsSetting.refl_of {s t : State} (hc : t.cfg = s.cfg) (hi : t.ie = s.ie) (hp : t.pmem = s.pmem)
    (hn : t.inputs = s.inputs) (he : t.epoch = s.epoch) : KeepsSetting s t :=
  ⟨hc, hi, fun a => State.programWordAt_congr hp a, hn, he⟩

theorem KeepsDataMemory.refl_of {s t : State} (hm : t.mem = s.mem) (hw : t.memw = s.memw) (he : t.epoch = s.epoch) :
    KeepsDataMemory s t :=
  ⟨fun a => State.byteAt_congr hm he a, fun a => State.indexedWordAt_congr hw he a⟩

/-- Writing a register and ending as a regular instruction: the whole effect. -/
theorem writes_of_writeBack {i : Instr} {s : State} {rd : Reg} {v : Word} (h : exec i s = s.writeBack rd v) :
    Writes i s rd v := by
  refine ⟨(s.setReg rd v).finish, h, ?_, ?_, ⟨rfl, rfl, rfl⟩, ⟨⟨?_, ?_⟩, ⟨rfl, rfl, rfl, rfl⟩, .refl_of rfl rfl rfl rfl rfl⟩,
    rfl, .refl_of rfl rfl rfl⟩
  · simp [State.regOf_setReg]
  · simp [State.pcOf_finish, State.pc]
  · intro m j hne
    simp only [State.regOf_finish, State.regOf_setReg, Option.some.injEq] at *
    rw [if_neg (by tauto)]
  · intro m hm
    simp [State.pcOf_finish, hm]

/-- Continuing at a target and ending as a regular instruction: the whole effect. -/
theorem jumpsTo_of_finishAt {i : Instr} {s : State} {target : Word} (h : exec i s = .next (s.finishAt target)) :
    JumpsTo i s target := by
  refine ⟨_, h, ?_, ⟨rfl, rfl, rfl⟩, ⟨⟨?_, ?_⟩, ⟨rfl, rfl, rfl, rfl⟩, .refl_of rfl rfl rfl rfl rfl⟩, rfl, .refl_of rfl rfl rfl⟩
  · simp [State.pcOf_finishAt]
  · intro m j _
    simp
  · intro m hm
    simp [State.pcOf_finishAt, hm]

/-- Setting S and ending as a regular instruction: the whole effect. -/
theorem compares_of_finishCompare {i : Instr} {s : State} {b : Bool} {p : Prop}
    (h : exec i s = .next (s.finishCompare b)) (hp : b = true ↔ p) : Compares i s p := by
  refine ⟨_, h, ?_, ?_, ⟨rfl, rfl, rfl⟩, ⟨⟨?_, ?_⟩, ⟨rfl, rfl, rfl, rfl⟩, .refl_of rfl rfl rfl rfl rfl⟩, .refl_of rfl rfl rfl⟩
  · simp [hp]
  · simp [State.pcOf_finishCompare, State.pc]
  · intro m j _
    simp
  · intro m hm
    simp [State.pcOf_finishCompare, hm]

/-- Writing a register and leaving a carry: the whole effect. -/
theorem finishCarry_effect (s : State) (rd : Reg) (v : Word) (c : Bool) :
    ((s.setReg rd v).finishCarry c).regOf s.k rd = v ∧ ((s.setReg rd v).finishCarry c).pcOf s.k = pcBits s.cfg.pcWidth (s.pcOf s.k + 1) ∧
      RegisterFrame s ((s.setReg rd v).finishCarry c) (some rd) := by
  refine ⟨?_, ?_, ⟨⟨?_, ?_⟩, ⟨rfl, rfl, rfl, rfl⟩, .refl_of rfl rfl rfl rfl rfl⟩, rfl, .refl_of rfl rfl rfl⟩
  · simp [State.regOf_setReg]
  · simp [State.pcOf_finishCarry, State.pc]
  · intro m j hne
    simp only [State.regOf_finishCarry, State.regOf_setReg, Option.some.injEq] at *
    rw [if_neg (by tauto)]
  · intro m hm
    simp [State.pcOf_finishCarry, hm]

/-- Saving the return address and continuing at a target: the whole effect. -/
theorem callTo_effect (s : State) (target : Word) :
    ∃ t, callTo target s = .next t ∧ t.pcOf s.k = pcBits s.cfg.pcWidth target ∧ t.regOf s.k 0 = s.pc + 1 ∧ PrefixCleared t ∧
      RegisterFrame s t (some 0) := by
  refine ⟨_, rfl, ?_, ?_, ⟨rfl, rfl, rfl⟩, ⟨⟨?_, ?_⟩, ⟨rfl, rfl, rfl, rfl⟩, .refl_of rfl rfl rfl rfl rfl⟩, rfl,
    .refl_of rfl rfl rfl⟩
  · simp [State.pcOf_finishAt]
  · simp [State.regOf_setReg]
  · intro m j hne
    simp only [State.regOf_finishAt, State.regOf_setReg, Option.some.injEq] at *
    rw [if_neg (by tauto)]
  · intro m hm
    simp [State.pcOf_finishAt, hm]

/-- Ending a regular instruction whose effect left the core of the machine alone. -/
theorem finish_keepsCore {s u : State} (hb : ∀ m, u.bank m = s.bank m) (hm : KeepsModeAndLines s u)
    (hs : KeepsSetting s u) : KeepsCore s u.finish none ∧ u.finish.pcOf s.k = pcBits s.cfg.pcWidth (s.pcOf s.k + 1) := by
  obtain ⟨hk, hi, hh, he⟩ := hm
  have hp : ∀ m, u.pcOf m = s.pcOf m := fun m => by simp [State.pcOf, hb]
  have hr : ∀ m i, u.regOf m i = s.regOf m i := fun m i => by simp [State.regOf, hb]
  refine ⟨⟨⟨fun m i _ => by simp [hr], fun m hne => ?_⟩, ⟨hk, hi, hh, he⟩, hs⟩, ?_⟩
  · simp [State.pcOf_finish, hk, hne, hp]
  · simp [State.pcOf_finish, State.pc, hk, hp, hs.1]

/-! ## The shapes of a next state -/

/-- What an executed instruction can make of the machine. -/
inductive ExecShape : Instr → State → State → Prop where
  | moveOn {i : Instr} {s : State} (h : i = .nop ∨ i = .nopOp9 ∨ i = .nopOp11) : ExecShape i s s.finish
  | rets {s : State} : ExecShape .rets s s.switchMode
  | halt {s : State} : ExecShape .halt s { s.clearPrefix with halt := true }
  | error {s : State} : ExecShape .error s { s.clearPrefix with error := true }
  | writeBack {i : Instr} {s : State} (rd : Reg) (v : Word)
      (h : i.isPrefixing = false ∧ i.setsPc = false ∧ i.isCompare = false) : ExecShape i s (s.setReg rd v).finish
  | carry {i : Instr} {s : State} (rd : Reg) (v : Word) (c : Bool)
      (h : (∃ a b, i = .addc a b) ∨ (∃ a b, i = .addcI a b) ∨ (∃ a b, i = .subc a b) ∨ ∃ a b, i = .subcI a b) :
      ExecShape i s ((s.setReg rd v).finishCarry c)
  | jump {i : Instr} {s : State} (target : Word)
      (h : (∃ a, i = .jump a) ∨ (∃ a, i = .jumpI a) ∨ ∃ a, i = .rcsr a) : ExecShape i s (s.finishAt target)
  | call {i : Instr} {s : State} (target : Word) (h : (∃ a, i = .call a) ∨ ∃ a, i = .callI a) :
      ExecShape i s ((s.setReg 0 (s.pc + 1)).finishAt target)
  | imm {s : State} (v : BitVec 12) (c uc : Bool)
      (hk : s.cfg.immAfterCarry = .keep → c = s.c ∧ uc = s.uc)
      (hn : s.cfg.immAfterCarry ≠ .keep → c = false ∧ uc = false) :
      ExecShape (.imm v) s { s with imm := v, immv := true, c := c, uc := uc }.advance
  | compare {i : Instr} {s : State} (b : Bool) (h : i.isCompare = true) : ExecShape i s (s.finishCompare b)
  | storeByte {i : Instr} {s : State} (a : Word) (v : Byte) (h : (∃ x y, i = .storeb x y) ∨ ∃ x y n, i = .storebI x y n) :
      ExecShape i s (s.setByte a v).finish
  | storeWord {i : Instr} {s : State} (a : Word) (v w : Byte)
      (h : (∃ x y, i = .store x y) ∨ ∃ x y n, i = .storeI x y n) :
      ExecShape i s ((s.setByte a v).setByte (a + 1) w).finish
  | storeIndexed {i : Instr} {s : State} (a v : Word) (h : (∃ x y, i = .store x y) ∨ ∃ x y n, i = .storeI x y n) :
      ExecShape i s (s.setIndexedWord a v).finish

/-- A load of a word ends as a register write, if it ends. -/
theorem loadWord_next {rd : Reg} {base off : Word} {s t : State} (h : loadWord rd base off s = .next t) :
    ∃ v, t = (s.setReg rd v).finish := by
  unfold loadWord State.writeBack at h
  split at h
  · split at h <;> cases h
    exact ⟨_, rfl⟩
  · cases h
    exact ⟨_, rfl⟩

/-- A load of a byte ends as a register write, if it ends. -/
theorem loadByte_next {rd : Reg} {base off : Word} {s t : State} (h : loadByte rd base off s = .next t) :
    ∃ v, t = (s.setReg rd v).finish := by
  unfold loadByte State.writeBack at h
  split at h
  · split at h <;> cases h
    exact ⟨_, rfl⟩
  · cases h

/-- A store of a word writes two neighbouring bytes or one indexed word, if it ends. -/
theorem storeWord_next {rd : Reg} {base off : Word} {s t : State} (h : storeWord rd base off s = .next t) :
    (∃ a v w, t = ((s.setByte a v).setByte (a + 1) w).finish) ∨ ∃ a v, t = (s.setIndexedWord a v).finish := by
  unfold storeWord at h
  split at h
  · split at h
    · rename_i hw
      cases h
      obtain ⟨-, rfl⟩ := State.memWriteWord_ok hw
      exact .inl ⟨_, _, _, rfl⟩
    · cases h
  · cases h
    exact .inr ⟨_, _, rfl⟩

/-- A store of a byte writes one byte, if it ends. -/
theorem storeByte_next {rd : Reg} {base off : Word} {s t : State} (h : storeByte rd base off s = .next t) :
    ∃ a v, t = (s.setByte a v).finish := by
  unfold storeByte at h
  split at h
  · split at h
    · rename_i hw
      cases h
      obtain ⟨-, rfl⟩ := State.memWriteByte_ok hw
      exact ⟨_, _, rfl⟩
    · cases h
  · cases h

/-- `loadc` ends as a register write, if it ends. -/
theorem loadConstant_next {rd : Reg} {a : Word} {s t : State} (h : loadConstant rd a s = .next t) :
    ∃ v, t = (s.setReg rd v).finish := by
  unfold loadConstant State.writeBack at h
  split at h
  · cases h
  · split at h <;> cases h
    exact ⟨_, rfl⟩

/-- A left shift ends as a register write, if it ends. -/
theorem shiftLeft_next {rd : Reg} {b : Word} {s t : State} (h : shiftLeft rd b s = .next t) :
    ∃ v, t = (s.setReg rd v).finish := by
  unfold shiftLeft State.writeBack at h
  split at h <;> cases h
  exact ⟨_, rfl⟩

/-- A right shift ends as a register write, if it ends. -/
theorem shiftRight_next {rd : Reg} {b : Word} {s t : State} (h : shiftRight rd b s = .next t) :
    ∃ v, t = (s.setReg rd v).finish := by
  unfold shiftRight State.writeBack at h
  split at h <;> cases h
  exact ⟨_, rfl⟩

/-- A signed right shift ends as a register write, if it ends. -/
theorem shiftRightSigned_next {rd : Reg} {b : Word} {s t : State} (h : shiftRightSigned rd b s = .next t) :
    ∃ v, t = (s.setReg rd v).finish := by
  unfold shiftRightSigned State.writeBack at h
  split at h <;> cases h
  exact ⟨_, rfl⟩

/-- `imm` writes the immediate register, and the carry as `IMM_AFTER_CARRY` says, if it ends. -/
theorem execImm_next {v : BitVec 12} {s t : State} (h : execImm v s = .next t) : ExecShape (.imm v) s t := by
  unfold execImm at h
  split at h
  · rename_i hc
    cases h
    exact .imm v false false (by simp [hc]) (fun _ => ⟨rfl, rfl⟩)
  · rename_i hc
    cases h
    exact .imm v s.c s.uc (fun _ => ⟨rfl, rfl⟩) (by simp [hc])
  · rename_i hc
    split at h
    · cases h
    · cases h
      exact .imm v false false (by simp [hc]) (fun _ => ⟨rfl, rfl⟩)

/-- An instruction whose meaning writes back a register has the shape of one. -/
theorem ExecShape.ofWriteBack {i : Instr} {s t : State} {rd : Reg}
    (hi : i.isPrefixing = false ∧ i.setsPc = false ∧ i.isCompare = false) (h : ∃ v, t = (s.setReg rd v).finish) :
    ExecShape i s t := by
  obtain ⟨v, rfl⟩ := h
  exact .writeBack rd v hi

/-- A direct register write has the shape of one. -/
theorem ExecShape.ofWriteBackEq {i : Instr} {s t : State} {rd : Reg} {v : Word}
    (hi : i.isPrefixing = false ∧ i.setsPc = false ∧ i.isCompare = false) (h : s.writeBack rd v = .next t) :
    ExecShape i s t := by
  cases h
  exact .writeBack rd v hi

/-- Everything an executed instruction can do, said once. -/
theorem exec_shape {i : Instr} {s t : State} (h : exec i s = .next t) : ExecShape i s t := by
  cases i with
  | nop => cases h; exact .moveOn (.inl rfl)
  | rets => cases h; exact .rets
  | error => cases h; exact .error
  | halt => cases h; exact .halt
  | rcsr rd =>
    simp only [exec, execRcsr] at h
    split at h <;> cases h
    exact .jump _ (.inr (.inr ⟨_, rfl⟩))
  | wcsr => cases h
  | move rd rs => exact .ofWriteBackEq ⟨rfl, rfl, rfl⟩ h
  | moveI rd v => exact .ofWriteBackEq ⟨rfl, rfl, rfl⟩ h
  | loadc rd rs => exact .ofWriteBack ⟨rfl, rfl, rfl⟩ (loadConstant_next h)
  | loadcI rd v => exact .ofWriteBack ⟨rfl, rfl, rfl⟩ (loadConstant_next h)
  | jump rd =>
    simp only [exec, execJump] at h
    split at h <;> cases h
    exact .jump _ (.inl ⟨_, rfl⟩)
  | jumpI v => cases h; exact .jump _ (.inr (.inl ⟨_, rfl⟩))
  | nopOp9 => cases h; exact .moveOn (.inr (.inl rfl))
  | nopOp11 => cases h; exact .moveOn (.inr (.inr rfl))
  | call rd =>
    simp only [exec, execCall, callTo] at h
    split at h <;> cases h
    · exact .call _ (.inl ⟨_, rfl⟩)
    · exact .call _ (.inl ⟨_, rfl⟩)
  | callI v => cases h; exact .call _ (.inr ⟨_, rfl⟩)
  | imm v => exact execImm_next h
  | load rd rs => exact .ofWriteBack ⟨rfl, rfl, rfl⟩ (loadWord_next h)
  | loadI rd rs n => exact .ofWriteBack ⟨rfl, rfl, rfl⟩ (loadWord_next h)
  | loadb rd rs => exact .ofWriteBack ⟨rfl, rfl, rfl⟩ (loadByte_next h)
  | loadbI rd rs n => exact .ofWriteBack ⟨rfl, rfl, rfl⟩ (loadByte_next h)
  | store rd rs =>
    obtain ⟨a, v, w, rfl⟩ | ⟨a, v, rfl⟩ := storeWord_next h
    · exact .storeWord a v w (.inl ⟨_, _, rfl⟩)
    · exact .storeIndexed a v (.inl ⟨_, _, rfl⟩)
  | storeI rd rs n =>
    obtain ⟨a, v, w, rfl⟩ | ⟨a, v, rfl⟩ := storeWord_next h
    · exact .storeWord a v w (.inr ⟨_, _, _, rfl⟩)
    · exact .storeIndexed a v (.inr ⟨_, _, _, rfl⟩)
  | storeb rd rs =>
    obtain ⟨a, v, rfl⟩ := storeByte_next h
    exact .storeByte a v (.inl ⟨_, _, rfl⟩)
  | storebI rd rs n =>
    obtain ⟨a, v, rfl⟩ := storeByte_next h
    exact .storeByte a v (.inr ⟨_, _, _, rfl⟩)
  | add rd rs => exact .ofWriteBackEq ⟨rfl, rfl, rfl⟩ h
  | addI rd v => exact .ofWriteBackEq ⟨rfl, rfl, rfl⟩ h
  | sub rd rs => exact .ofWriteBackEq ⟨rfl, rfl, rfl⟩ h
  | subI rd v => exact .ofWriteBackEq ⟨rfl, rfl, rfl⟩ h
  | addc rd rs => cases h; exact .carry _ _ _ (.inl ⟨_, _, rfl⟩)
  | addcI rd v => cases h; exact .carry _ _ _ (.inr (.inl ⟨_, _, rfl⟩))
  | subc rd rs => cases h; exact .carry _ _ _ (.inr (.inr (.inl ⟨_, _, rfl⟩)))
  | subcI rd v => cases h; exact .carry _ _ _ (.inr (.inr (.inr ⟨_, _, rfl⟩)))
  | xor rd rs => exact .ofWriteBackEq ⟨rfl, rfl, rfl⟩ h
  | xorI rd v => exact .ofWriteBackEq ⟨rfl, rfl, rfl⟩ h
  | and rd rs => exact .ofWriteBackEq ⟨rfl, rfl, rfl⟩ h
  | andI rd v => exact .ofWriteBackEq ⟨rfl, rfl, rfl⟩ h
  | or rd rs => exact .ofWriteBackEq ⟨rfl, rfl, rfl⟩ h
  | orI rd v => exact .ofWriteBackEq ⟨rfl, rfl, rfl⟩ h
  | shl rd rs => exact .ofWriteBack ⟨rfl, rfl, rfl⟩ (shiftLeft_next h)
  | shlI rd v => exact .ofWriteBack ⟨rfl, rfl, rfl⟩ (shiftLeft_next h)
  | shr rd rs => exact .ofWriteBack ⟨rfl, rfl, rfl⟩ (shiftRight_next h)
  | shrI rd v => exact .ofWriteBack ⟨rfl, rfl, rfl⟩ (shiftRight_next h)
  | asr rd rs => exact .ofWriteBack ⟨rfl, rfl, rfl⟩ (shiftRightSigned_next h)
  | asrI rd v => exact .ofWriteBack ⟨rfl, rfl, rfl⟩ (shiftRightSigned_next h)
  | ifEq rd rs => cases h; exact .compare _ rfl
  | ifNe rd rs => cases h; exact .compare _ rfl
  | ifLt rd rs => cases h; exact .compare _ rfl
  | ifGe rd rs => cases h; exact .compare _ rfl
  | ifUlt rd rs => cases h; exact .compare _ rfl
  | ifUge rd rs => cases h; exact .compare _ rfl
  | ifEqI rd v => cases h; exact .compare _ rfl
  | ifNeI rd v => cases h; exact .compare _ rfl
  | ifLtI rd v => cases h; exact .compare _ rfl
  | ifGeI rd v => cases h; exact .compare _ rfl
  | ifUltI rd v => cases h; exact .compare _ rfl
  | ifUgeI rd v => cases h; exact .compare _ rfl

/-! ## Steps -/

/-- When a cycle is an interrupt. -/
theorem action_interrupt {s : State} (h : s.action = .interrupt) :
    s.input.reset = false ∧ s.halt = false ∧ s.error = false ∧
      ∃ w, s.pmemRead s.pc = .ok w ∧ s.skip = false ∧ s.interruptTaken (decode w) = true := by
  unfold State.action at h
  split at h; · cases h
  split at h; · cases h
  split at h; · cases h
  split at h; · cases h
  split at h <;> simp_all

/-- When a cycle executes an instruction. -/
theorem action_execute {s : State} {i : Instr} (h : s.action = .execute i) :
    s.input.reset = false ∧ s.halt = false ∧ s.error = false ∧
      ∃ w, s.pmemRead s.pc = .ok w ∧ decode w = i ∧ s.skip = false ∧ s.interruptTaken i = false := by
  unfold State.action at h
  split at h; · cases h
  split at h; · cases h
  split at h; · cases h
  split at h; · cases h
  split at h <;> simp_all

/-- When a cycle skips an instruction. -/
theorem action_skip {s : State} {i : Instr} (h : s.action = .skip i) :
    s.input.reset = false ∧ s.halt = false ∧ s.error = false ∧
      ∃ w, s.pmemRead s.pc = .ok w ∧ decode w = i ∧ s.skip = true := by
  unfold State.action at h
  split at h; · cases h
  split at h; · cases h
  split at h; · cases h
  split at h
  · simp_all
  · split at h <;> cases h

@[simp] theorem State.pc_tick (s : State) : s.tick.pc = s.pc := by
  simp [State.pc]

@[simp] theorem State.pmemRead_tick (s : State) (a : Word) : s.tick.pmemRead a = s.pmemRead a := rfl

/-- What one cycle can do, said once. -/
theorem step_cases {s t : State} (h : step s = .next t) :
    (s.input.reset = true ∧ t = s.tick.assertReset) ∨
    (s.input.reset = false ∧ (s.halt = true ∨ s.error = true) ∧ t = s.tick) ∨
    (s.input.reset = false ∧ s.halt = false ∧ s.error = false ∧
      ∃ w, s.pmemRead s.pc = .ok w ∧
        ((s.skip = true ∧ s.action = .skip (decode w) ∧ t = s.tick.skipOver (decode w)) ∨
          (s.skip = false ∧ s.interruptTaken (decode w) = true ∧ s.action = .interrupt ∧ t = s.tick.takeInterrupt) ∨
          (s.skip = false ∧ s.interruptTaken (decode w) = false ∧ s.action = .execute (decode w) ∧
            exec (decode w) s.tick = .next t))) := by
  by_cases hr : s.input.reset = true
  · have ha : s.action = .reset := by simp [State.action, hr]
    simp only [step, ha] at h
    cases h
    exact .inl ⟨hr, rfl⟩
  have hr : s.input.reset = false := by simpa using hr
  refine .inr ?_
  by_cases hs : (s.halt || s.error) = true
  · have ha : s.action = .stopped := by simp only [State.action, hr, hs]; rfl
    simp only [step, ha] at h
    cases h
    exact .inl ⟨hr, by simpa using hs, rfl⟩
  have hs' : s.halt = false ∧ s.error = false := by simpa using hs
  refine .inr ⟨hr, hs'.1, hs'.2, ?_⟩
  cases hp : s.pmemRead s.pc with
  | error f =>
    have ha : s.action = .fetchFault f := by simp only [State.action, hr, hs, hp]; rfl
    simp only [step, ha] at h
    cases h
  | ok w =>
    refine ⟨w, rfl, ?_⟩
    by_cases hk : s.skip = true
    · have ha : s.action = .skip (decode w) := by simp only [State.action, hr, hs, hp, hk]; rfl
      simp only [step, ha] at h
      cases h
      exact .inl ⟨hk, ha, rfl⟩
    have hk : s.skip = false := by simpa using hk
    by_cases hi : s.interruptTaken (decode w) = true
    · have ha : s.action = .interrupt := by simp only [State.action, hr, hs, hp, hk, hi]; rfl
      simp only [step, ha] at h
      cases h
      exact .inr (.inl ⟨hk, hi, ha, rfl⟩)
    · have hi : s.interruptTaken (decode w) = false := by simpa using hi
      have ha : s.action = .execute (decode w) := by simp only [State.action, hr, hs, hp, hk, hi]; rfl
      simp only [step, ha] at h
      exact .inr (.inr ⟨hk, hi, ha, h⟩)

/-- An invariant that holds at the start and that every step keeps holds in every state that a run reaches. -/
theorem reachable_induct {P : State → Prop} (h0 : ∀ s, s.Initial → P s) (h1 : ∀ s t, P s → step s = .next t → P t)
    {s : State} (h : Reachable s) : P s := by
  induction h with
  | start hs => exact h0 _ hs
  | next _ hst ih => exact h1 _ _ ih hst

end Sys2Proof.Machine
end

