-- ==== Sys2Proof/Laws/PerInstr.lean ====
section
/-! SUPPORT. The per-instruction family `EncodeRoundTrip`: decoding the word of a well-formed instruction gives it back. -/

namespace Sys2Proof.Laws.EncodeRoundTrip

/-- The decoder reads back what the encoder wrote. -/
def Statement (i : Instr) : Prop := i.wellFormed = true → decode (encode i) = i

theorem imm6_bounds {v : Int} (h : fitsImm6 v = true) : -32 ≤ v ∧ v ≤ 31 := by simpa [fitsImm6] using h

theorem imm8_bounds {v : Int} (h : fitsImm8 v = true) : -128 ≤ v ∧ v ≤ 127 := by simpa [fitsImm8] using h

theorem imm11_bounds {v : Int} (h : fitsImm11 v = true) : -1024 ≤ v ∧ v ≤ 1023 := by simpa [fitsImm11] using h

theorem imm4_bound {v : Nat} (h : fitsImm4 v = true) : v ≤ 15 := by simpa [fitsImm4] using h

theorem nop : Statement .nop :=
  fun _ => decode_packRr _ _ _

theorem rets : Statement .rets :=
  fun _ => decode_packRr _ _ _

theorem error : Statement .error :=
  fun _ => decode_packRr _ _ _

theorem halt : Statement .halt :=
  fun _ => decode_packRr _ _ _

theorem rcsr (rd : Reg) : Statement (.rcsr rd) :=
  fun _ => decode_packRr _ _ _

theorem wcsr : Statement .wcsr :=
  fun _ => decode_packRr _ _ _

theorem move (rd rs : Reg) : Statement (.move rd rs) :=
  fun _ => decode_packRr _ _ _

theorem loadc (rd rs : Reg) : Statement (.loadc rd rs) :=
  fun _ => decode_packRr _ _ _

theorem jump (rd : Reg) : Statement (.jump rd) :=
  fun _ => decode_packRr _ _ _

theorem nopOp9 : Statement .nopOp9 :=
  fun _ => decode_packRr _ _ _

theorem call (rd : Reg) : Statement (.call rd) :=
  fun _ => decode_packRr _ _ _

theorem nopOp11 : Statement .nopOp11 :=
  fun _ => decode_packRr _ _ _

theorem load (rd rs : Reg) : Statement (.load rd rs) :=
  fun _ => decode_packRr _ _ _

theorem store (rd rs : Reg) : Statement (.store rd rs) :=
  fun _ => decode_packRr _ _ _

theorem loadb (rd rs : Reg) : Statement (.loadb rd rs) :=
  fun _ => decode_packRr _ _ _

theorem storeb (rd rs : Reg) : Statement (.storeb rd rs) :=
  fun _ => decode_packRr _ _ _

theorem add (rd rs : Reg) : Statement (.add rd rs) :=
  fun _ => decode_packRr _ _ _

theorem sub (rd rs : Reg) : Statement (.sub rd rs) :=
  fun _ => decode_packRr _ _ _

theorem addc (rd rs : Reg) : Statement (.addc rd rs) :=
  fun _ => decode_packRr _ _ _

theorem subc (rd rs : Reg) : Statement (.subc rd rs) :=
  fun _ => decode_packRr _ _ _

theorem xor (rd rs : Reg) : Statement (.xor rd rs) :=
  fun _ => decode_packRr _ _ _

theorem and (rd rs : Reg) : Statement (.and rd rs) :=
  fun _ => decode_packRr _ _ _

theorem or (rd rs : Reg) : Statement (.or rd rs) :=
  fun _ => decode_packRr _ _ _

theorem shl (rd rs : Reg) : Statement (.shl rd rs) :=
  fun _ => decode_packRr _ _ _

theorem shr (rd rs : Reg) : Statement (.shr rd rs) :=
  fun _ => decode_packRr _ _ _

theorem asr (rd rs : Reg) : Statement (.asr rd rs) :=
  fun _ => decode_packRr _ _ _

theorem ifEq (rd rs : Reg) : Statement (.ifEq rd rs) :=
  fun _ => decode_packRr _ _ _

theorem ifNe (rd rs : Reg) : Statement (.ifNe rd rs) :=
  fun _ => decode_packRr _ _ _

theorem ifLt (rd rs : Reg) : Statement (.ifLt rd rs) :=
  fun _ => decode_packRr _ _ _

theorem ifGe (rd rs : Reg) : Statement (.ifGe rd rs) :=
  fun _ => decode_packRr _ _ _

theorem ifUlt (rd rs : Reg) : Statement (.ifUlt rd rs) :=
  fun _ => decode_packRr _ _ _

theorem ifUge (rd rs : Reg) : Statement (.ifUge rd rs) :=
  fun _ => decode_packRr _ _ _

theorem moveI (rd : Reg) (imm8 : Int) : Statement (.moveI rd imm8) :=
  fun h => by simpa [encode] using decode_packI8 0 rd imm8 (imm8_bounds h).1 (imm8_bounds h).2

theorem loadcI (rd : Reg) (imm8 : Int) : Statement (.loadcI rd imm8) :=
  fun h => by simpa [encode] using decode_packI8 1 rd imm8 (imm8_bounds h).1 (imm8_bounds h).2

theorem jumpI (imm11 : Int) : Statement (.jumpI imm11) :=
  fun h => by simpa [encode] using decode_packI11 0 imm11 (imm11_bounds h).1 (imm11_bounds h).2

theorem callI (imm11 : Int) : Statement (.callI imm11) :=
  fun h => by simpa [encode] using decode_packI11 1 imm11 (imm11_bounds h).1 (imm11_bounds h).2

theorem imm (imm12 : BitVec 12) : Statement (.imm imm12) :=
  fun _ => decode_packI12 _

theorem loadI (rd rs : Reg) (imm4 : Nat) : Statement (.loadI rd rs imm4) :=
  fun h => decode_packLs _ _ _ _ (imm4_bound h)

theorem storeI (rd rs : Reg) (imm4 : Nat) : Statement (.storeI rd rs imm4) :=
  fun h => decode_packLs _ _ _ _ (imm4_bound h)

theorem loadbI (rd rs : Reg) (imm4 : Nat) : Statement (.loadbI rd rs imm4) :=
  fun h => decode_packLs _ _ _ _ (imm4_bound h)

theorem storebI (rd rs : Reg) (imm4 : Nat) : Statement (.storebI rd rs imm4) :=
  fun h => decode_packLs _ _ _ _ (imm4_bound h)

theorem addI (rd : Reg) (imm6 : Int) : Statement (.addI rd imm6) :=
  fun h => decode_packRi6 _ _ _ (imm6_bounds h).1 (imm6_bounds h).2

theorem subI (rd : Reg) (imm6 : Int) : Statement (.subI rd imm6) :=
  fun h => decode_packRi6 _ _ _ (imm6_bounds h).1 (imm6_bounds h).2

theorem addcI (rd : Reg) (imm6 : Int) : Statement (.addcI rd imm6) :=
  fun h => decode_packRi6 _ _ _ (imm6_bounds h).1 (imm6_bounds h).2

theorem subcI (rd : Reg) (imm6 : Int) : Statement (.subcI rd imm6) :=
  fun h => decode_packRi6 _ _ _ (imm6_bounds h).1 (imm6_bounds h).2

theorem xorI (rd : Reg) (imm6 : Int) : Statement (.xorI rd imm6) :=
  fun h => decode_packRi6 _ _ _ (imm6_bounds h).1 (imm6_bounds h).2

theorem andI (rd : Reg) (imm6 : Int) : Statement (.andI rd imm6) :=
  fun h => decode_packRi6 _ _ _ (imm6_bounds h).1 (imm6_bounds h).2

theorem orI (rd : Reg) (imm6 : Int) : Statement (.orI rd imm6) :=
  fun h => decode_packRi6 _ _ _ (imm6_bounds h).1 (imm6_bounds h).2

theorem shlI (rd : Reg) (imm6 : Int) : Statement (.shlI rd imm6) :=
  fun h => decode_packRi6 _ _ _ (imm6_bounds h).1 (imm6_bounds h).2

theorem shrI (rd : Reg) (imm6 : Int) : Statement (.shrI rd imm6) :=
  fun h => decode_packRi6 _ _ _ (imm6_bounds h).1 (imm6_bounds h).2

theorem asrI (rd : Reg) (imm6 : Int) : Statement (.asrI rd imm6) :=
  fun h => decode_packRi6 _ _ _ (imm6_bounds h).1 (imm6_bounds h).2

theorem ifEqI (rd : Reg) (imm6 : Int) : Statement (.ifEqI rd imm6) :=
  fun h => decode_packRi6 _ _ _ (imm6_bounds h).1 (imm6_bounds h).2

theorem ifNeI (rd : Reg) (imm6 : Int) : Statement (.ifNeI rd imm6) :=
  fun h => decode_packRi6 _ _ _ (imm6_bounds h).1 (imm6_bounds h).2

theorem ifLtI (rd : Reg) (imm6 : Int) : Statement (.ifLtI rd imm6) :=
  fun h => decode_packRi6 _ _ _ (imm6_bounds h).1 (imm6_bounds h).2

theorem ifGeI (rd : Reg) (imm6 : Int) : Statement (.ifGeI rd imm6) :=
  fun h => decode_packRi6 _ _ _ (imm6_bounds h).1 (imm6_bounds h).2

theorem ifUltI (rd : Reg) (imm6 : Int) : Statement (.ifUltI rd imm6) :=
  fun h => decode_packRi6 _ _ _ (imm6_bounds h).1 (imm6_bounds h).2

theorem ifUgeI (rd : Reg) (imm6 : Int) : Statement (.ifUgeI rd imm6) :=
  fun h => decode_packRi6 _ _ _ (imm6_bounds h).1 (imm6_bounds h).2

end Sys2Proof.Laws.EncodeRoundTrip
end

