-- ==== Sys2Proof/Tests/Slice0.lean ====
section
/-! SUPPORT. Tests: ill-formed terms are refused, words written out from the encodings of the spec decode to the right
instructions, one-step vectors of spec/95_test_vectors.md, and for every statement with hypotheses a state and operands
that meet them. Expected results come from the spec; `V<n>` is the vector of that number. -/

open Sys2Proof Sys2Proof.Machine

namespace Sys2Proof.Tests

/-! ## Well-formedness (R57): for each check, terms that it refuses beside the last ones that it accepts -/

theorem test_imm4_range : (Instr.loadI 1 2 15).wellFormed ∧ ¬(Instr.loadI 1 2 16).wellFormed ∧
    ¬(Instr.storeI 1 2 16).wellFormed ∧ ¬(Instr.loadbI 1 2 16).wellFormed ∧ ¬(Instr.storebI 1 2 16).wellFormed := by
  decide

theorem test_imm6_range : (Instr.addI 1 31).wellFormed ∧ (Instr.addI 1 (-32)).wellFormed ∧
    ¬(Instr.addI 1 32).wellFormed ∧ ¬(Instr.subI 3 43).wellFormed ∧ ¬(Instr.shlI 1 (-33)).wellFormed ∧
    ¬(Instr.ifUgeI 1 32).wellFormed := by
  decide

theorem test_imm8_range : (Instr.moveI 1 127).wellFormed ∧ (Instr.moveI 1 (-128)).wellFormed ∧
    ¬(Instr.moveI 1 128).wellFormed ∧ ¬(Instr.loadcI 1 (-129)).wellFormed := by
  decide

theorem test_imm11_range : (Instr.jumpI 1023).wellFormed ∧ (Instr.callI (-1024)).wellFormed ∧
    ¬(Instr.jumpI 1024).wellFormed ∧ ¬(Instr.callI (-1025)).wellFormed := by
  decide

/-! ## Decoding -/

/-- One word of each format, bit by bit from the boxes of R51 to R56. -/
theorem test_decode_formats :
    decode 0b1101_0010_0_10000_00#16 = .add 13 2 ∧ decode 0b0011_01111000_0_0_01#16 = .moveI 3 120 ∧
    decode 0b11111111111_0_0_1_01#16 = .jumpI (-1) ∧ decode 0b00000000011_1_0_1_01#16 = .callI 3 ∧
    decode 0b000100100011_1_1_01#16 = .imm 0x123 ∧ decode 0b0110_1111_1001_00_10#16 = .loadI 6 15 9 ∧
    decode 0b0011_001111_0000_11#16 = .addI 3 15 := by
  decide

/-- The system rows: the canonical words of R80 to R85. -/
theorem test_decode_system : [0x0000#16, 0x0004, 0x0008, 0x000C, 0x0010, 0x0014].map decode =
    [.nop, .rets, .error, .halt, .rcsr 0, .wcsr] := by
  decide

/-- V9, V11, V13, V61, V62, V63. -/
theorem test_decode_move_rr : [0x5118#16, 0x121C, 0x0020, 0x0024, 0x0028, 0x002C].map decode =
    [.move 5 1, .loadc 1 2, .jump 0, .nopOp9, .call 0, .nopOp11] := by
  decide

/-- V15, V17, V19, V21. -/
theorem test_decode_memory_rr : [0x5930#16, 0x5934, 0x2638, 0x433C].map decode =
    [.load 5 9, .store 5 9, .loadb 2 6, .storeb 4 3] := by
  decide

/-- V24, V27, V26, V29, V150, V153, V156, V158, V159, V160. -/
theorem test_decode_alu_rr :
    [0xD240#16, 0x1544, 0xD248, 0xD24C, 0x1250, 0x1254, 0x1258, 0x125C, 0x1260, 0x1264].map decode =
      [.add 13 2, .sub 1 5, .addc 13 2, .subc 13 2, .xor 1 2, .and 1 2, .or 1 2, .shl 1 2, .shr 1 2, .asr 1 2] := by
  decide

/-- V170. -/
theorem test_decode_compare_rr : [0x1268#16, 0x126C, 0x1270, 0x1274, 0x1278, 0x127C].map decode =
    [.ifEq 1 2, .ifNe 1 2, .ifLt 1 2, .ifGe 1 2, .ifUlt 1 2, .ifUge 1 2] := by
  decide

/-- V71, V61, V83, V88, V73 (an even and an odd field). -/
theorem test_decode_wide : [0x1801#16, 0x1009, 0x8005, 0xFE15, 0xABCD, 0x123D].map decode =
    [.moveI 1 (-128), .loadcI 1 0, .jumpI (-1024), .callI (-16), .imm 0xABC, .imm 0x123] := by
  decide

/-- V16, V18, V20, V22. -/
theorem test_decode_ls : [0x6F92#16, 0x6F96, 0x52FA, 0x2CAE].map decode =
    [.loadI 6 15 9, .storeI 6 15 9, .loadbI 5 2 15, .storebI 2 12 10] := by
  decide

/-- V23, V5, V25, V28, V34, V155, V157, V162, V163. -/
theorem test_decode_alu_ri6 :
    [0x33C3#16, 0x3AC7, 0x33CB, 0x33CF, 0x1FD3, 0x17D7, 0x1FDB, 0x13DF, 0x1123, 0x1127].map decode =
      [.addI 3 15, .subI 3 (-21), .addcI 3 15, .subcI 3 15, .xorI 1 (-1), .andI 1 31, .orI 1 (-1), .shlI 1 15, .shrI 1 4,
        .asrI 1 4] := by
  decide

/-- R131, and R132 to R136 with the same operands; V171. -/
theorem test_decode_compare_ri6 : [0x116B#16, 0x116F, 0x1173, 0x1177, 0x1FFB, 0x117F].map decode =
    [.ifEqI 1 5, .ifNeI 1 5, .ifLtI 1 5, .ifGeI 1 5, .ifUltI 1 (-1), .ifUgeI 1 5] := by
  decide

/-- V52, V53, V86, and R63 for the other rows: bit 7 and the fields that are not read. -/
theorem test_decode_ignored_bits :
    [0x0080#16, 0xAB00, 0x3720, 0xFF84, 0xFF88, 0xFF8C, 0xFF94, 0xFFA4, 0xFFAC, 0x5FA8, 0xFFFC].map
      decode = [.nop, .nop, .jump 3, .rets, .error, .halt, .wcsr, .nopOp9, .nopOp11, .call 5, .ifUge 15 15] := by
  decide

/-- R50: anything but 16 bits is refused by name. -/
theorem test_decode_refuses : decodeBits 8 0 = .error (.notOneWord 8) ∧ decodeBits 32 0 = .error (.notOneWord 32) ∧
    decodeBits 16 65536 = .error (.valueTooWide 65536) ∧ decodeTableWord 8 0 = none ∧
    decodeTableWord 16 0x33C3 = some (.addI 3 15) := by
  decide

/-- The words that the spec gives for its own examples (95_test_vectors.md section 1). -/
theorem test_encode :
    [Instr.imm 0x123, .rets, .moveI 3 120, .callI 3, .storeI 6 15 9, .subcI 3 15, .ifLt 2 1].map encode =
    [0x123D#16, 0x0004, 0x3781, 0x0075, 0x6F96, 0x33CF, 0x2170] := by
  decide

/-! ## States for the one-step tests -/

/-- The start state of the vectors: user mode, pc = 0x0010, nothing pending. -/
def start : State := State.reset.setPc 0x0010

/-- With these registers of the active bank. -/
def withRegs (rs : List (Reg × Word)) (s : State) : State := rs.foldl (fun t p => t.setReg p.1 p.2) s

/-- With these bytes of data memory. -/
def withBytes (bs : List (Word × Byte)) (s : State) : State := bs.foldl (fun t p => t.setByte p.1 p.2) s

/-- The state after one cycle that runs the word. -/
def after (w : Word) (s : State) : Option State :=
  match step (s.withFetchWord 16 w.toNat) with
  | .next t => some t
  | .fault _ => none
  | .refused _ => none

/-- Why a cycle stops. -/
def stops (w : Word) (s : State) : Option (Fault ⊕ Refusal) :=
  match step (s.withFetchWord 16 w.toNat) with
  | .next _ => none
  | .fault f => some (.inl f)
  | .refused r => some (.inr r)

/-- A carry is pending. -/
def carried (s : State) : State := { s with c := true, uc := true }

/-- An `imm` has been executed. -/
def extended (v : BitVec 12) (s : State) : State := { s with imm := v, immv := true }

/-- The interrupt request line is high and interrupts are enabled. -/
def requested (s : State) : State := { s with ie := true, inputs := [{ irq := true, reset := false }] }

/-- Register 1, the pc, C, UC, IMMV, S. -/
def view (t : State) : Word × Word × Bool × Bool × Bool × Bool := (t.reg 1, t.pc, t.c, t.uc, t.immv, t.skip)

/-! ## System instructions and control -/

/-- V50. -/
theorem test_nop : (after 0x0000 (carried start)).map view = some (0, 0x0011, false, false, false, false) := by
  decide

/-- V51. -/
theorem test_nop_prefix_lost :
    (after 0x0000 (extended 0x123 start)).map view = some (0, 0x0011, false, false, false, false) := by
  decide

/-- V54: from kernel mode, PC[0] = 0x0040. -/
theorem test_rets :
    (after 0x0004 { start with k := .kernel, user.pc := 0x0040, kernel.pc := 0x0010 }).map (fun t => (t.k, t.pcOf .kernel, t.pcOf .user)) =
      some (.user, 0x0011, 0x0040) := by
  decide

/-- V4. -/
theorem test_error : (after 0x0008 start).map (fun t => (t.error, t.halt, t.pc)) = some (true, false, 0x0010) := by
  decide

/-- V6. -/
theorem test_halt : (after 0x000C start).map (fun t => (t.halt, t.error, t.pc)) = some (true, false, 0x0010) := by
  decide

/-- V58. -/
theorem test_rcsr : stops 0x0010 start = some (.inr .rcsrNotImplemented) := by
  decide

/-- D24, `ERRATA` = on: `pc <- x[rd]`. -/
theorem test_rcsr_errata :
    (after 0x3010 (withRegs [(3, 0xBEEF)] { start with cfg.errata := true })).map State.pc = some 0xBEEF := by
  decide

/-- V60. -/
theorem test_wcsr : stops 0x0014 start = some (.inr .wcsrNotImplemented) := by
  decide

/-- V76: the register form ignores IMM. -/
theorem test_move :
    (after 0x1218 (extended 0xABC (withRegs [(2, 0x5555)] start))).map view =
      some (0x5555, 0x0011, false, false, false, false) := by
  decide

/-- V70. -/
theorem test_moveI : (after 0x1FF1 start).map view = some (0xFFFF, 0x0011, false, false, false, false) := by
  decide

/-- V75. -/
theorem test_moveI_extended :
    (after 0x1FD1 (extended 0xABC start)).map view = some (0xABCD, 0x0011, false, false, false, false) := by
  decide

/-- R91 under `as_documented`: the word that stands at x[rs], here the `loadc` itself. -/
theorem test_loadc :
    (after 0x121C (withRegs [(2, 0x0010)] start)).map view = some (0x121C, 0x0011, false, false, false, false) := by
  decide

/-- V61, `UNIMPL` = `refuse`. -/
theorem test_loadc_refuse : stops 0x121C { start with cfg.unimpl := .refuse } = some (.inr .loadcNotImplemented) := by
  decide

/-- R91 under `as_documented`: offset 0 is the `loadc` itself. -/
theorem test_loadcI : (after 0x1009 start).map view = some (0x1009, 0x0011, false, false, false, false) := by
  decide

/-- V61, `UNIMPL` = `refuse`. -/
theorem test_loadcI_refuse :
    stops 0x1009 { start with cfg.unimpl := .refuse } = some (.inr .loadcNotImplemented) := by
  decide

/-- V86. -/
theorem test_jump : (after 0x3720 (withRegs [(3, 0xBEEF), (7, 1)] start)).map State.pc = some 0xBEEF := by
  decide

/-- V80. -/
theorem test_jumpI : (after 0xFFE5 (start.setPc 0)).map State.pc = some 0xFFFF := by
  decide

/-- V84. -/
theorem test_jumpI_extended :
    (after 0x0085 (extended 0x123 start)).map (fun t => (t.pc, t.immv)) = some (0x1244, false) := by
  decide

/-- V62. -/
theorem test_nopOp9 : (after 0x0024 start).map view = some (0, 0x0011, false, false, false, false) := by
  decide

/-- V63. -/
theorem test_nopOp11 : (after 0x002C (carried start)).map view = some (0, 0x0011, false, false, false, false) := by
  decide

/-- V13: the target is the old r0. -/
theorem test_call :
    (after 0x0028 (withRegs [(0, 0x0100)] (start.setPc 0x0020))).map (fun t => (t.pc, t.reg 0)) =
      some (0x0100, 0x0021) := by
  decide

/-- V87. -/
theorem test_call_wraps :
    (after 0x5028 (withRegs [(5, 0x0200), (0, 0x1111)] (start.setPc 0xFFFF))).map (fun t => (t.pc, t.reg 0)) =
      some (0x0200, 0x0000) := by
  decide

/-- V88. -/
theorem test_callI : (after 0xFE15 (start.setPc 0x0030)).map (fun t => (t.pc, t.reg 0)) = some (0x0020, 0x0031) := by
  decide

/-- V89. -/
theorem test_callI_kernel :
    (after 0x0075 { start with k := .kernel, kernel.pc := 0x0020 }).map (fun t => (t.pcOf .kernel, t.regOf .kernel 0, t.regOf .user 0)) =
      some (0x0023, 0x0021, 0) := by
  decide

/-- V73. -/
theorem test_imm : (after 0xABCD start).map (fun t => (t.imm, t.immv, t.pc)) = some (0xABC, true, 0x0011) := by
  decide

/-- V78. -/
theorem test_imm_clears_carry :
    (after 0x123D (carried start)).map (fun t => (t.imm, t.immv, t.c, t.uc)) = some (0x123, true, false, false) := by
  decide

/-! ## Loads and stores -/

/-- V100: an odd base. -/
theorem test_load :
    (after 0x1230 (withBytes [(0x0100, 0x34), (0x0101, 0x12)] (withRegs [(2, 0x0101)] start))).map view =
      some (0x1234, 0x0011, false, false, false, false) := by
  decide

/-- V111. -/
theorem test_load_outside :
    stops 0x1230 (withRegs [(2, 0x2000)] { start with cfg.dmemBytes := 0x1000 }) =
      some (.inl .outsideDataMemory) := by
  decide

/-- V101: the address wraps. -/
theorem test_loadI :
    (after 0x12F2 (withBytes [(0x000E, 0xCD), (0x000F, 0xAB)] (withRegs [(2, 0xFFF0)] start))).map view =
      some (0xABCD, 0x0011, false, false, false, false) := by
  decide

/-- V103: the offset 0x0100 is doubled. -/
theorem test_loadI_extended :
    (after 0x1202 (extended 0x010 (withBytes [(0x0210, 0xEF), (0x0211, 0xBE)] (withRegs [(2, 0x0010)] start)))).map view =
      some (0xBEEF, 0x0011, false, false, false, false) := by
  decide

/-- V105: the unmasked value at the masked address. -/
theorem test_store :
    (after 0x2234 (withRegs [(2, 0x0301)] start)).map State.mem = some [(0x0300, 0x01), (0x0301, 0x03)] := by
  decide

/-- R33 under `BYTE_ORDER` = big (R102's example). -/
theorem test_store_big :
    (after 0x5934 (withRegs [(9, 0x0200), (5, 0xCAFE)] { start with cfg.byteOrder := .big })).map State.mem =
      some [(0x0200, 0xCA), (0x0201, 0xFE)] := by
  decide

/-- V106: the address wraps. -/
theorem test_storeI :
    (after 0x1216 (withRegs [(1, 0xA1B2), (2, 0xFFFF)] start)).map State.mem =
      some [(0x0000, 0xB2), (0x0001, 0xA1)] := by
  decide

/-- R45: no doubling, no masking. -/
theorem test_storeI_indexed :
    (after 0x1216 (withRegs [(1, 0xA1B2), (2, 0x0301)] { start with cfg.memModel := .wordIndexed })).map (fun t => (t.mem, t.memw)) =
      some ([], [(0x0302, 0xA1B2)]) := by
  decide

/-- V108. -/
theorem test_loadb :
    (after 0x1238 (withBytes [(0x0100, 0x34), (0x0101, 0x12)] (withRegs [(2, 0x0101)] start))).map view =
      some (0x0012, 0x0011, false, false, false, false) := by
  decide

/-- R45. -/
theorem test_loadb_indexed :
    stops 0x1238 { start with cfg.memModel := .wordIndexed } = some (.inr .byteAccessNotImplemented) := by
  decide

/-- V107: the address wraps, the byte is zero extended. -/
theorem test_loadbI :
    (after 0x121A (withBytes [(0x0000, 0x80)] (withRegs [(1, 0xFFFF), (2, 0xFFFF)] start))).map view =
      some (0x0080, 0x0011, false, false, false, false) := by
  decide

/-- V21. -/
theorem test_storeb :
    (after 0x433C (withRegs [(3, 0x0205), (4, 0xAA55)] start)).map State.mem = some [(0x0205, 0x55)] := by
  decide

/-- V109: one byte only. -/
theorem test_storebI :
    (after 0x12FE (withBytes [(0x0110, 0x55), (0x0111, 0x66)] (withRegs [(1, 0x1277), (2, 0x0101)] start))).map State.mem =
      some [(0x0110, 0x77), (0x0111, 0x66)] := by
  decide

/-! ## Arithmetic, logic, shifts -/

/-- V122. -/
theorem test_add :
    (after 0x1240 (carried (withRegs [(1, 2), (2, 3)] start))).map view =
      some (6, 0x0011, false, false, false, false) := by
  decide

/-- V120. -/
theorem test_add_wraps :
    (after 0x1240 (withRegs [(1, 0xFFFF), (2, 1)] start)).map view =
      some (0, 0x0011, false, false, false, false) := by
  decide

/-- V124. -/
theorem test_addI : (after 0x1FC3 start).map view = some (0xFFFF, 0x0011, false, false, false, false) := by
  decide

/-- V127. -/
theorem test_addI_extended :
    (after 0x1FC3 (extended 0x7FF start)).map view = some (0x7FFF, 0x0011, false, false, false, false) := by
  decide

/-- V130. -/
theorem test_sub :
    (after 0x1244 (carried (withRegs [(1, 5), (2, 0)] start))).map view =
      some (4, 0x0011, false, false, false, false) := by
  decide

/-- V131. -/
theorem test_sub_same :
    (after 0x1144 (carried (withRegs [(1, 0x1234)] start))).map view =
      some (0xFFFF, 0x0011, false, false, false, false) := by
  decide

/-- V5, the second word. -/
theorem test_subI :
    (after 0x3AC7 (extended 0x002 (withRegs [(3, 100)] start))).map (fun t => (t.reg 3, t.immv)) =
      some (57, false) := by
  decide

/-- V132. -/
theorem test_addc :
    (after 0x1248 (carried (withRegs [(1, 0xFFFF), (2, 0xFFFF)] start))).map view =
      some (0xFFFF, 0x0011, true, true, false, false) := by
  decide

/-- V133. -/
theorem test_addc_no_carry :
    (after 0x1248 (withRegs [(1, 1), (2, 2)] start)).map view = some (3, 0x0011, false, true, false, false) := by
  decide

/-- V136. -/
theorem test_addcI :
    (after 0x1FCB (withRegs [(1, 1)] start)).map view = some (0, 0x0011, true, true, false, false) := by
  decide

/-- V135. -/
theorem test_addcI_no_carry : (after 0x1FCB start).map view = some (0xFFFF, 0x0011, false, true, false, false) := by
  decide

/-- V139. -/
theorem test_subc :
    (after 0x124C (carried (withRegs [(1, 0), (2, 0xFFFF)] start))).map view =
      some (0, 0x0011, true, true, false, false) := by
  decide

/-- V137. -/
theorem test_subc_no_borrow :
    (after 0x124C (withRegs [(1, 5), (2, 5)] start)).map view = some (0, 0x0011, false, true, false, false) := by
  decide

/-- V28. -/
theorem test_subcI :
    (after 0x33CF (withRegs [(3, 10)] start)).map (fun t => (t.reg 3, t.c, t.uc)) = some (0xFFFB, true, true) := by
  decide

/-- V150. -/
theorem test_xor :
    (after 0x1250 (withRegs [(1, 0xFF00), (2, 0x0FF0)] start)).map view =
      some (0xF0F0, 0x0011, false, false, false, false) := by
  decide

/-- V151, with a carry pending (V166). -/
theorem test_xorI :
    (after 0x1FD3 (carried (withRegs [(1, 0x00FF)] start))).map view =
      some (0xFF00, 0x0011, false, false, false, false) := by
  decide

/-- V153. -/
theorem test_and :
    (after 0x1254 (withRegs [(1, 0xFF00), (2, 0x0FF0)] start)).map view =
      some (0x0F00, 0x0011, false, false, false, false) := by
  decide

/-- V154. -/
theorem test_andI :
    (after 0x1F97 (withRegs [(1, 0xFFFF)] start)).map view = some (0xFFFE, 0x0011, false, false, false, false) := by
  decide

/-- V156. -/
theorem test_or :
    (after 0x1258 (withRegs [(1, 0xFF00), (2, 0x0FF0)] start)).map view =
      some (0xFFF0, 0x0011, false, false, false, false) := by
  decide

/-- V157. -/
theorem test_orI : (after 0x1FDB start).map view = some (0xFFFF, 0x0011, false, false, false, false) := by
  decide

/-- V158. -/
theorem test_shl :
    (after 0x125C (withRegs [(1, 0x8001), (2, 15)] start)).map view =
      some (0x8000, 0x0011, false, false, false, false) := by
  decide

/-- V164, `low4`. -/
theorem test_shl_16 :
    (after 0x125C (withRegs [(1, 0x8001), (2, 16)] start)).map view =
      some (0x8001, 0x0011, false, false, false, false) := by
  decide

/-- V165, `low4`. -/
theorem test_shlI :
    (after 0x1FDF (withRegs [(1, 3)] start)).map view = some (0x8000, 0x0011, false, false, false, false) := by
  decide

/-- V165, `refuse`. -/
theorem test_shlI_refuse : stops 0x1FDF { start with cfg.shiftMode := .refuse } = some (.inr .shiftAmount) := by
  decide

/-- V159. -/
theorem test_shr :
    (after 0x1260 (withRegs [(1, 0x8001), (2, 15)] start)).map view =
      some (0x0001, 0x0011, false, false, false, false) := by
  decide

/-- V163. -/
theorem test_shrI :
    (after 0x1123 (withRegs [(1, 0xF00F)] start)).map view = some (0x0F00, 0x0011, false, false, false, false) := by
  decide

/-- V160. -/
theorem test_asr :
    (after 0x1264 (withRegs [(1, 0x8001), (2, 1)] start)).map view =
      some (0xC000, 0x0011, false, false, false, false) := by
  decide

/-- V161. -/
theorem test_asr_nonneg :
    (after 0x1264 (withRegs [(1, 0x4001), (2, 15)] start)).map view =
      some (0x0000, 0x0011, false, false, false, false) := by
  decide

/-- V163. -/
theorem test_asrI :
    (after 0x1127 (withRegs [(1, 0xF00F)] start)).map view = some (0xFF00, 0x0011, false, false, false, false) := by
  decide

/-! ## Compare and skip: the rows of V170 and V171 to V177 -/

/-- V170. -/
theorem test_ifEq : (after 0x1268 (withRegs [(1, 5), (2, 5)] start)).map State.skip = some false := by
  decide

/-- V170. -/
theorem test_ifNe : (after 0x126C (withRegs [(1, 5), (2, 5)] start)).map State.skip = some true := by
  decide

/-- V170. -/
theorem test_ifLt : (after 0x1270 (withRegs [(1, 0x8000), (2, 0x7FFF)] start)).map State.skip = some false := by
  decide

/-- V170. -/
theorem test_ifLt_positive : (after 0x1270 (withRegs [(1, 1), (2, 0xFFFF)] start)).map State.skip = some true := by
  decide

/-- V170. -/
theorem test_ifGe : (after 0x1274 (withRegs [(1, 0x8000), (2, 0x7FFF)] start)).map State.skip = some true := by
  decide

/-- V170. -/
theorem test_ifGe_equal : (after 0x1274 (withRegs [(1, 5), (2, 5)] start)).map State.skip = some false := by
  decide

/-- V170. -/
theorem test_ifUlt : (after 0x1278 (withRegs [(1, 0xFFFF), (2, 1)] start)).map State.skip = some true := by
  decide

/-- V170. -/
theorem test_ifUlt_less : (after 0x1278 (withRegs [(1, 0x7FFF), (2, 0x8000)] start)).map State.skip = some false := by
  decide

/-- V170. -/
theorem test_ifUge : (after 0x127C (withRegs [(1, 0xFFFF), (2, 1)] start)).map State.skip = some false := by
  decide

/-- V170. -/
theorem test_ifUge_less : (after 0x127C (withRegs [(1, 1), (2, 0xFFFF)] start)).map State.skip = some true := by
  decide

/-- V174. -/
theorem test_ifEqI :
    (after 0x112B (extended 0x123 (withRegs [(1, 0x1234)] start))).map view =
      some (0x1234, 0x0011, false, false, false, false) := by
  decide

/-- V175. -/
theorem test_ifEqI_extended :
    (after 0x112B (extended 0x123 (withRegs [(1, 0x0004)] start))).map view =
      some (0x0004, 0x0011, false, false, false, true) := by
  decide

/-- R132 with the operands of R131's example. -/
theorem test_ifNeI :
    (after 0x116F (withRegs [(1, 5)] start)).map view = some (5, 0x0011, false, false, false, true) := by
  decide

/-- V39: 5 < 6. -/
theorem test_ifLtI :
    (after 0x11B3 (withRegs [(1, 5)] start)).map view = some (5, 0x0011, false, false, false, false) := by
  decide

/-- R134's example. -/
theorem test_ifGeI :
    (after 0x1FF7 (withRegs [(1, 0x8000)] start)).map view = some (0x8000, 0x0011, false, false, false, true) := by
  decide

/-- V171. -/
theorem test_ifUltI :
    (after 0x1FFB (withRegs [(1, 0xFFFE)] start)).map view = some (0xFFFE, 0x0011, false, false, false, false) := by
  decide

/-- V173. -/
theorem test_ifUltI_zero : (after 0x103B start).map view = some (0, 0x0011, false, false, false, true) := by
  decide

/-- V172. -/
theorem test_ifUgeI : (after 0x103F start).map view = some (0, 0x0011, false, false, false, false) := by
  decide

/-- R136's example. -/
theorem test_ifUgeI_equal :
    (after 0x117F (withRegs [(1, 5)] start)).map view = some (5, 0x0011, false, false, false, false) := by
  decide

/-! ## The instruction cycle: skips, interrupts, the stopped machine, reset -/

/-- V56. -/
theorem test_skip_halt : (after 0x000C { start with skip := true }).map (fun t => (t.skip, t.halt, t.pc)) =
    some (false, false, 0x0011) := by
  decide

/-- V59. -/
theorem test_skip_rcsr : (after 0x0010 { start with skip := true }).map view =
    some (0, 0x0011, false, false, false, false) := by
  decide

/-- V79. -/
theorem test_skip_imm :
    (after 0x123D { start with skip := true }).map (fun t => (t.skip, t.immv, t.pc)) =
      some (true, false, 0x0011) := by
  decide

/-- V110. -/
theorem test_skip_store :
    (after 0x120E (withRegs [(1, 0x12FF), (2, 0x0400)] { start with skip := true })).map (fun t => (t.skip, t.mem)) =
      some (false, []) := by
  decide

/-- V190: K = 1 and nothing else. -/
theorem test_interrupt :
    (after 0x1240 (requested (withRegs [(1, 1), (2, 2)] start))).map (fun t => (t.k, t.pcOf .user, t.regOf .user 1)) =
      some (.kernel, 0x0010, 1) := by
  decide

/-- V192. -/
theorem test_interrupt_not_in_kernel :
    (after 0x1240 (requested { withRegs [(1, 1), (2, 2)] { start with k := .kernel } with kernel.pc := 0x0010 })).map (fun t => (t.k, t.reg 1, t.pc)) =
      some (.kernel, 3, 0x0011) := by
  decide

/-- V194: not even with carry 0. -/
theorem test_interrupt_after_addc :
    (after 0x1240 (requested { withRegs [(1, 1), (2, 2)] start with uc := true })).map (fun t => (t.k, t.reg 1)) =
      some (.user, 3) := by
  decide

/-- V195. -/
theorem test_interrupt_not_in_skip :
    (after 0x1240 (requested { start with skip := true })).map (fun t => (t.k, t.skip, t.pc)) =
      some (.user, false, 0x0011) := by
  decide

/-- V196. -/
theorem test_interrupt_not_for_addc :
    (after 0x1248 (requested (withRegs [(1, 1), (2, 2)] start))).map (fun t => (t.k, t.reg 1, t.uc)) =
      some (.user, 3, true) := by
  decide

/-- V199: the pc is not incremented. -/
theorem test_interrupt_for_rets :
    (after 0x0004 (requested start)).map (fun t => (t.k, t.pcOf .user)) = some (.kernel, 0x0010) := by
  decide

/-- V57: no change at all. -/
theorem test_stopped :
    (after 0x000C (requested { start with halt := true })).map (fun t => (t.k, t.pc, t.halt)) =
      some (.user, 0x0010, true) := by
  decide

/-- R180: reset is the only exit from the stopped state. -/
theorem test_reset_input :
    (after 0x000C { start with halt := true, inputs := [{ irq := false, reset := true }] }).map (fun t => (t.halt, t.pc, t.skip)) =
      some (false, 0, false) := by
  decide

/-- R3, R14, D1: a counter of 8 bits goes from 0xFF to 0. -/
theorem test_narrow_pc : (after 0x0000 { start with cfg.pcWidth := 8, user.pc := 0x00FF }).map State.pc = some 0 := by
  decide

/-- R3: the default of every parameter that has one. -/
theorem test_defaults : Params.defaults .kernel =
    { pcWidth := 16, pmemWords := 65536, dmemBytes := 65536, byteOrder := .little, relBase := .ownAddress,
      shiftMode := .low4, immAfterCarry := .clear, ieReset := false, kReset := .kernel, resetPc := 0, unimpl := .refuse,
      memModel := .byteAddressed, errata := false } := by
  decide

/-- R31. -/
theorem test_fetch_outside : stops 0x0000 { start with cfg.pmemWords := 16 } = some (.inl .outsideProgramMemory) := by
  decide

/-! ## Witnesses: for every statement with hypotheses, concrete states and operands that meet them -/

/-- The start state about to run a word. -/
def about (w : Word) (s : State) : State := s.withFetchWord 16 w.toNat

/-- The next state of an instruction, or the state itself where it stops. -/
def execOr (i : Instr) (s : State) : State :=
  match exec i s with
  | .next t => t
  | .fault _ => s
  | .refused _ => s

/-- Every row's premise, by the word with all other bits 1. -/
theorem witness_OpcodeMapDecodes :
    (∀ op : Fin 32, (BitVec.ofNat 16 (0xFF80 + 4 * op.val)) &&& 0x007F = BitVec.ofNat 16 (4 * op.val)) ∧
    0xFFF1#16 &&& 0x000F = 0x0001 ∧ 0xFFF9#16 &&& 0x000F = 0x0009 ∧ 0xFFE5#16 &&& 0x001F = 0x0005 ∧
    0xFFF5#16 &&& 0x001F = 0x0015 ∧ 0xFFFD#16 &&& 0x000F = 0x000D ∧ 0xFFF2#16 &&& 0x000F = 0x0002 ∧
    0xFFF6#16 &&& 0x000F = 0x0006 ∧ 0xFFFA#16 &&& 0x000F = 0x000A ∧ 0xFFFE#16 &&& 0x000F = 0x000E ∧
    ∀ f : Fin 16, (BitVec.ofNat 16 (0xFFC3 + 4 * f.val)) &&& 0x003F = BitVec.ofNat 16 (0x03 + 4 * f.val) := by
  decide

theorem witness_DecodeEncodeRoundTrip :
    ([Instr.nop, .ifUge 15 15, .imm 0xFFF, .moveI 15 (-128), .moveI 0 127, .jumpI (-1024), .callI 1023, .loadI 15 15 15,
      .storebI 0 0 0, .addI 15 (-32), .ifUgeI 0 31].all Instr.wellFormed) = true := by
  decide

theorem witness_EveryWordDecodesWellFormed : (17 ≠ 16 ∨ 65536 ≤ 0) ∧ (16 ≠ 16 ∨ 65536 ≤ 65536) := by
  decide

theorem witness_IgnoredBitsDoNotMatter :
    0xFFFC#16 &&& 3 = 0 ∧ (0xFF84#16 &&& 0x7F = 0x0004#16 &&& 0x7F ∧ 0xFF84#16 &&& 0x7F ∈ [0x00#16, 0x04, 0x08, 0x0C, 0x14, 0x24, 0x2C]) ∧
    (0x3FA0#16 &&& 0xF07F = 0x3020#16 &&& 0xF07F ∧ 0x3FA0#16 &&& 0x7F ∈ [0x10#16, 0x20, 0x28]) ∧
    encode (.ifUge 15 15) &&& 3 = 0 := by
  decide

theorem witness_ImmediateAssembly : (extended 0x123 start).immv = true ∧ start.immv = false := by
  decide

theorem witness_ImmSuppliesAnyConstant :
    ((carried start).cfg.immAfterCarry ≠ .refuse ∨ (carried start).uc = false) ∧
    (({ start with cfg.immAfterCarry := .refuse } : State).cfg.immAfterCarry ≠ .refuse ∨ start.uc = false) ∧
    BitVec.ofInt 4 (-1) = (0xABCF#16).extractLsb' 0 4 ∧ BitVec.ofNat 4 15 = (0xABCF#16).extractLsb' 0 4 := by
  decide

/-- In kernel mode under a request, where every other condition for an interrupt holds. -/
theorem witness_StepRunsTheDecodedInstruction : ∃ (s : State) (w : Word) (i : Instr),
    s.input.reset = false ∧ s.halt = false ∧ s.error = false ∧ s.pmemRead s.pc = .ok w ∧ decode w = i ∧
    s.skip = false ∧
    ¬(s.k = .user ∧ s.input.irq = true ∧ s.ie = true ∧ s.immv = false ∧ s.uc = false ∧ i.isPrefixing = false) :=
  ⟨about 0x1240 (requested { start with k := .kernel }), 0x1240, .add 1 2, rfl, rfl, rfl, rfl, rfl, rfl, by decide⟩

/-- One state for each clause: stopped, no word, skip, interrupt, execute. -/
theorem witness_InstructionCycleOrder :
    (({ start with halt := true } : State).input.reset = false ∧
      (({ start with halt := true } : State).halt = true ∨ start.error = true)) ∧
    (∃ s : State, s.input.reset = false ∧ s.halt = false ∧ s.error = false ∧ s.cfg.pmemWords ≤ s.pc.toNat) ∧
    (∃ (s : State) (d : Instr), s.input.reset = false ∧ s.halt = false ∧ s.error = false ∧
      s.pc.toNat < s.cfg.pmemWords ∧ decode (s.programWordAt s.pc) = d ∧ s.skip = true) ∧
    (∃ (s : State) (d : Instr), s.input.reset = false ∧ s.halt = false ∧ s.error = false ∧
      s.pc.toNat < s.cfg.pmemWords ∧ decode (s.programWordAt s.pc) = d ∧ s.skip = false ∧ s.k = .user ∧
      s.input.irq = true ∧ s.ie = true ∧ s.interruptible d = true) ∧
    ∃ (s : State) (d : Instr), s.input.reset = false ∧ s.halt = false ∧ s.error = false ∧
      s.pc.toNat < s.cfg.pmemWords ∧ decode (s.programWordAt s.pc) = d ∧ s.skip = false ∧
      ¬(s.k = .user ∧ s.input.irq = true ∧ s.ie = true ∧ s.interruptible d = true) :=
  ⟨by decide,
    ⟨{ start with cfg.pmemWords := 16 }, by decide⟩,
    ⟨about 0x1240 { start with skip := true }, .add 1 2, by decide⟩,
    ⟨about 0x1240 (requested start), .add 1 2, by decide⟩,
    ⟨about 0x1248 (requested start), .addc 1 2, by decide⟩⟩

/-- A word that is interrupted, and one that is not. -/
theorem witness_InterruptTakenExactlyWhen :
    (about 0x1240 (requested start)).input.reset = false ∧
    (about 0x1240 (requested start)).pmemRead (about 0x1240 (requested start)).pc = .ok 0x1240 ∧
    (about 0x1240 (requested start)).action = .interrupt ∧
    (about 0x1240 start).input.reset = false ∧ (about 0x1240 start).pmemRead (about 0x1240 start).pc = .ok 0x1240 ∧
    (about 0x1240 start).action = .execute (.add 1 2) :=
  ⟨rfl, rfl, by decide, rfl, rfl, by decide⟩

theorem witness_TakenInterruptChangesModeOnly :
    (about 0x1240 (requested start)).action = .interrupt ∧
    ((about 0x1240 (requested start)).uc = false → (about 0x1240 (requested start)).c = false) := by
  decide

theorem witness_PrefixHoldsOffInterrupt : ∃ (s t : State) (i : Instr),
    s.action = .execute i ∧ i.isPrefixing = true ∧ step s = .next t :=
  ⟨about 0x123D (requested start), _, .imm 0x123, by decide, rfl, rfl⟩

theorem witness_SkipFlagWritersAndReaders :
    (∃ (i : Instr) (s t : State), exec i s = .next t ∧ i.isCompare = false) ∧ (Instr.ifEq 1 2).isCompare = true ∧
    ({ start with skip := true } : State).skip = true ∧
    ∃ (s t : State) (i : Instr), s.action = .skip i ∧ step s = .next t :=
  ⟨⟨.nop, start, _, rfl, rfl⟩, rfl, rfl, about 0x123D { start with skip := true }, _, .imm 0x123, by decide, rfl⟩

/-- `imm`, `addc`, `add` under a skip (n = 2). -/
def skipRun : State :=
  { start with skip := true, pmem := [(0x10, 0x123D), (0x11, 0x2348), (0x12, 0x4540)] }

theorem witness_SkipCoversPrefixesAndOneInstruction :
    skipRun.skip = true ∧ skipRun.halt = false ∧ skipRun.error = false ∧
    pcBits skipRun.cfg.pcWidth skipRun.pc = skipRun.pc ∧
    (∀ j, j ≤ 2 → (skipRun.inputs.getD j .low).reset = false) ∧
    ∀ j, j ≤ 2 → ∃ w, skipRun.pmemRead (pcBits skipRun.cfg.pcWidth (skipRun.pc + BitVec.ofNat 16 j)) = .ok w ∧
      (decode w).isPrefixing = decide (j < 2) := by
  refine ⟨rfl, rfl, rfl, rfl, by decide, fun j hj => ?_⟩
  interval_cases j
  · exact ⟨0x123D, rfl, by decide⟩
  · exact ⟨0x2348, rfl, by decide⟩
  · exact ⟨0x4540, rfl, by decide⟩

/-- `imm` under each choice, `addc`, a regular instruction, `halt`. -/
theorem witness_EpilogueByClass :
    (∃ t, exec (.imm 5) (carried start) = .next t ∧ (carried start).cfg.immAfterCarry ≠ .keep) ∧
    (∃ t, exec (.imm 5) { start with cfg.immAfterCarry := .keep } = .next t) ∧
    (∃ t, exec (.addc 1 2) start = .next t ∧ (Instr.addc 1 2).isPrefixing = true ∧ ∀ v, Instr.addc 1 2 ≠ .imm v) ∧
    (∃ t, exec .nop start = .next t ∧ Instr.isPrefixing .nop = false ∧ Instr.setsPc .nop = false) ∧
    ∃ t, exec .halt start = .next t :=
  ⟨⟨_, rfl, by decide⟩, ⟨_, rfl⟩, ⟨_, rfl, rfl, fun _ h => Instr.noConfusion h⟩, ⟨_, rfl, rfl, rfl⟩, ⟨_, rfl⟩⟩

/-- A carry pending, and a store about to run. -/
theorem witness_StepKeepsInvariant : ∃ s t : State, s.Inv ∧ step s = .next t :=
  ⟨about 0x1234 (carried start), _, ⟨rfl, rfl, rfl, by decide, by decide, by decide, fun m => by cases m <;> rfl⟩, rfl⟩

/-- A reset machine with `rets` loaded: reached, and its step changes the mode. -/
def retsLoaded : State := State.reset.withFetchWord 16 0x0004

theorem witness_ReachablePrefixState :
    Reachable retsLoaded ∧ retsLoaded.uc = false ∧ ∃ t, step retsLoaded = .next t ∧ t.k ≠ retsLoaded.k :=
  ⟨.start ⟨Params.atReset, [(0, 0x0004)], [], rfl, rfl⟩, rfl, _, rfl, by decide⟩

/-- The other premise of R23 (b): a reached state with S = 1. -/
theorem witness_ReachablePrefixState_skip : ∃ s : State, Reachable s ∧ s.skip = true :=
  ⟨_, .next (.start ⟨Params.atReset, [(0, 0x103B)], [], rfl, rfl⟩) rfl, by decide⟩

theorem witness_InactiveBankUnchanged : ∃ s t : State, s.input.reset = false ∧ step s = .next t :=
  ⟨about 0x1FF1 start, _, rfl, rfl⟩

/-- A program counter of 8 bits that holds its last value, and the widths 16 and above. -/
theorem witness_ProgramCounterWidth :
    (∀ m, pcBits 8 (({ start with cfg.pcWidth := 8, user.pc := 0x00FF } : State).pcOf m) =
      ({ start with cfg.pcWidth := 8, user.pc := 0x00FF } : State).pcOf m) ∧
    16 ≤ start.cfg.pcWidth ∧ 16 ≤ ({ start with cfg.pcWidth := 20 } : State).cfg.pcWidth :=
  ⟨fun m => by cases m <;> rfl, by decide, by decide⟩

theorem witness_ModeWrittenByRetsAndInterruptOnly :
    (∃ t, retsLoaded.input.reset = false ∧ step retsLoaded = .next t ∧ t.k ≠ retsLoaded.k) ∧
    ∃ t, (about 0x1240 (requested start)).input.reset = false ∧ step (about 0x1240 (requested start)) = .next t ∧
      t.k ≠ (about 0x1240 (requested start)).k :=
  ⟨⟨_, rfl, rfl, by decide⟩, ⟨_, rfl, rfl, by decide⟩⟩

theorem witness_RetsSwitchesModes : 0xFF84#16 &&& 0x7F = 0x04 := by
  decide

/-- The kernel's next word is `rets`. -/
def interruptedRets : State :=
  { requested start with pmem := [(0, 0x0004), (0x10, 0x1240)] }

theorem witness_InterruptThenRetsResumesUser :
    interruptedRets.action = .interrupt ∧ interruptedRets.pmemRead (interruptedRets.pcOf .kernel) = .ok 0x0004 ∧
    decode 0x0004 = .rets ∧ (interruptedRets.inputs.getD 1 .low).reset = false :=
  ⟨by decide, rfl, by decide, rfl⟩

theorem witness_StoppedUntilReset :
    (∃ t, exec .halt start = .next t) ∧ (∃ t, exec .error start = .next t) ∧
    (({ start with error := true } : State).halt = true ∨ ({ start with error := true } : State).error = true) ∧
    ({ start with error := true } : State).input.reset = false ∧
    (∃ t, step (about 0x000C start) = .next t ∧ t.halt ≠ (about 0x000C start).halt) ∧
    (∃ t, step (about 0x0008 start) = .next t ∧ t.error ≠ (about 0x0008 start).error) ∧
    (about 0x000C start).input.reset = false ∧ (about 0x0008 start).input.reset = false :=
  ⟨⟨_, rfl⟩, ⟨_, rfl⟩, by decide, rfl, ⟨_, rfl, by decide⟩, ⟨_, rfl, by decide⟩, rfl, rfl⟩

theorem witness_ResetInputResetsTheMachine :
    ({ start with halt := true, inputs := [{ irq := false, reset := true }] } : State).input.reset = true := by
  decide

theorem witness_OnlyStoresWriteDataMemory : ∃ (i : Instr) (s t : State), exec i s = .next t ∧ i.isStore = false :=
  ⟨.load 1 2, start, _, rfl, rfl⟩

theorem witness_HaltAndErrorRaiseTheirLine :
    (execOr .halt start).input.reset = false ∧ (execOr .error start).input.reset = false := by
  decide

theorem witness_CsrInstructionsAreRefused : start.cfg.errata = false := by
  decide

theorem witness_ErrataForms : ({ start with cfg.errata := true } : State).cfg.errata = true := by
  decide

/-- Both forms, with the last word of a program memory of 17 words, the first word beyond it, and the refusal. -/
theorem witness_LoadcReadsProgramMemory :
    ((∃ rs, Instr.loadc 1 2 = .loadc 1 rs ∧ (0 : Word) = start.reg rs) ∨
      ∃ v, Instr.loadc 1 2 = .loadcI 1 v ∧ (0 : Word) = start.pc + start.immval v) ∧
    ((∃ rs, Instr.loadcI 1 0 = .loadc 1 rs ∧ (0x0010 : Word) = start.reg rs) ∨
      ∃ v, Instr.loadcI 1 0 = .loadcI 1 v ∧ (0x0010 : Word) = start.pc + start.immval v) ∧
    start.cfg.unimpl = .asDocumented ∧ (0x0010#16).toNat < ({ start with cfg.pmemWords := 17 } : State).cfg.pmemWords ∧
    ({ start with cfg.pmemWords := 16 } : State).cfg.pmemWords ≤ (0x0010#16).toNat ∧
    ({ start with cfg.unimpl := .refuse } : State).cfg.unimpl = .refuse :=
  ⟨.inl ⟨2, rfl, by decide⟩, .inr ⟨0, rfl, by decide⟩, by decide⟩

theorem witness_JumpSetsPc : start.cfg.errata = false ∧ start.cfg.relBase = .ownAddress ∧
    ({ start with cfg.relBase := .nextInstruction } : State).cfg.relBase = .nextInstruction := by
  decide

/-- The register form and, under each choice of `REL_BASE`, the immediate form. -/
theorem witness_CallSavesReturnAddress :
    (∃ rd, Instr.call 0 = .call rd ∧ start.cfg.errata = false ∧ (0 : Word) = start.reg rd) ∧
    (∃ v, Instr.callI (-1024) = .callI v ∧ start.cfg.relBase = .ownAddress ∧
      (0xFC10 : Word) = start.pc + start.immval v) ∧
    ∃ v, Instr.callI 1023 = .callI v ∧ ({ start with cfg.relBase := .nextInstruction } : State).cfg.relBase = .nextInstruction ∧
      (0x0410 : Word) = start.pc + 1 + start.immval v :=
  ⟨⟨0, rfl, by decide⟩, ⟨-1024, rfl, by decide⟩, ⟨1023, rfl, by decide⟩⟩

theorem witness_ImmLoadsImmediateRegister :
    ({ start with cfg.immAfterCarry := .refuse, uc := true } : State).cfg.immAfterCarry = .refuse ∧
    ({ start with cfg.immAfterCarry := .refuse, uc := true } : State).uc = true ∧
    (({ start with cfg.immAfterCarry := .refuse } : State).cfg.immAfterCarry ≠ .refuse ∨ start.uc = false) ∧
    ((carried start).cfg.immAfterCarry ≠ .refuse ∨ (carried start).uc = false) ∧
    ({ start with cfg.immAfterCarry := .keep } : State).cfg.immAfterCarry = .keep := by
  decide

/-- A data memory of two bytes: the word at 0 is inside, under both byte orders; the word-indexed memory. -/
def small : State := { start with cfg.dmemBytes := 2 }

/-- The premises that the word accesses share, for both forms. -/
theorem witness_LoadReadsWord :
    (((Instr.load 1 2 = .load 1 2 ∧ (0 : Word) = 0) ∨ ∃ n, Instr.load 1 2 = .loadI 1 2 n ∧ (0 : Word) = small.immval4 n) ∧
      (0 : Word) = wordAddress (small.reg 2) 0) ∧
    (((Instr.loadI 1 2 0 = .load 1 2 ∧ (0 : Word) = 0) ∨
      ∃ n, Instr.loadI 1 2 0 = .loadI 1 2 n ∧ (0 : Word) = small.immval4 n) ∧
      (0 : Word) = wordAddress (small.reg 2) 0) ∧
    small.cfg.memModel = .byteAddressed ∧ (0#16).toNat < small.cfg.dmemBytes ∧ (0#16 + 1).toNat < small.cfg.dmemBytes ∧
    small.cfg.byteOrder = .little ∧ ({ small with cfg.byteOrder := .big } : State).cfg.byteOrder = .big ∧
    ({ small with cfg.memModel := .wordIndexed } : State).cfg.memModel = .wordIndexed :=
  ⟨⟨.inl ⟨rfl, rfl⟩, by decide⟩, ⟨.inr ⟨0, rfl, by decide⟩, by decide⟩, by decide⟩

theorem witness_StoreWritesWord :
    (((Instr.store 1 2 = .store 1 2 ∧ (0 : Word) = 0) ∨
      ∃ n, Instr.store 1 2 = .storeI 1 2 n ∧ (0 : Word) = small.immval4 n) ∧
      (0 : Word) = wordAddress (small.reg 2) 0) ∧
    (((Instr.storeI 1 2 0 = .store 1 2 ∧ (0 : Word) = 0) ∨
      ∃ n, Instr.storeI 1 2 0 = .storeI 1 2 n ∧ (0 : Word) = small.immval4 n) ∧
      (0 : Word) = wordAddress (small.reg 2) 0) ∧
    small.cfg.memModel = .byteAddressed ∧ (0#16).toNat < small.cfg.dmemBytes ∧ (0#16 + 1).toNat < small.cfg.dmemBytes ∧
    small.cfg.byteOrder = .little ∧ ({ small with cfg.byteOrder := .big } : State).cfg.byteOrder = .big ∧
    ({ small with cfg.memModel := .wordIndexed } : State).cfg.memModel = .wordIndexed :=
  ⟨⟨.inl ⟨rfl, rfl⟩, by decide⟩, ⟨.inr ⟨0, rfl, by decide⟩, by decide⟩, by decide⟩

/-- The last byte of the memory. -/
theorem witness_LoadbReadsByte :
    (((Instr.loadb 1 2 = .loadb 1 2 ∧ (0 : Word) = 0) ∨
      ∃ n, Instr.loadb 1 2 = .loadbI 1 2 n ∧ (0 : Word) = small.immval4 n) ∧
      (0 : Word) = plainAddress (small.reg 2) 0) ∧
    (((Instr.loadbI 1 2 1 = .loadb 1 2 ∧ (1 : Word) = 0) ∨
      ∃ n, Instr.loadbI 1 2 1 = .loadbI 1 2 n ∧ (1 : Word) = small.immval4 n) ∧
      (1 : Word) = plainAddress (small.reg 2) 1) ∧
    small.cfg.memModel = .byteAddressed ∧ (0#16).toNat < small.cfg.dmemBytes ∧ (1#16).toNat < small.cfg.dmemBytes ∧
    ({ small with cfg.memModel := .wordIndexed } : State).cfg.memModel = .wordIndexed :=
  ⟨⟨.inl ⟨rfl, rfl⟩, by decide⟩, ⟨.inr ⟨1, rfl, by decide⟩, by decide⟩, by decide⟩

theorem witness_StorebWritesByte :
    (((Instr.storeb 1 2 = .storeb 1 2 ∧ (0 : Word) = 0) ∨
      ∃ n, Instr.storeb 1 2 = .storebI 1 2 n ∧ (0 : Word) = small.immval4 n) ∧
      (0 : Word) = plainAddress (small.reg 2) 0) ∧
    (((Instr.storebI 1 2 1 = .storeb 1 2 ∧ (1 : Word) = 0) ∨
      ∃ n, Instr.storebI 1 2 1 = .storebI 1 2 n ∧ (1 : Word) = small.immval4 n) ∧
      (1 : Word) = plainAddress (small.reg 2) 1) ∧
    small.cfg.memModel = .byteAddressed ∧ (0#16).toNat < small.cfg.dmemBytes ∧ (1#16).toNat < small.cfg.dmemBytes ∧
    ({ small with cfg.memModel := .wordIndexed } : State).cfg.memModel = .wordIndexed :=
  ⟨⟨.inl ⟨rfl, rfl⟩, by decide⟩, ⟨.inr ⟨1, rfl, by decide⟩, by decide⟩, by decide⟩

/-- The first word beyond a memory of 2 bytes (offset 1), one whose higher byte alone is beyond a memory of 1 byte, the
first byte beyond, and the word-indexed memory. -/
theorem witness_DataAccessOutsideMemoryStops :
    small.cfg.memModel = .byteAddressed ∧
    ((small.cfg.dmemBytes ≤ (2#16).toNat ∨ small.cfg.dmemBytes ≤ (2#16 + 1).toNat) ∧
      (2 : Word) = wordAddress (small.reg 2) (small.immval4 1)) ∧
    ((({ small with cfg.dmemBytes := 1 } : State).cfg.dmemBytes ≤ (0#16).toNat ∨
      ({ small with cfg.dmemBytes := 1 } : State).cfg.dmemBytes ≤ (0#16 + 1).toNat) ∧
      (0 : Word) = wordAddress (small.reg 2) 0) ∧
    (small.cfg.dmemBytes ≤ (2#16).toNat ∧ (2 : Word) = (withRegs [(2, 2)] small).reg 2) ∧
    (small.cfg.dmemBytes ≤ (2#16).toNat ∧ (2 : Word) = small.reg 2 + small.immval4 2) ∧
    ({ small with cfg.memModel := .wordIndexed } : State).cfg.memModel = .wordIndexed := by
  decide

theorem witness_StoreThenLoadReturnsWord :
    (small.cfg.memModel = .byteAddressed →
      (wordAddress (small.reg 2) 0).toNat < small.cfg.dmemBytes ∧
      (wordAddress (small.reg 2) 0 + 1).toNat < small.cfg.dmemBytes) ∧
    ({ small with cfg.memModel := .wordIndexed } : State).cfg.memModel ≠ .byteAddressed := by
  decide

/-- An even and an odd base, under both byte orders. -/
theorem witness_ByteOrderOfStoredWord :
    small.cfg.memModel = .byteAddressed ∧ (wordAddress (small.reg 2) 0).toNat < small.cfg.dmemBytes ∧
    (wordAddress (small.reg 2) 0 + 1).toNat < small.cfg.dmemBytes ∧
    (wordAddress ((withRegs [(2, 1)] small).reg 2) 0 + 1).toNat < small.cfg.dmemBytes ∧
    (small.cfg.byteOrder = .little ↔ (small.reg 2).toNat % 2 = 0) ∧
    ¬(small.cfg.byteOrder = .little ↔ ((withRegs [(2, 1)] small).reg 2).toNat % 2 = 0) ∧
    ¬(({ small with cfg.byteOrder := .big } : State).cfg.byteOrder = .little ↔ (small.reg 2).toNat % 2 = 0) := by
  decide

/-- With and without a carry, both forms. -/
theorem witness_AddAndSubWriteRegister :
    (1 : Word) = (if (carried start).c then 1 else 0) ∧ (0 : Word) = (if start.c then 1 else 0) ∧
    (0 : Word) = start.reg 2 ∧ (0xFFE0 : Word) = start.immval (-32) := by
  decide

theorem witness_AddcAndSubcLeaveCarry :
    (∃ rs, Instr.addc 1 2 = .addc 1 rs ∧ (0 : Word) = start.reg rs) ∧
    (∃ v, Instr.addcI 1 31 = .addcI 1 v ∧ (31 : Word) = start.immval v) ∧
    (∃ rs, Instr.subc 1 2 = .subc 1 rs ∧ (0 : Word) = start.reg rs) ∧
    ∃ v, Instr.subcI 1 (-32) = .subcI 1 v ∧ (0xFFE0 : Word) = start.immval v :=
  ⟨⟨2, rfl, by decide⟩, ⟨31, rfl, by decide⟩, ⟨2, rfl, by decide⟩, ⟨-32, rfl, by decide⟩⟩

/-- The four limbs of the source's example, V30. -/
theorem witness_AddcChainAddsMultiwordNumbers :
    ([((1 : Reg), (5 : Reg)), (2, 6), (3, 7)] ++ [((4 : Reg), (8 : Reg))]).Pairwise
      (fun p q => q.1 ≠ p.1 ∧ q.2 ≠ p.1) := by
  decide

theorem witness_SubcChainSubtractsMultiwordNumbers :
    ([((1 : Reg), (1 : Reg)), (2, 6)] ++ [((3 : Reg), (3 : Reg))]).Pairwise (fun p q => q.1 ≠ p.1 ∧ q.2 ≠ p.1) := by
  decide

theorem witness_LogicWritesRegister : (0 : Word) = start.reg 2 ∧ (0xFFFF : Word) = start.immval (-1) := by
  decide

/-- The amounts 15 and 16, both forms, under both choices of `SHIFT_MODE`. -/
theorem witness_ShiftsWriteRegister :
    (∃ rs, (15 : Word) = (withRegs [(2, 15)] start).reg rs ∧ Instr.shl 1 2 = .shl 1 rs ∧ Instr.shr 1 2 = .shr 1 rs ∧
      Instr.asr 1 2 = .asr 1 rs) ∧
    (∃ v, (16 : Word) = start.immval v ∧ Instr.shlI 1 16 = .shlI 1 v ∧ Instr.shrI 1 16 = .shrI 1 v ∧
      Instr.asrI 1 16 = .asrI 1 v) ∧
    ((15#16).toNat ≤ 15 ∨ ({ start with cfg.shiftMode := .refuse } : State).cfg.shiftMode = .low4) ∧
    ((16#16).toNat ≤ 15 ∨ start.cfg.shiftMode = .low4) ∧
    15 < (16#16).toNat ∧ ({ start with cfg.shiftMode := .refuse } : State).cfg.shiftMode = .refuse :=
  ⟨⟨2, by decide⟩, ⟨16, by decide⟩, by decide⟩

theorem witness_CompareInstructionsSetSkip : (0 : Word) = start.reg 2 ∧ (0xFFFF : Word) = start.immval (-1) := by
  decide

theorem witness_SxtAndZxtExtendTheByte : start.immv = false := by
  decide

theorem witness_NotAndNegComplement : (carried start).immv = false := by
  decide

/-- The largest constants that do not wrap, signed and unsigned: 32766 and 65534, with an `imm` before the compare. -/
theorem witness_DerivedCompares :
    ((extended 0x7FF start).immval (-1) = 0x7FFF ∧ (0x7FFF : Word) = 0x7FFE + 1 ∧ (0x7FFE#16).toInt < 32767) ∧
    ((extended 0xFFF start).immval 15 = 0xFFFF ∧ (0xFFFF : Word) = 0xFFFE + 1 ∧ (0xFFFE#16).toNat < 65535) := by
  decide

end Sys2Proof.Tests
end

section
/-! SUPPORT. Obligation O59: a program counter of any width against one of 16 bits (spec/00_scope.md R3,
spec/10_state.md R14, log 16). A width shows in one place only, the writing of a pc, so an instruction commutes with
widening the counters as soon as each of its endings does. -/

namespace Sys2Proof.Machine

/-- The machine with program counters of 16 bits. -/
def State.widenPcs (s : State) : State := { s with cfg := { s.cfg with pcWidth := 16 } }

/-- The machine with the parameters `cfg`, and of its program counters the bits that those parameters give them. -/
def State.narrowTo (cfg : Params) (t : State) : State := State.narrowPcs { t with cfg := cfg }

/-- The program counters hold no bit beyond their width. -/
def State.PcsFit (s : State) : Prop := ∀ m, pcBits s.cfg.pcWidth (s.pcOf m) = s.pcOf m

/-! ## Counters that fit -/

theorem State.PcsFit.congr {s u : State} (h : s.PcsFit) (hc : u.cfg = s.cfg) (hp : ∀ m, u.pcOf m = s.pcOf m) :
    u.PcsFit := by
  intro m
  rw [hc, hp, h m]

theorem State.PcsFit.setReg {s : State} (h : s.PcsFit) (rd : Reg) (v : Word) : (s.setReg rd v).PcsFit :=
  h.congr rfl (State.pcOf_setReg s rd v)

theorem State.PcsFit.setByte {s : State} (h : s.PcsFit) (a : Word) (v : Byte) : (s.setByte a v).PcsFit :=
  h.congr rfl (State.pcOf_setByte s a v)

theorem State.PcsFit.setIndexedWord {s : State} (h : s.PcsFit) (a v : Word) : (s.setIndexedWord a v).PcsFit :=
  h.congr rfl (State.pcOf_setIndexedWord s a v)

theorem State.PcsFit.clearPrefix {s : State} (h : s.PcsFit) : s.clearPrefix.PcsFit :=
  h.congr rfl (State.pcOf_clearPrefix s)

theorem State.narrowPcs_of_pcsFit {s : State} (h : s.PcsFit) : s.narrowPcs = s := by
  have hu : pcBits s.cfg.pcWidth s.user.pc = s.user.pc := h .user
  have hk : pcBits s.cfg.pcWidth s.kernel.pc = s.kernel.pc := h .kernel
  rw [State.narrowPcs, hu, hk]

theorem State.narrowPcs_setBank (s : State) (m : Mode) (b : Bank) :
    (s.setBank m b).narrowPcs = s.narrowPcs.setBank m { b with pc := pcBits s.cfg.pcWidth b.pc } := by
  cases m <;> rfl

/-! ## The endings of an instruction -/

section Endings

variable {s : State} (h : s.PcsFit)
include h

theorem State.narrowTo_widenPcs : State.narrowTo s.cfg s.widenPcs = s := State.narrowPcs_of_pcsFit h

/-- The one place where the width shows: 16 bits of a target are written, and then cut to the width. -/
theorem State.narrowTo_setPc (t : Word) : State.narrowTo s.cfg (s.widenPcs.setPc t) = s.setPc t := by
  have hwide : pcBits 16 t = t := pcBits_of_ge (le_refl 16) t
  calc State.narrowTo s.cfg (s.widenPcs.setPc t)
      = (s.setBank s.k { s.bank s.k with pc := pcBits 16 t }).narrowPcs := rfl
    _ = s.setPc t := by
      rw [State.narrowPcs_setBank, State.narrowPcs_of_pcsFit h, hwide]
      rfl

theorem State.narrowTo_advance : State.narrowTo s.cfg s.widenPcs.advance = s.advance :=
  State.narrowTo_setPc h (s.pc + 1)

theorem State.narrowTo_finish : State.narrowTo s.cfg s.widenPcs.finish = s.finish :=
  State.narrowTo_advance h.clearPrefix

theorem State.narrowTo_finishAt (t : Word) : State.narrowTo s.cfg (s.widenPcs.finishAt t) = s.finishAt t :=
  State.narrowTo_setPc h.clearPrefix t

theorem State.narrowTo_finishCarry (c : Bool) : State.narrowTo s.cfg (s.widenPcs.finishCarry c) = s.finishCarry c :=
  State.narrowTo_advance (s := { s with immv := false, c := c, uc := true }) h

theorem State.narrowTo_finishCompare (b : Bool) :
    State.narrowTo s.cfg (s.widenPcs.finishCompare b) = s.finishCompare b :=
  State.narrowTo_finish (s := { s with skip := !b }) h

theorem State.narrowTo_switchMode : State.narrowTo s.cfg s.widenPcs.switchMode = s.switchMode :=
  congrArg (fun t : State => { t with k := otherMode s.k }) (State.narrowTo_finish h)

end Endings

/-! ## The shared operations -/

/-- An operation does on counters of any width what it does on counters of 16 bits, but for the bits that the counters
do not have. -/
def WidthOnlyNarrows (f : State → Result) : Prop :=
  ∀ s : State, s.PcsFit → f s = mapNext (State.narrowTo s.cfg) (f s.widenPcs)

/-- An ending that narrows to another is the outcome that the statement asks for. -/
theorem next_eq_mapNext {s t u : State} (h : State.narrowTo s.cfg u = t) :
    (.next t : Result) = mapNext (State.narrowTo s.cfg) (.next u) :=
  congrArg _ h.symm

theorem State.writeBack_eq_mapNext {s : State} (h : s.PcsFit) (rd : Reg) (v : Word) :
    s.writeBack rd v = mapNext (State.narrowTo s.cfg) (s.widenPcs.writeBack rd v) :=
  next_eq_mapNext (State.narrowTo_finish (h.setReg rd v))

theorem callTo_widthOnlyNarrows (target : Word) : WidthOnlyNarrows (callTo target) :=
  fun s h => next_eq_mapNext (State.narrowTo_finishAt (h.setReg 0 (s.pc + 1)) target)

theorem loadConstant_widthOnlyNarrows (rd : Reg) (a : Word) : WidthOnlyNarrows (loadConstant rd a) := by
  intro s h
  have hp : s.widenPcs.pmemRead a = s.pmemRead a := rfl
  have hc : s.widenPcs.cfg.unimpl = s.cfg.unimpl := rfl
  rw [loadConstant, loadConstant, hp, hc]
  cases s.cfg.unimpl with
  | refuse => rfl
  | asDocumented =>
    cases s.pmemRead a with
    | ok v => exact State.writeBack_eq_mapNext h rd v
    | error f => rfl

theorem execImm_widthOnlyNarrows (v : BitVec 12) : WidthOnlyNarrows (execImm v) := by
  intro s h
  have hc : s.widenPcs.cfg.immAfterCarry = s.cfg.immAfterCarry := rfl
  have huc : s.widenPcs.uc = s.uc := rfl
  have hclear : State.PcsFit { s with imm := v, immv := true, c := false, uc := false } := h
  have hkeep : State.PcsFit { s with imm := v, immv := true } := h
  rw [execImm, execImm, hc, huc]
  cases s.cfg.immAfterCarry with
  | clear => exact next_eq_mapNext (State.narrowTo_advance hclear)
  | keep => exact next_eq_mapNext (State.narrowTo_advance hkeep)
  | refuse =>
    cases s.uc with
    | true => rfl
    | false => exact next_eq_mapNext (State.narrowTo_advance hclear)

/-- The shape that `shiftLeft`, `shiftRight` and `shiftRightSigned` share, `f` giving the shifted value:
`SHIFT_MODE` and the amount alone decide whether it is refused. -/
theorem shift_eq_mapNext (rd : Reg) (b : Word) {s : State} (h : s.PcsFit) (f : Nat → Word) :
    (match shiftAmount s.cfg.shiftMode b with
      | some n => s.writeBack rd (f n)
      | none => .refused .shiftAmount) =
    mapNext (State.narrowTo s.cfg)
      (match shiftAmount s.cfg.shiftMode b with
      | some n => s.widenPcs.writeBack rd (f n)
      | none => .refused .shiftAmount) := by
  cases shiftAmount s.cfg.shiftMode b with
  | some n => exact State.writeBack_eq_mapNext h rd (f n)
  | none => rfl

theorem loadWord_widthOnlyNarrows (rd : Reg) (base off : Word) : WidthOnlyNarrows (loadWord rd base off) := by
  intro s h
  have hm : s.widenPcs.cfg.memModel = s.cfg.memModel := rfl
  have hr : ∀ a, s.widenPcs.memReadWord a = s.memReadWord a := fun _ => rfl
  rw [loadWord, loadWord, hm, hr]
  cases s.cfg.memModel with
  | byteAddressed =>
    cases s.memReadWord (wordAddress base off) with
    | ok v => exact State.writeBack_eq_mapNext h rd v
    | error f => rfl
  | wordIndexed => exact State.writeBack_eq_mapNext h rd _

theorem loadByte_widthOnlyNarrows (rd : Reg) (base off : Word) : WidthOnlyNarrows (loadByte rd base off) := by
  intro s h
  have hm : s.widenPcs.cfg.memModel = s.cfg.memModel := rfl
  have hr : ∀ a, s.widenPcs.memReadByte a = s.memReadByte a := fun _ => rfl
  rw [loadByte, loadByte, hm, hr]
  cases s.cfg.memModel with
  | byteAddressed =>
    cases s.memReadByte (plainAddress base off) with
    | ok v => exact State.writeBack_eq_mapNext h rd _
    | error f => rfl
  | wordIndexed => rfl

theorem State.memWriteWord_widenPcs (s : State) (a v : Word) :
    s.widenPcs.memWriteWord a v = (s.memWriteWord a v).map State.widenPcs := by
  rw [State.memWriteWord, State.memWriteWord, apply_ite (Except.map State.widenPcs)]
  rfl

theorem State.memWriteByte_widenPcs (s : State) (a : Word) (v : Byte) :
    s.widenPcs.memWriteByte a v = (s.memWriteByte a v).map State.widenPcs := by
  rw [State.memWriteByte, State.memWriteByte, apply_ite (Except.map State.widenPcs)]
  rfl

theorem storeWord_widthOnlyNarrows (rd : Reg) (base off : Word) : WidthOnlyNarrows (storeWord rd base off) := by
  intro s h
  have hm : s.widenPcs.cfg.memModel = s.cfg.memModel := rfl
  have hr : s.widenPcs.reg rd = s.reg rd := rfl
  rw [storeWord, storeWord, hm, hr, State.memWriteWord_widenPcs]
  cases s.cfg.memModel with
  | byteAddressed =>
    cases hw : s.memWriteWord (wordAddress base off) (s.reg rd) with
    | ok t =>
      obtain ⟨-, rfl⟩ := State.memWriteWord_ok hw
      exact next_eq_mapNext (State.narrowTo_finish ((h.setByte _ _).setByte _ _))
    | error f => rfl
  | wordIndexed => exact next_eq_mapNext (State.narrowTo_finish (h.setIndexedWord _ _))

theorem storeByte_widthOnlyNarrows (rd : Reg) (base off : Word) : WidthOnlyNarrows (storeByte rd base off) := by
  intro s h
  have hm : s.widenPcs.cfg.memModel = s.cfg.memModel := rfl
  have hr : s.widenPcs.reg rd = s.reg rd := rfl
  rw [storeByte, storeByte, hm, hr, State.memWriteByte_widenPcs]
  cases s.cfg.memModel with
  | byteAddressed =>
    cases hw : s.memWriteByte (plainAddress base off) ((s.reg rd).setWidth 8) with
    | ok t =>
      obtain ⟨-, rfl⟩ := State.memWriteByte_ok hw
      exact next_eq_mapNext (State.narrowTo_finish (h.setByte _ _))
    | error f => rfl
  | wordIndexed => rfl

/-! ## The instructions -/

theorem execRcsr_widthOnlyNarrows (rd : Reg) : WidthOnlyNarrows (execRcsr rd) := by
  intro s h
  have he : s.widenPcs.cfg.errata = s.cfg.errata := rfl
  rw [execRcsr, execRcsr, he]
  cases s.cfg.errata with
  | true => exact next_eq_mapNext (State.narrowTo_finishAt h (s.reg rd))
  | false => rfl

theorem execJump_widthOnlyNarrows (rd : Reg) : WidthOnlyNarrows (execJump rd) := by
  intro s h
  have he : s.widenPcs.cfg.errata = s.cfg.errata := rfl
  rw [execJump, execJump, he]
  cases s.cfg.errata with
  | true => rfl
  | false => exact next_eq_mapNext (State.narrowTo_finishAt h (s.reg rd))

theorem execCall_widthOnlyNarrows (rd : Reg) : WidthOnlyNarrows (execCall rd) := by
  intro s h
  have he : s.widenPcs.cfg.errata = s.cfg.errata := rfl
  rw [execCall, execCall, he]
  cases s.cfg.errata with
  | true => exact callTo_widthOnlyNarrows (s.pc + s.reg rd) s h
  | false => exact callTo_widthOnlyNarrows (s.reg rd) s h

/-- Every instruction ends in one of the ways above, on operands that do not depend on the width. -/
theorem exec_widthOnlyNarrows (i : Instr) : WidthOnlyNarrows (exec i) := by
  intro s h
  cases i with
  | nop | nopOp9 | nopOp11 => exact next_eq_mapNext (State.narrowTo_finish h)
  | rets => exact next_eq_mapNext (State.narrowTo_switchMode h)
  | error => exact next_eq_mapNext (State.narrowTo_widenPcs (s := { s.clearPrefix with error := true }) h)
  | halt => exact next_eq_mapNext (State.narrowTo_widenPcs (s := { s.clearPrefix with halt := true }) h)
  | rcsr rd => exact execRcsr_widthOnlyNarrows rd s h
  | wcsr => rfl
  | loadc rd rs => exact loadConstant_widthOnlyNarrows rd (s.reg rs) s h
  | loadcI rd v => exact loadConstant_widthOnlyNarrows rd (s.pc + s.immval v) s h
  | jump rd => exact execJump_widthOnlyNarrows rd s h
  | jumpI v => exact next_eq_mapNext (State.narrowTo_finishAt h (s.relativeTarget v))
  | call rd => exact execCall_widthOnlyNarrows rd s h
  | callI v => exact callTo_widthOnlyNarrows (s.relativeTarget v) s h
  | imm v => exact execImm_widthOnlyNarrows v s h
  | load rd rs => exact loadWord_widthOnlyNarrows rd (s.reg rs) 0 s h
  | loadI rd rs n => exact loadWord_widthOnlyNarrows rd (s.reg rs) (s.immval4 n) s h
  | store rd rs => exact storeWord_widthOnlyNarrows rd (s.reg rs) 0 s h
  | storeI rd rs n => exact storeWord_widthOnlyNarrows rd (s.reg rs) (s.immval4 n) s h
  | loadb rd rs => exact loadByte_widthOnlyNarrows rd (s.reg rs) 0 s h
  | loadbI rd rs n => exact loadByte_widthOnlyNarrows rd (s.reg rs) (s.immval4 n) s h
  | storeb rd rs => exact storeByte_widthOnlyNarrows rd (s.reg rs) 0 s h
  | storebI rd rs n => exact storeByte_widthOnlyNarrows rd (s.reg rs) (s.immval4 n) s h
  | move rd rs | moveI rd v | add rd rs | addI rd v | sub rd rs | subI rd v | xor rd rs | xorI rd v | and rd rs
  | andI rd v | or rd rs | orI rd v => exact State.writeBack_eq_mapNext h rd _
  | addc rd rs | addcI rd v | subc rd rs | subcI rd v =>
    exact next_eq_mapNext (State.narrowTo_finishCarry (h.setReg rd _) _)
  | shl rd rs => exact shift_eq_mapNext rd (s.reg rs) h _
  | shlI rd v => exact shift_eq_mapNext rd (s.immval v) h _
  | shr rd rs => exact shift_eq_mapNext rd (s.reg rs) h _
  | shrI rd v => exact shift_eq_mapNext rd (s.immval v) h _
  | asr rd rs => exact shift_eq_mapNext rd (s.reg rs) h _
  | asrI rd v => exact shift_eq_mapNext rd (s.immval v) h _
  | ifEq rd rs | ifEqI rd v | ifNe rd rs | ifNeI rd v | ifLt rd rs | ifLtI rd v | ifGe rd rs | ifGeI rd v
  | ifUlt rd rs | ifUltI rd v | ifUge rd rs | ifUgeI rd v => exact next_eq_mapNext (State.narrowTo_finishCompare h _)

theorem State.pc_setPc (s : State) (v : Word) : (s.setPc v).pc = pcBits s.cfg.pcWidth v := by
  simp [State.pc, State.pcOf_setPc]

/-- Settles O59: a written pc is cut to the width, and each ending of an instruction commutes with that cut. -/
theorem programCounterWidth : Obligations.ProgramCounterWidth := by
  refine ⟨fun s v => ⟨?_, fun hw => ?_⟩, exec_widthOnlyNarrows⟩
  · rw [State.pc_setPc, pcBits_toNat]
  · rw [State.pc_setPc, pcBits_of_ge hw]

end Sys2Proof.Machine
end

section
/-! SUPPORT. The instruction cycle case by case (spec/10_state.md R24), and obligations O9, O10 and O30: a step is named
by what the fetched word and the flags say. -/

namespace Sys2Proof.Machine

/-! ## The cases of a cycle without a reset -/

/-- The machine after a cycle that skips an instruction, with what is left in S. -/
def State.skipped (s : State) (skip : Bool) : State := { s.tick with skip := skip }.setPc (s.pc + 1)

theorem step_stopped {s : State} (hr : s.input.reset = false) (hs : s.halt = true ∨ s.error = true) :
    step s = .next s.tick := by
  have ha : s.action = .stopped := by simp [State.action, hr, hs]
  simp only [step, ha]

section Running

variable {s : State} (hr : s.input.reset = false) (hh : s.halt = false) (he : s.error = false)
include hr hh he

theorem step_fetchFault {f : Fault} (hp : s.pmemRead s.pc = .error f) : step s = .fault f := by
  have ha : s.action = .fetchFault f := by simp [State.action, hr, hh, he, hp]
  simp only [step, ha]

variable {w : Word} (hp : s.pmemRead s.pc = .ok w)
include hp

theorem step_skip (hs : s.skip = true) : step s = .next (s.skipped (decode w).isPrefixing) := by
  have ha : s.action = .skip (decode w) := by simp [State.action, hr, hh, he, hp, hs]
  have hskip : s.tick.skipOver (decode w) = s.skipped (decode w).isPrefixing := by
    rw [State.skipOver, State.tick_skip, hs, Bool.true_and]
    rfl
  simp only [step, ha, hskip]

theorem step_interrupt (hs : s.skip = false) (hi : s.interruptTaken (decode w) = true) :
    step s = .next s.tick.takeInterrupt := by
  have ha : s.action = .interrupt := by simp [State.action, hr, hh, he, hp, hs, hi]
  simp only [step, ha]

theorem step_execute (hs : s.skip = false) (hi : s.interruptTaken (decode w) = false) :
    step s = exec (decode w) s.tick := by
  have ha : s.action = .execute (decode w) := by simp [State.action, hr, hh, he, hp, hs, hi]
  simp only [step, ha]

end Running

theorem State.interruptTaken_iff (s : State) (i : Instr) :
    s.interruptTaken i = true ↔ s.k = .user ∧ s.input.irq = true ∧ s.ie = true ∧ s.interruptible i = true := by
  simp [State.interruptTaken, and_assoc]

theorem State.interruptible_iff (s : State) (i : Instr) :
    s.interruptible i = true ↔ s.immv = false ∧ s.uc = false ∧ i.isPrefixing = false := by
  simp [State.interruptible, and_assoc]

theorem State.pmemRead_of_lt {s : State} {a : Word} (h : a.toNat < s.cfg.pmemWords) :
    s.pmemRead a = .ok (s.programWordAt a) := by
  rw [State.pmemRead, if_pos h]

theorem State.pmemRead_of_le {s : State} {a : Word} (h : s.cfg.pmemWords ≤ a.toNat) :
    s.pmemRead a = .error .outsideProgramMemory := by
  rw [State.pmemRead, if_neg (Nat.not_lt.mpr h)]

/-- Settles O9: what is not interrupted is executed. -/
theorem stepRunsTheDecodedInstruction : Obligations.StepRunsTheDecodedInstruction := by
  rintro s w i hr hh he hp rfl hs hni
  have hi : s.interruptTaken (decode w) = false := by
    rw [← Bool.not_eq_true, State.interruptTaken_iff, State.interruptible_iff]
    exact hni
  exact step_execute hr hh he hp hs hi

/-- Settles O10: each clause is one case of the cycle. -/
theorem instructionCycleOrder : Obligations.InstructionCycleOrder := by
  rintro s t hr rfl
  refine ⟨step_stopped hr, fun hh he => ⟨fun hout => ?_, ?_⟩⟩
  · exact step_fetchFault hr hh he (State.pmemRead_of_le hout)
  · rintro d hin rfl
    have hp := State.pmemRead_of_lt hin
    refine ⟨fun hs => ?_, fun hs hk hirq hie hint => ?_, fun hs hni => ?_⟩
    · exact step_skip hr hh he hp hs
    · exact step_interrupt hr hh he hp hs ((State.interruptTaken_iff s _).mpr ⟨hk, hirq, hie, hint⟩)
    · have hi : s.interruptTaken (decode (s.programWordAt s.pc)) = false := by
        rwa [← Bool.not_eq_true, State.interruptTaken_iff]
      exact step_execute hr hh he hp hs hi

/-! ## The first instruction after reset -/

theorem State.programWordAt_withFetchWord_pc (s : State) (w : Word) :
    (s.withFetchWord 16 w.toNat).programWordAt s.pc = w := by
  have hw : BitVec.ofNat 16 (w.toNat % 2 ^ 16) = w := by
    rw [Nat.mod_eq_of_lt w.isLt, BitVec.ofNat_toNat, BitVec.setWidth_eq]
  simp only [State.withFetchWord, State.programWordAt, Cells.read?_write_same, Option.getD_some, hw]

/-- Settles O30: the placed word stands at the pc, inside the default program memory, and no request is pending. -/
theorem placedWordRunsFirst : Obligations.PlacedWordRunsFirst := by
  intro w
  have hin : State.reset.pc.toNat < State.reset.cfg.pmemWords := by decide
  have hp : (State.reset.withFetchWord 16 w.toNat).pmemRead State.reset.pc = .ok w := by
    rw [State.pmemRead_of_lt (s := State.reset.withFetchWord 16 w.toNat) hin, State.programWordAt_withFetchWord_pc]
  exact step_execute rfl rfl rfl hp rfl rfl

end Sys2Proof.Machine
end

section
/-! SUPPORT. What every executed instruction leaves unchanged, read off the shapes of a next state, and obligations O16,
O20, O23, O27 and O31. -/

namespace Sys2Proof.Machine

/-! ## Banks after the named operations -/

theorem State.bank_setReg_of_ne (s : State) (rd : Reg) (v : Word) {m : Mode} (h : m ≠ s.k) :
    (s.setReg rd v).bank m = s.bank m :=
  State.bank_setBank_of_ne s h _

theorem State.bank_setPc_of_ne (s : State) (v : Word) {m : Mode} (h : m ≠ s.k) : (s.setPc v).bank m = s.bank m :=
  State.bank_setBank_of_ne s h _

theorem State.bank_congr {s t : State} (hu : t.user = s.user) (hk : t.kernel = s.kernel) (m : Mode) :
    t.bank m = s.bank m := by
  cases m
  · exact hu
  · exact hk

theorem State.bank_finish_of_ne (s : State) {m : Mode} (h : m ≠ s.k) : s.finish.bank m = s.bank m :=
  (State.bank_setPc_of_ne s.clearPrefix _ h).trans (State.bank_congr rfl rfl m)

theorem State.bank_finishAt_of_ne (s : State) (target : Word) {m : Mode} (h : m ≠ s.k) :
    (s.finishAt target).bank m = s.bank m :=
  (State.bank_setPc_of_ne s.clearPrefix _ h).trans (State.bank_congr rfl rfl m)

theorem State.bank_finishCarry_of_ne (s : State) (c : Bool) {m : Mode} (h : m ≠ s.k) :
    (s.finishCarry c).bank m = s.bank m :=
  (State.bank_setPc_of_ne _ _ h).trans (State.bank_congr rfl rfl m)

theorem State.bank_skipOver_of_ne (s : State) (i : Instr) {m : Mode} (h : m ≠ s.k) :
    (s.skipOver i).bank m = s.bank m :=
  (State.bank_congr rfl rfl m).trans (State.bank_setPc_of_ne s (s.pc + 1) h)

/-! ## What an executed instruction leaves -/

theorem ExecShape.eq_rets {i : Instr} {s t : State} (h : ExecShape i s t) (hne : t.k ≠ s.k) : i = .rets := by
  cases h with
  | rets => rfl
  | _ => exact absurd rfl hne

theorem ExecShape.eq_halt {i : Instr} {s t : State} (h : ExecShape i s t) (hne : t.halt ≠ s.halt) : i = .halt := by
  cases h with
  | halt => rfl
  | _ => exact absurd rfl hne

theorem ExecShape.eq_error {i : Instr} {s t : State} (h : ExecShape i s t) (hne : t.error ≠ s.error) : i = .error := by
  cases h with
  | error => rfl
  | _ => exact absurd rfl hne

/-- The inactive bank is out of an instruction's reach (R12). -/
theorem ExecShape.bank_of_ne {i : Instr} {s t : State} (h : ExecShape i s t) {m : Mode} (hm : m ≠ s.k) :
    t.bank m = s.bank m := by
  cases h with
  | moveOn => exact State.bank_finish_of_ne s hm
  | rets => exact (State.bank_congr rfl rfl m).trans (State.bank_finish_of_ne s hm)
  | halt | error => exact State.bank_congr rfl rfl m
  | writeBack rd v => exact (State.bank_finish_of_ne (s.setReg rd v) hm).trans (State.bank_setReg_of_ne s rd v hm)
  | carry rd v c => exact (State.bank_finishCarry_of_ne (s.setReg rd v) c hm).trans (State.bank_setReg_of_ne s rd v hm)
  | jump target => exact State.bank_finishAt_of_ne s target hm
  | call target =>
    exact (State.bank_finishAt_of_ne (s.setReg 0 (s.pc + 1)) target hm).trans (State.bank_setReg_of_ne s 0 _ hm)
  | imm | compare => exact (State.bank_setPc_of_ne _ _ hm).trans (State.bank_congr rfl rfl m)
  | storeByte a v => exact (State.bank_finish_of_ne (s.setByte a v) hm).trans (State.bank_congr rfl rfl m)
  | storeWord a v w =>
    exact (State.bank_finish_of_ne ((s.setByte a v).setByte (a + 1) w) hm).trans (State.bank_congr rfl rfl m)
  | storeIndexed a v => exact (State.bank_finish_of_ne (s.setIndexedWord a v) hm).trans (State.bank_congr rfl rfl m)

theorem ExecShape.keepsSetting {i : Instr} {s t : State} (h : ExecShape i s t) : KeepsSetting s t := by
  cases h <;> exact .refl_of rfl rfl rfl rfl rfl

theorem ExecShape.keepsDataMemory {i : Instr} {s t : State} (h : ExecShape i s t) (hi : i.isStore = false) :
    KeepsDataMemory s t := by
  cases h with
  | storeByte _ _ h | storeWord _ _ _ h | storeIndexed _ _ h =>
    obtain ⟨_, _, rfl⟩ | ⟨_, _, _, rfl⟩ := h <;> cases hi
  | _ => exact .refl_of rfl rfl rfl

/-! ## The end of an instruction, by class (R25) -/

theorem ExecShape.imm_effect {v : BitVec 12} {s t : State} (h : ExecShape (.imm v) s t) :
    t.immv = true ∧ t.imm = v ∧ (s.cfg.immAfterCarry = .keep → t.c = s.c ∧ t.uc = s.uc) ∧
      (s.cfg.immAfterCarry ≠ .keep → t.c = false ∧ t.uc = false) := by
  cases h with
  | imm _ c uc hk hn => exact ⟨rfl, rfl, hk, hn⟩
  | writeBack _ _ h => cases h.1
  | compare _ h => cases h
  | moveOn h | carry _ _ _ h | jump _ h | call _ h | storeByte _ _ h | storeWord _ _ _ h | storeIndexed _ _ h =>
    simp at h

theorem exec_carry_pending {i : Instr} {s t : State} (h : exec i s = .next t) (hi : i.isPrefixing = true)
    (hne : ∀ v, i ≠ .imm v) : t.immv = false ∧ t.uc = true := by
  cases i with
  | addc | addcI | subc | subcI => cases h; exact ⟨rfl, rfl⟩
  | imm v => exact absurd rfl (hne v)
  | _ => cases hi

theorem ExecShape.prefixCleared {i : Instr} {s t : State} (h : ExecShape i s t) (hi : i.isPrefixing = false) :
    PrefixCleared t := by
  cases h with
  | carry _ _ _ h => obtain ⟨_, _, rfl⟩ | ⟨_, _, rfl⟩ | ⟨_, _, rfl⟩ | ⟨_, _, rfl⟩ := h <;> cases hi
  | imm => cases hi
  | _ => exact ⟨rfl, rfl, rfl⟩

theorem ExecShape.pcOf_advanced {i : Instr} {s t : State} (h : ExecShape i s t) (hi : i.setsPc = false) :
    t.pcOf s.k = pcBits s.cfg.pcWidth (s.pcOf s.k + 1) := by
  cases h with
  | rets | halt | error => cases hi
  | jump _ h => obtain ⟨_, rfl⟩ | ⟨_, rfl⟩ | ⟨_, rfl⟩ := h <;> cases hi
  | call _ h => obtain ⟨_, rfl⟩ | ⟨_, rfl⟩ := h <;> cases hi
  | moveOn | compare => simp [State.pcOf_finish, State.pcOf_finishCompare, State.pc]
  | writeBack | storeByte | storeWord | storeIndexed => simp [State.pcOf_finish, State.pc]
  | carry => simp [State.pcOf_finishCarry, State.pc]
  | imm => exact (State.pcOf_advance _ s.k).trans (if_pos rfl)

/-- Settles O16, clause by clause: `imm`, the other prefixing instructions, the regular ones, then the pc. -/
theorem epilogueByClass : Obligations.EpilogueByClass := by
  intro i s t h
  have hs := exec_shape h
  refine ⟨?_, exec_carry_pending h, hs.prefixCleared, hs.pcOf_advanced, ?_⟩
  · rintro v rfl
    exact hs.imm_effect
  · rintro (rfl | rfl) <;> cases h <;> exact State.pcOf_congr rfl rfl s.k

/-- Settles O31. -/
theorem onlyStoresWriteDataMemory : Obligations.OnlyStoresWriteDataMemory := fun _ _ _ h =>
  ⟨(exec_shape h).keepsSetting, (exec_shape h).keepsDataMemory⟩

/-! ## What a cycle leaves -/

/-- Settles O20: a skip moves the active pc, an interrupt moves none, and an instruction keeps the other bank. -/
theorem inactiveBankUnchanged : Obligations.InactiveBankUnchanged := by
  intro s t hr h
  have hm := otherMode_ne s.k
  have htick : s.tick.bank (otherMode s.k) = s.bank (otherMode s.k) := State.bank_congr rfl rfl _
  obtain ⟨hr', -⟩ | ⟨-, -, rfl⟩ | ⟨-, -, -, w, -, ⟨-, -, rfl⟩ | ⟨-, -, -, rfl⟩ | ⟨-, -, -, he⟩⟩ := step_cases h
  · rw [hr] at hr'; cases hr'
  · exact htick
  · exact (State.bank_skipOver_of_ne s.tick _ hm).trans htick
  · exact (State.bank_congr rfl rfl _).trans htick
  · exact ((exec_shape he).bank_of_ne hm).trans htick

/-- Settles O23: of the cycles only an interrupt and an executed instruction can change K, and of those `rets` alone. -/
theorem modeWrittenByRetsAndInterruptOnly : Obligations.ModeWrittenByRetsAndInterruptOnly := by
  intro s t hr h hk
  obtain ⟨hr', -⟩ | ⟨-, -, rfl⟩ | ⟨-, -, -, w, -, ⟨-, -, rfl⟩ | ⟨-, hi, ha, rfl⟩ | ⟨-, -, ha, he⟩⟩ := step_cases h
  · rw [hr] at hr'; cases hr'
  · exact absurd rfl hk
  · exact absurd rfl hk
  · exact .inr ⟨ha, ((State.interruptTaken_iff s _).mp hi).1, rfl⟩
  · rw [(exec_shape he).eq_rets hk] at ha
    exact .inl ha

/-- Without a reset only an executed `halt` changes the halt line, and only an executed `error` the error line. -/
theorem line_written {s t : State} (hr : s.input.reset = false) (h : step s = .next t) :
    (t.halt ≠ s.halt → s.action = .execute .halt) ∧ (t.error ≠ s.error → s.action = .execute .error) := by
  obtain ⟨hr', -⟩ | ⟨-, -, rfl⟩ | ⟨-, -, -, w, -, ⟨-, -, rfl⟩ | ⟨-, -, -, rfl⟩ | ⟨-, -, ha, he⟩⟩ := step_cases h
  · rw [hr] at hr'; cases hr'
  · exact ⟨absurd rfl, absurd rfl⟩
  · exact ⟨absurd rfl, absurd rfl⟩
  · exact ⟨absurd rfl, absurd rfl⟩
  · rw [ha]
    exact ⟨fun hne => congrArg _ ((exec_shape he).eq_halt hne), fun hne => congrArg _ ((exec_shape he).eq_error hne)⟩

/-- Settles O27: a machine with a line up only ticks, and no other cycle lowers a line, since none was up. -/
theorem stoppedUntilReset : Obligations.StoppedUntilReset := by
  refine ⟨?_, ?_, fun s hs hr => step_stopped hr hs, fun s t hr h => ?_, fun s t hr h => line_written hr h⟩
  · intro s t h
    cases h
    exact ⟨rfl, State.pcOf_congr rfl rfl s.k⟩
  · intro s t h
    cases h
    exact ⟨rfl, State.pcOf_congr rfl rfl s.k⟩
  · have hkeep : s.halt = true ∨ s.error = true → t = s.tick := fun hs => by
      rw [step_stopped hr hs] at h
      cases h
      rfl
    refine ⟨fun hh => ?_, fun he => ?_⟩
    · rw [hkeep (.inl hh)]
      exact hh
    · rw [hkeep (.inr he)]
      exact he

end Sys2Proof.Machine
end

section
/-! SUPPORT. The machine's invariant (spec/10_state.md R20, R23; D33): each named operation keeps it, so every step does,
and obligations O17, O18 and O19. -/

namespace Sys2Proof.Machine

/-! ## The operations -/

theorem State.Inv.tick {s : State} (h : s.Inv) : s.tick.Inv := { h with pc_fits := h.pc_fits }

theorem State.Inv.takeInterrupt {s : State} (h : s.Inv) : s.takeInterrupt.Inv := { h with pc_fits := h.pc_fits }

theorem State.Inv.setReg {s : State} (h : s.Inv) (rd : Reg) (v : Word) : (s.setReg rd v).Inv :=
  { h with pc_fits := State.PcsFit.setReg h.pc_fits rd v }

theorem State.Inv.setPc {s : State} (h : s.Inv) (v : Word) : (s.setPc v).Inv :=
  { h with pc_fits := State.setPc_fits v h.pc_fits }

theorem State.Inv.setByte {s : State} (h : s.Inv) (a : Word) (v : Byte) : (s.setByte a v).Inv :=
  { h with mem_wf := State.setByte_wf s a v h.mem_wf, pc_fits := State.PcsFit.setByte h.pc_fits a v }

theorem State.Inv.setIndexedWord {s : State} (h : s.Inv) (a v : Word) : (s.setIndexedWord a v).Inv :=
  { h with memw_wf := State.setIndexedWord_wf s a v h.memw_wf, pc_fits := State.PcsFit.setIndexedWord h.pc_fits a v }

/-- Where nothing is pending S is free. -/
theorem State.Inv.clearPrefix_withSkip {s : State} (h : s.Inv) (b : Bool) : State.Inv { s.clearPrefix with skip := b } :=
  { h with carry_pending := fun _ => rfl, skip_clean := fun _ => ⟨rfl, rfl, rfl⟩, pc_fits := h.pc_fits }

theorem State.Inv.clearPrefix {s : State} (h : s.Inv) : s.clearPrefix.Inv := h.clearPrefix_withSkip s.skip

/-- Outside a skip IMMV, C and UC are free, but that C = 1 needs UC = 1. -/
theorem State.Inv.withPrefix {s : State} (h : s.Inv) (hs : s.skip = false) (imm : BitVec 12) (immv : Bool) {c uc : Bool}
    (hc : uc = false → c = false) : State.Inv { s with imm := imm, immv := immv, c := c, uc := uc } :=
  { h with
    carry_pending := hc
    skip_clean := fun hs' => absurd (hs.symm.trans hs') Bool.false_ne_true
    pc_fits := h.pc_fits }

theorem State.Inv.finish {s : State} (h : s.Inv) : s.finish.Inv := h.clearPrefix.setPc _

theorem State.Inv.finishAt {s : State} (h : s.Inv) (target : Word) : (s.finishAt target).Inv := h.clearPrefix.setPc target

theorem State.Inv.finishCarry {s : State} (h : s.Inv) (hs : s.skip = false) (c : Bool) : (s.finishCarry c).Inv :=
  (h.withPrefix hs s.imm false (c := c) (uc := true) nofun).setPc _

theorem State.Inv.finishCompare {s : State} (h : s.Inv) (b : Bool) : (s.finishCompare b).Inv :=
  (h.clearPrefix_withSkip !b).setPc _

theorem State.Inv.switchMode {s : State} (h : s.Inv) : s.switchMode.Inv :=
  { h.finish with pc_fits := h.finish.pc_fits }

theorem State.Inv.raiseHalt {s : State} (h : s.Inv) (he : s.error = false) :
    State.Inv { s.clearPrefix with halt := true } :=
  { h.clearPrefix with one_line := by simp [he], pc_fits := h.pc_fits }

theorem State.Inv.raiseError {s : State} (h : s.Inv) (hh : s.halt = false) :
    State.Inv { s.clearPrefix with error := true } :=
  { h.clearPrefix with one_line := by simp [hh], pc_fits := h.pc_fits }

theorem State.Inv.skipOver {s : State} (h : s.Inv) (i : Instr) : (s.skipOver i).Inv :=
  { h.setPc (s.pc + 1) with
    skip_clean := fun hs => h.skip_clean (Bool.and_elim_left hs)
    pc_fits := (h.setPc (s.pc + 1)).pc_fits }

/-- Both program counters at `RESET_PC`, as many bits of it as they have. -/
theorem State.resetWith_inv (p : Params) : (State.resetWith p).Inv where
  mem_wf := rfl
  memw_wf := rfl
  pmem_wf := rfl
  carry_pending _ := rfl
  skip_clean := nofun
  one_line := nofun
  pc_fits m := by cases m <;> exact pcBits_pcBits p.pcWidth p.resetPc

@[simp] theorem State.assertReset_cfg (s : State) : s.assertReset.cfg = s.cfg := by
  simp only [State.assertReset, State.resetWith]

@[simp] theorem State.assertReset_pmem (s : State) : s.assertReset.pmem = s.pmem := by
  simp only [State.assertReset]

@[simp] theorem State.pcOf_assertReset (s : State) (m : Mode) :
    s.assertReset.pcOf m = pcBits s.cfg.pcWidth s.cfg.resetPc := by
  cases m <;> rfl

theorem State.assertReset_inv {s : State} (hp : WordMemory.wf s.pmem = true) : s.assertReset.Inv where
  mem_wf := rfl
  memw_wf := rfl
  pmem_wf := by rwa [State.assertReset_pmem]
  carry_pending _ := rfl
  skip_clean := nofun
  one_line := nofun
  pc_fits := by simp

/-! ## Instructions and steps -/

/-- An instruction that a running machine executes outside a skip keeps the invariant. -/
theorem ExecShape.inv {i : Instr} {s t : State} (h : ExecShape i s t) (hi : s.Inv) (hs : s.skip = false)
    (hh : s.halt = false) (he : s.error = false) : t.Inv := by
  cases h with
  | moveOn => exact hi.finish
  | rets => exact hi.switchMode
  | halt => exact hi.raiseHalt he
  | error => exact hi.raiseError hh
  | writeBack rd v => exact (hi.setReg rd v).finish
  | carry rd v c => exact (hi.setReg rd v).finishCarry hs c
  | jump target => exact hi.finishAt target
  | call target => exact (hi.setReg 0 _).finishAt target
  | imm v c uc hk hn =>
    have hc : uc = false → c = false := fun huc => by
      by_cases hkeep : s.cfg.immAfterCarry = .keep
      · obtain ⟨rfl, rfl⟩ := hk hkeep
        exact hi.carry_pending huc
      · exact (hn hkeep).1
    exact (hi.withPrefix hs v true hc).setPc _
  | compare b => exact hi.finishCompare b
  | storeByte a v => exact (hi.setByte a v).finish
  | storeWord a v w => exact ((hi.setByte a v).setByte (a + 1) w).finish
  | storeIndexed a v => exact (hi.setIndexedWord a v).finish

/-- Settles O17, along the cases of a cycle. -/
theorem stepKeepsInvariant : Obligations.StepKeepsInvariant := by
  intro s t hi h
  obtain ⟨-, rfl⟩ | ⟨-, -, rfl⟩ | ⟨-, hh, he, w, -, ⟨-, -, rfl⟩ | ⟨-, -, -, rfl⟩ | ⟨hs, -, -, hex⟩⟩ := step_cases h
  · exact State.assertReset_inv hi.pmem_wf
  · exact hi.tick
  · exact hi.tick.skipOver _
  · exact hi.tick.takeInterrupt
  · exact (exec_shape hex).inv hi.tick hs hh he

/-- Settles O18. -/
theorem resetHasInvariant : Obligations.ResetHasInvariant :=
  ⟨State.resetWith_inv Params.atReset, State.resetWith_inv⟩

/-! ## Reachable states -/

theorem State.Initial.inv {s : State} (h : s.Initial) : s.Inv := by
  obtain ⟨p, program, environment, hp, rfl⟩ := h
  exact { State.resetWith_inv p with pmem_wf := hp, pc_fits := (State.resetWith_inv p).pc_fits }

theorem Reachable.inv {s : State} (h : Reachable s) : s.Inv :=
  reachable_induct (fun _ => State.Initial.inv) stepKeepsInvariant h

/-- R23 (c): what changes K is a reset, an interrupt, which waits until nothing is pending, or `rets`, which clears. -/
theorem step_clean_of_k_ne {s t : State} (hi : s.Inv) (h : step s = .next t) (hk : t.k ≠ s.k) :
    t.skip = false ∧ t.immv = false ∧ t.uc = false ∧ t.c = false := by
  obtain ⟨-, rfl⟩ | ⟨-, -, rfl⟩ | ⟨-, -, -, w, -, ⟨-, -, rfl⟩ | ⟨hs, hint, -, rfl⟩ | ⟨hs, -, -, hex⟩⟩ := step_cases h
  · exact ⟨rfl, rfl, rfl, rfl⟩
  · exact absurd rfl hk
  · exact absurd rfl hk
  · obtain ⟨-, -, -, hready⟩ := (State.interruptTaken_iff s _).mp hint
    obtain ⟨himmv, huc, -⟩ := (State.interruptible_iff s _).mp hready
    exact ⟨hs, himmv, huc, hi.carry_pending huc⟩
  · rw [(exec_shape hex).eq_rets hk] at hex
    cases hex
    exact ⟨hs, rfl, rfl, rfl⟩

/-- Settles O19: (a) and (b) are part of the invariant, (c) is about the step that changes K. -/
theorem reachablePrefixState : Obligations.ReachablePrefixState := fun _ hs =>
  ⟨hs.inv.carry_pending, hs.inv.skip_clean, fun _ => step_clean_of_k_ne hs.inv⟩

end Sys2Proof.Machine
end

section
/-! SUPPORT. Skips over any number of prefixing instructions (spec/10_state.md R24 step 3, spec/44_compare_skip.md R130) and
the values after reset (R26): obligations O15 and O28. -/

namespace Sys2Proof.Machine

theorem run_succ {s t : State} (n : Nat) (h : step s = .next t) :
    Host.Core.run Sys2Proof.core (n + 1) s = Host.Core.run Sys2Proof.core n t := by
  have hc : Sys2Proof.core.step s = .next t := h
  simp only [Host.Core.run, hc]

/-- Of two targets written to the pc the second is left. -/
theorem State.setPc_setPc (s : State) (v w : Word) : (s.setPc v).setPc w = s.setPc w := by
  cases hk : s.k <;> simp [State.setPc, State.setBank, State.bank, hk]

theorem State.setPc_congr (s : State) {v w : Word} (h : pcBits s.cfg.pcWidth v = pcBits s.cfg.pcWidth w) :
    s.setPc v = s.setPc w := by
  rw [State.setPc, State.setPc, h]

theorem word_add_one_add_ofNat (v : Word) (j : Nat) : v + 1 + BitVec.ofNat 16 j = v + BitVec.ofNat 16 (j + 1) := by
  rw [BitVec.add_assoc, Nat.add_comm j 1, BitVec.ofNat_add]
  rfl

/-- The words that stand behind the one at the pc, counted from where the pc moves to. -/
theorem pcBits_next_add (n : Nat) (v : Word) (j : Nat) :
    pcBits n (pcBits n (v + 1) + BitVec.ofNat 16 j) = pcBits n (v + BitVec.ofNat 16 (j + 1)) := by
  rw [pcBits_add_pcBits, word_add_one_add_ofNat]

theorem State.input_eq_getD (s : State) : s.input = s.inputs.getD 0 .low := by
  rw [State.input]
  cases s.inputs <;> rfl

theorem getD_tail {α : Type} (l : List α) (j : Nat) (d : α) : l.tail.getD j d = l.getD (j + 1) d := by
  cases l <;> rfl

theorem State.pc_skipped (s : State) (b : Bool) : (s.skipped b).pc = pcBits s.cfg.pcWidth (s.pc + 1) :=
  State.pc_setPc _ _

/-- Where a skip that goes on for `n` instructions after this one leaves the machine. -/
theorem State.skipped_setPc (s : State) (n : Nat) :
    { s.skipped true with skip := false, inputs := (s.skipped true).inputs.drop n }.setPc
        ((s.skipped true).pc + BitVec.ofNat 16 n) =
      { s with skip := false, inputs := s.inputs.drop (n + 1) }.setPc (s.pc + BitVec.ofNat 16 (n + 1)) := by
  rw [State.pc_skipped, ← List.drop_tail]
  exact (State.setPc_setPc { s with skip := false, inputs := s.inputs.tail.drop n } (s.pc + 1) _).trans
    (State.setPc_congr _ (pcBits_next_add s.cfg.pcWidth s.pc n))

/-- A running machine in a skip, with `n` prefixing instructions and then a regular one at its pc, and no reset meanwhile. -/
structure State.SkipsPast (s : State) (n : Nat) : Prop where
  skip : s.skip = true
  halt : s.halt = false
  error : s.error = false
  pc_fits : pcBits s.cfg.pcWidth s.pc = s.pc
  no_reset : ∀ j, j ≤ n → (s.inputs.getD j .low).reset = false
  words : ∀ j, j ≤ n → ∃ w, s.pmemRead (pcBits s.cfg.pcWidth (s.pc + BitVec.ofNat 16 j)) = .ok w ∧
    (decode w).isPrefixing = decide (j < n)

theorem State.SkipsPast.step {s : State} {n : Nat} (h : s.SkipsPast n) :
    step s = .next (s.skipped (decide (0 < n))) := by
  have hr : s.input.reset = false := by
    rw [State.input_eq_getD]
    exact h.no_reset 0 (Nat.zero_le n)
  obtain ⟨w, hp, hpre⟩ := h.words 0 (Nat.zero_le n)
  rw [BitVec.add_zero, h.pc_fits] at hp
  rw [step_skip hr h.halt h.error hp h.skip, hpre]

/-- After the first prefixing instruction the machine stands before the rest, in the same skip. -/
theorem State.SkipsPast.skipped {s : State} {n : Nat} (h : s.SkipsPast (n + 1)) : (s.skipped true).SkipsPast n where
  skip := rfl
  halt := h.halt
  error := h.error
  pc_fits := by
    rw [State.pc_skipped]
    exact pcBits_pcBits _ _
  no_reset j hj := (getD_tail s.inputs j _).symm ▸ h.no_reset (j + 1) (Nat.succ_le_succ hj)
  words j hj := by
    obtain ⟨w, hp, hpre⟩ := h.words (j + 1) (Nat.succ_le_succ hj)
    rw [← pcBits_next_add, ← State.pc_skipped s true] at hp
    exact ⟨w, hp, by rw [hpre]; simp⟩

theorem State.SkipsPast.run {s : State} {n : Nat} (h : s.SkipsPast n) :
    Host.Core.run Sys2Proof.core (n + 1) s =
      .next ({ s with skip := false, inputs := s.inputs.drop (n + 1) }.setPc (s.pc + BitVec.ofNat 16 (n + 1))) := by
  induction n generalizing s with
  | zero =>
    rw [run_succ 0 h.step, List.drop_one]
    rfl
  | succ n ih =>
    rw [run_succ (n + 1) h.step, decide_eq_true n.succ_pos]
    exact (ih h.skipped).trans (congrArg _ (State.skipped_setPc s (n + 1)))

/-- Settles O15, by induction on the number of prefixing instructions. -/
theorem skipCoversPrefixesAndOneInstruction : Obligations.SkipCoversPrefixesAndOneInstruction :=
  fun _ _ hs hh he hfit hreset hwords => State.SkipsPast.run ⟨hs, hh, he, hfit, hreset, hwords⟩

/-- Settles O28. -/
theorem resetValues : Obligations.ResetValues := fun _ =>
  ⟨_, rfl, rfl, rfl, rfl, rfl, rfl, rfl, rfl, rfl, rfl, rfl, pcBits_of_ge le_rfl 0, pcBits_of_ge le_rfl 0, rfl⟩

end Sys2Proof.Machine
end

section
/-! SUPPORT. What no instruction reads: the bank of the other mode, and S (spec/10_state.md R12, R16). A change of the
banks, the mode and S that an instruction cannot see through its own bank commutes with it; obligations O14 and O21 are
two such changes. -/

namespace Sys2Proof.Machine

/-- The part of the machine that selects the registers in use, and S. -/
structure Front where
  user : Bank
  kernel : Bank
  k : Mode
  skip : Bool

def State.mapFront (g : Front → Front) (s : State) : State :=
  { s with
    user := (g ⟨s.user, s.kernel, s.k, s.skip⟩).user
    kernel := (g ⟨s.user, s.kernel, s.k, s.skip⟩).kernel
    k := (g ⟨s.user, s.kernel, s.k, s.skip⟩).k
    skip := (g ⟨s.user, s.kernel, s.k, s.skip⟩).skip }

/-- In mode `k` the change `g` is out of an instruction's sight: it leaves the active bank, and commutes with writing it
and with switching the mode. -/
structure Unseen (g : Front → Front) (k : Mode) : Prop where
  bank : ∀ s : State, s.k = k → (s.mapFront g).bank (s.mapFront g).k = s.bank s.k
  setBank : ∀ (s : State) (b : Bank), s.k = k →
    (s.setBank s.k b).mapFront g = (s.mapFront g).setBank (s.mapFront g).k b
  switch : ∀ s : State, s.k = k →
    State.mapFront g { s with k := otherMode s.k } = { s.mapFront g with k := otherMode (s.mapFront g).k }

/-- The change `g` leaves S to those who write it. -/
def KeepsSkipWrites (g : Front → Front) : Prop :=
  ∀ (s : State) (b : Bool), State.mapFront g { s with skip := b } = { s.mapFront g with skip := b }

namespace Unseen

variable {g : Front → Front} {s : State} (h : Unseen g s.k)
include h

/-! ## Reads and writes of the active bank -/

theorem reg (i : Reg) : (s.mapFront g).reg i = s.reg i :=
  congrArg (fun b : Bank => b.regs[i.val]) (h.bank s rfl)

theorem pc : (s.mapFront g).pc = s.pc := congrArg Bank.pc (h.bank s rfl)

theorem setReg (i : Reg) (v : Word) : (s.setReg i v).mapFront g = (s.mapFront g).setReg i v := by
  rw [State.setReg, State.setReg, h.setBank s _ rfl, h.bank s rfl]

theorem setPc (v : Word) : (s.setPc v).mapFront g = (s.mapFront g).setPc v := by
  rw [State.setPc, State.setPc, h.setBank s _ rfl, h.bank s rfl]
  rfl

/-! ## The endings of an instruction -/

theorem advance : s.advance.mapFront g = (s.mapFront g).advance := by
  rw [State.advance, State.advance, h.setPc, h.pc]

theorem finish : s.finish.mapFront g = (s.mapFront g).finish := Unseen.advance (s := s.clearPrefix) h

theorem finishAt (target : Word) : (s.finishAt target).mapFront g = (s.mapFront g).finishAt target :=
  Unseen.setPc (s := s.clearPrefix) h target

theorem finishCarry (c : Bool) : (s.finishCarry c).mapFront g = (s.mapFront g).finishCarry c :=
  Unseen.advance (s := { s with immv := false, c := c, uc := true }) h

theorem finishCompare (hs : KeepsSkipWrites g) (b : Bool) :
    (s.finishCompare b).mapFront g = (s.mapFront g).finishCompare b := by
  rw [State.finishCompare, State.finishCompare, ← hs]
  exact Unseen.finish (s := { s with skip := !b }) h

theorem switchMode : s.switchMode.mapFront g = (s.mapFront g).switchMode := by
  refine (h.switch s.finish rfl).trans ?_
  rw [h.finish]
  rfl

/-! ## The shared operations -/

omit h in
/-- An ending that commutes with the change is the outcome that the statement asks for. -/
theorem next_eq_mapNext {t u : State} (e : t.mapFront g = u) : (.next u : Result) = mapNext (State.mapFront g) (.next t) :=
  congrArg _ e.symm

theorem writeBack (rd : Reg) (v : Word) :
    (s.mapFront g).writeBack rd v = mapNext (State.mapFront g) (s.writeBack rd v) := by
  rw [State.writeBack, State.writeBack, ← h.setReg]
  exact next_eq_mapNext (Unseen.finish (s := s.setReg rd v) h)

theorem callTo (target : Word) :
    Machine.callTo target (s.mapFront g) = mapNext (State.mapFront g) (Machine.callTo target s) := by
  rw [Machine.callTo, Machine.callTo, h.pc, ← h.setReg]
  exact next_eq_mapNext (Unseen.finishAt (s := s.setReg 0 (s.pc + 1)) h target)

theorem loadConstant (rd : Reg) (a : Word) :
    Machine.loadConstant rd a (s.mapFront g) = mapNext (State.mapFront g) (Machine.loadConstant rd a s) := by
  have hc : (s.mapFront g).cfg = s.cfg := rfl
  have hp : (s.mapFront g).pmemRead a = s.pmemRead a := rfl
  rw [Machine.loadConstant, Machine.loadConstant, hc, hp]
  cases s.cfg.unimpl with
  | refuse => rfl
  | asDocumented =>
    cases s.pmemRead a with
    | ok v => exact h.writeBack rd v
    | error f => rfl

theorem execImm (v : BitVec 12) :
    Machine.execImm v (s.mapFront g) = mapNext (State.mapFront g) (Machine.execImm v s) := by
  have hc : (s.mapFront g).cfg = s.cfg := rfl
  have huc : (s.mapFront g).uc = s.uc := rfl
  have hclear := next_eq_mapNext (Unseen.advance (s := { s with imm := v, immv := true, c := false, uc := false }) h)
  have hkeep := next_eq_mapNext (Unseen.advance (s := { s with imm := v, immv := true }) h)
  rw [Machine.execImm, Machine.execImm, hc, huc]
  cases s.cfg.immAfterCarry with
  | clear => exact hclear
  | keep => exact hkeep
  | refuse =>
    cases s.uc with
    | true => rfl
    | false => exact hclear

/-- The shape that `shiftLeft`, `shiftRight` and `shiftRightSigned` share, `f` giving the shifted value. -/
theorem shift (rd : Reg) (b : Word) (f : Word → Nat → Word) :
    (match shiftAmount s.cfg.shiftMode b with
      | some n => (s.mapFront g).writeBack rd (f ((s.mapFront g).reg rd) n)
      | none => .refused .shiftAmount) =
    mapNext (State.mapFront g)
      (match shiftAmount s.cfg.shiftMode b with
      | some n => s.writeBack rd (f (s.reg rd) n)
      | none => .refused .shiftAmount) := by
  rw [h.reg]
  cases shiftAmount s.cfg.shiftMode b with
  | some n => exact h.writeBack rd _
  | none => rfl

theorem loadWord (rd : Reg) (base off : Word) :
    Machine.loadWord rd base off (s.mapFront g) = mapNext (State.mapFront g) (Machine.loadWord rd base off s) := by
  have hc : (s.mapFront g).cfg = s.cfg := rfl
  have hr : ∀ a, (s.mapFront g).memReadWord a = s.memReadWord a := fun _ => rfl
  rw [Machine.loadWord, Machine.loadWord, hc, hr]
  cases s.cfg.memModel with
  | byteAddressed =>
    cases s.memReadWord (wordAddress base off) with
    | ok v => exact h.writeBack rd v
    | error f => rfl
  | wordIndexed => exact h.writeBack rd _

theorem loadByte (rd : Reg) (base off : Word) :
    Machine.loadByte rd base off (s.mapFront g) = mapNext (State.mapFront g) (Machine.loadByte rd base off s) := by
  have hc : (s.mapFront g).cfg = s.cfg := rfl
  have hr : ∀ a, (s.mapFront g).memReadByte a = s.memReadByte a := fun _ => rfl
  rw [Machine.loadByte, Machine.loadByte, hc, hr]
  cases s.cfg.memModel with
  | byteAddressed =>
    cases s.memReadByte (plainAddress base off) with
    | ok v => exact h.writeBack rd _
    | error f => rfl
  | wordIndexed => rfl

omit h in
theorem memWriteWord (a v : Word) :
    (s.mapFront g).memWriteWord a v = (s.memWriteWord a v).map (State.mapFront g) := by
  rw [State.memWriteWord, State.memWriteWord, apply_ite (Except.map (State.mapFront g))]
  rfl

omit h in
theorem memWriteByte (a : Word) (v : Byte) :
    (s.mapFront g).memWriteByte a v = (s.memWriteByte a v).map (State.mapFront g) := by
  rw [State.memWriteByte, State.memWriteByte, apply_ite (Except.map (State.mapFront g))]
  rfl

theorem storeWord (rd : Reg) (base off : Word) :
    Machine.storeWord rd base off (s.mapFront g) = mapNext (State.mapFront g) (Machine.storeWord rd base off s) := by
  have hc : (s.mapFront g).cfg = s.cfg := rfl
  rw [Machine.storeWord, Machine.storeWord, hc, h.reg, memWriteWord]
  cases s.cfg.memModel with
  | byteAddressed =>
    cases hw : s.memWriteWord (wordAddress base off) (s.reg rd) with
    | ok t =>
      obtain ⟨-, rfl⟩ := State.memWriteWord_ok hw
      exact next_eq_mapNext (Unseen.finish (s := (s.setByte _ _).setByte _ _) h)
    | error f => rfl
  | wordIndexed => exact next_eq_mapNext (Unseen.finish (s := s.setIndexedWord _ _) h)

theorem storeByte (rd : Reg) (base off : Word) :
    Machine.storeByte rd base off (s.mapFront g) = mapNext (State.mapFront g) (Machine.storeByte rd base off s) := by
  have hc : (s.mapFront g).cfg = s.cfg := rfl
  rw [Machine.storeByte, Machine.storeByte, hc, h.reg, memWriteByte]
  cases s.cfg.memModel with
  | byteAddressed =>
    cases hw : s.memWriteByte (plainAddress base off) ((s.reg rd).setWidth 8) with
    | ok t =>
      obtain ⟨-, rfl⟩ := State.memWriteByte_ok hw
      exact next_eq_mapNext (Unseen.finish (s := s.setByte _ _) h)
    | error f => rfl
  | wordIndexed => rfl

theorem relativeTarget (field : Int) : (s.mapFront g).relativeTarget field = s.relativeTarget field := by
  rw [State.relativeTarget, State.relativeTarget, h.pc]
  rfl

theorem execRcsr (rd : Reg) :
    Machine.execRcsr rd (s.mapFront g) = mapNext (State.mapFront g) (Machine.execRcsr rd s) := by
  have hc : (s.mapFront g).cfg = s.cfg := rfl
  rw [Machine.execRcsr, Machine.execRcsr, hc, h.reg]
  cases s.cfg.errata with
  | true => exact next_eq_mapNext (h.finishAt (s.reg rd))
  | false => rfl

theorem execJump (rd : Reg) :
    Machine.execJump rd (s.mapFront g) = mapNext (State.mapFront g) (Machine.execJump rd s) := by
  have hc : (s.mapFront g).cfg = s.cfg := rfl
  rw [Machine.execJump, Machine.execJump, hc, h.reg]
  cases s.cfg.errata with
  | true => rfl
  | false => exact next_eq_mapNext (h.finishAt (s.reg rd))

theorem execCall (rd : Reg) :
    Machine.execCall rd (s.mapFront g) = mapNext (State.mapFront g) (Machine.execCall rd s) := by
  have hc : (s.mapFront g).cfg = s.cfg := rfl
  rw [Machine.execCall, Machine.execCall, hc, h.reg, h.pc]
  cases s.cfg.errata with
  | true => exact h.callTo (s.pc + s.reg rd)
  | false => exact h.callTo (s.reg rd)

/-! ## The instructions -/

/-- An instruction does the same under a change that it cannot see, and carries the change along; a compare, which writes
S, if the change leaves S to it. -/
theorem exec (i : Instr) (hs : i.isCompare = true → KeepsSkipWrites g) :
    Machine.exec i (s.mapFront g) = mapNext (State.mapFront g) (Machine.exec i s) := by
  have hreg := h.reg
  cases i with
  | nop | nopOp9 | nopOp11 => exact next_eq_mapNext h.finish
  | rets => exact next_eq_mapNext h.switchMode
  | error | halt | wcsr => rfl
  | rcsr rd => exact h.execRcsr rd
  | jump rd => exact h.execJump rd
  | call rd => exact h.execCall rd
  | imm v => exact h.execImm v
  | jumpI v =>
    simp only [Machine.exec, execJumpI, h.relativeTarget]
    exact next_eq_mapNext (h.finishAt _)
  | callI v =>
    simp only [Machine.exec, execCallI, h.relativeTarget]
    exact h.callTo _
  | loadc rd rs | loadcI rd v =>
    simp only [Machine.exec, execLoadc, execLoadcI, hreg, h.pc]
    exact h.loadConstant rd _
  | load rd rs | loadI rd rs n =>
    simp only [Machine.exec, execLoad, execLoadI, hreg]
    exact h.loadWord rd _ _
  | store rd rs | storeI rd rs n =>
    simp only [Machine.exec, execStore, execStoreI, hreg]
    exact h.storeWord rd _ _
  | loadb rd rs | loadbI rd rs n =>
    simp only [Machine.exec, execLoadb, execLoadbI, hreg]
    exact h.loadByte rd _ _
  | storeb rd rs | storebI rd rs n =>
    simp only [Machine.exec, execStoreb, execStorebI, hreg]
    exact h.storeByte rd _ _
  | move rd rs | moveI rd v =>
    simp only [Machine.exec, execMove, execMoveI, hreg]
    exact h.writeBack rd _
  | add rd rs | addI rd v | sub rd rs | subI rd v =>
    simp only [Machine.exec, execAdd, execAddI, execSub, execSubI, addTo, subFrom, hreg]
    exact h.writeBack rd _
  | xor rd rs | xorI rd v | and rd rs | andI rd v | or rd rs | orI rd v =>
    simp only [Machine.exec, execXor, execXorI, execAnd, execAndI, execOr, execOrI, xorWith, andWith, orWith, hreg]
    exact h.writeBack rd _
  | addc rd rs | addcI rd v | subc rd rs | subcI rd v =>
    simp only [Machine.exec, execAddc, execAddcI, execSubc, execSubcI, addToCarry, subFromBorrow, hreg, ← h.setReg]
    exact next_eq_mapNext (Unseen.finishCarry (s := s.setReg rd _) h _)
  | shl rd rs | shlI rd v =>
    simp only [Machine.exec, execShl, execShlI, hreg]
    exact h.shift rd _ (fun a n => a <<< n)
  | shr rd rs | shrI rd v =>
    simp only [Machine.exec, execShr, execShrI, hreg]
    exact h.shift rd _ (fun a n => a >>> n)
  | asr rd rs | asrI rd v =>
    simp only [Machine.exec, execAsr, execAsrI, hreg]
    exact h.shift rd _ BitVec.sshiftRight
  | ifEq rd rs | ifEqI rd v | ifNe rd rs | ifNeI rd v | ifLt rd rs | ifLtI rd v =>
    simp only [Machine.exec, execIfEq, execIfEqI, execIfNe, execIfNeI, execIfLt, execIfLtI, hreg]
    exact next_eq_mapNext (h.finishCompare (hs rfl) _)
  | ifGe rd rs | ifGeI rd v | ifUlt rd rs | ifUltI rd v | ifUge rd rs | ifUgeI rd v =>
    simp only [Machine.exec, execIfGe, execIfGeI, execIfUlt, execIfUltI, execIfUge, execIfUgeI, hreg]
    exact next_eq_mapNext (h.finishCompare (hs rfl) _)

end Unseen

/-! ## Two changes that no instruction sees -/

/-- S set to `b`. -/
def Front.withSkip (b : Bool) (x : Front) : Front := { x with skip := b }

theorem State.mapFront_withSkip (b : Bool) : State.mapFront (Front.withSkip b) = fun s => { s with skip := b } := rfl

theorem unseen_withSkip (b : Bool) (k : Mode) : Unseen (Front.withSkip b) k :=
  ⟨fun _ _ => rfl, fun _ _ _ => rfl, fun _ _ => rfl⟩

/-- The bank of a mode replaced by `b`. -/
def Front.withBank (m : Mode) (b : Bank) (x : Front) : Front :=
  { x with
    user := match m with | .user => b | .kernel => x.user
    kernel := match m with | .user => x.kernel | .kernel => b }

theorem State.mapFront_withBank (s : State) (m : Mode) (b : Bank) : s.mapFront (Front.withBank m b) = s.setBank m b := by
  cases m <;> rfl

theorem State.setBank_comm (s : State) {m n : Mode} (h : m ≠ n) (b c : Bank) :
    (s.setBank m b).setBank n c = (s.setBank n c).setBank m b := by
  obtain rfl := eq_otherMode_of_ne h
  cases n <;> rfl

theorem unseen_withBank (k : Mode) (b : Bank) : Unseen (Front.withBank (otherMode k) b) k where
  bank := by
    rintro s rfl
    rw [State.mapFront_withBank]
    exact State.bank_setBank_of_ne s (ne_otherMode s.k) b
  setBank := by
    rintro s c rfl
    rw [State.mapFront_withBank, State.mapFront_withBank]
    exact State.setBank_comm s (ne_otherMode s.k) c b
  switch _ _ := rfl

/-- Settles O21. -/
theorem inactiveBankUnseen : Obligations.InactiveBankUnseen := by
  intro i s b
  simp only [← State.mapFront_withBank]
  exact (unseen_withBank s.k b).exec i (fun _ _ _ => rfl)

/-- A compare writes S whatever it was. -/
theorem exec_withSkip_of_isCompare {i : Instr} (s : State) (b : Bool) (hi : i.isCompare = true) :
    exec i { s with skip := b } = exec i s := by
  cases i with
  | ifEq | ifNe | ifLt | ifGe | ifUlt | ifUge | ifEqI | ifNeI | ifLtI | ifGeI | ifUltI | ifUgeI => rfl
  | _ => cases hi

theorem ExecShape.skip_eq {i : Instr} {s t : State} (h : ExecShape i s t) (hi : i.isCompare = false) :
    t.skip = s.skip := by
  cases h with
  | compare _ h => rw [h] at hi; cases hi
  | _ => rfl

/-- Settles O14: the writers of S, its readers among the instructions, and the two uses of S in a cycle. -/
theorem skipFlagWritersAndReaders : Obligations.SkipFlagWritersAndReaders := by
  refine ⟨fun i s t h => (exec_shape h).skip_eq, fun i s b => exec_withSkip_of_isCompare s b, fun i s b hi => ?_,
    fun s hs ha => ?_, fun s t i ha h => ?_⟩
  · have h := (unseen_withSkip b s.k).exec i (fun hc => absurd (hi.symm.trans hc) Bool.false_ne_true)
    rwa [State.mapFront_withSkip] at h
  · obtain ⟨-, -, -, w, -, hs', -⟩ := action_interrupt ha
    rw [hs] at hs'
    cases hs'
  · obtain ⟨hr, hh, he, w, hp, rfl, hs⟩ := action_skip ha
    rw [step_skip hr hh he hp hs] at h
    cases h
    rfl

end Sys2Proof.Machine
end

section
/-! SUPPORT. Loads and stores (spec/20_memory.md): what the memory primitives and the shared load and store operations
answer inside and outside data memory and in the word-indexed memory, what a load reads after a store, and obligations
O46, O47 and O48. -/

namespace Sys2Proof.Machine

/-! ## Addresses -/

theorem plainAddress_zero (base : Word) : plainAddress base 0 = base := BitVec.add_zero base

/-- Clearing bit 0 (R35). -/
theorem and_FFFE_toNat (v : Word) : (v &&& 0xFFFE#16).toNat = v.toNat - v.toNat % 2 := by
  have h : v &&& 0xFFFE#16 = v >>> 1 <<< 1 := by
    ext i hi
    interval_cases i <;> simp
  rw [h, BitVec.toNat_shiftLeft, BitVec.toNat_ushiftRight, Nat.shiftLeft_eq, Nat.shiftRight_eq_div_pow]
  omega

theorem wordAddress_toNat (base off : Word) :
    (wordAddress base off).toNat = (base.toNat - base.toNat % 2 + 2 * off.toNat) % 65536 := by
  simp only [wordAddress, BitVec.toNat_add, and_FFFE_toNat]
  omega

/-- The byte at a base address is the lower one of its word when the base is even, the higher one when it is odd. -/
theorem base_eq_wordAddress (base : Word) :
    (base.toNat % 2 = 0 ∧ base = wordAddress base 0) ∨ (base.toNat % 2 = 1 ∧ base = wordAddress base 0 + 1) := by
  have hw : (wordAddress base 0).toNat = base.toNat - base.toNat % 2 := by
    rw [wordAddress_toNat]
    simp
    omega
  obtain he | ho := Nat.mod_two_eq_zero_or_one base.toNat
  · refine .inl ⟨he, BitVec.eq_of_toNat_eq ?_⟩
    omega
  · refine .inr ⟨ho, BitVec.eq_of_toNat_eq ?_⟩
    rw [BitVec.toNat_add, hw, show (1 : Word).toNat = 1 from rfl]
    omega

/-! ## The bytes of a word -/

theorem extractLsb'_low_toNat (v : Word) : (v.extractLsb' 0 8).toNat = v.toNat % 256 := by
  simp [BitVec.extractLsb'_toNat]

theorem extractLsb'_high_toNat (v : Word) : (v.extractLsb' 8 8).toNat = v.toNat / 256 := by
  simp [BitVec.extractLsb'_toNat, Nat.shiftRight_eq_div_pow]
  omega

theorem lowerAddressByte_toNat (o : ByteOrder) (v : Word) :
    (lowerAddressByte o v).toNat = if o = .little then v.toNat % 256 else v.toNat / 256 := by
  cases o
  · exact extractLsb'_low_toNat v
  · exact extractLsb'_high_toNat v

theorem higherAddressByte_toNat (o : ByteOrder) (v : Word) :
    (higherAddressByte o v).toNat = if o = .little then v.toNat / 256 else v.toNat % 256 := by
  cases o
  · exact extractLsb'_high_toNat v
  · exact extractLsb'_low_toNat v

/-! ## The memory primitives inside and outside data memory (R32, R33, R36) -/

/-- Both bytes of the word at `a` are in data memory. -/
def State.HoldsWord (s : State) (a : Word) : Prop := a.toNat < s.cfg.dmemBytes ∧ (a + 1).toNat < s.cfg.dmemBytes

/-- With the word of a base address, data memory has the byte at the base. -/
theorem State.HoldsWord.base_lt {s : State} {base : Word} (h : s.HoldsWord (wordAddress base 0)) :
    base.toNat < s.cfg.dmemBytes := by
  obtain ⟨-, hb⟩ | ⟨-, hb⟩ := base_eq_wordAddress base
  · rw [hb]
    exact h.1
  · rw [hb]
    exact h.2

/-- The state after a word write: `v` in the two bytes at `a` and `a + 1`, in the byte order of the machine. -/
def State.setWord (s : State) (a v : Word) : State :=
  (s.setByte a (lowerAddressByte s.cfg.byteOrder v)).setByte (a + 1) (higherAddressByte s.cfg.byteOrder v)

section Primitives

variable {s : State} {a : Word}

theorem State.hasByte_of_lt (h : a.toNat < s.cfg.dmemBytes) : s.hasByte a = true := decide_eq_true h

theorem State.hasByte_of_le (h : s.cfg.dmemBytes ≤ a.toNat) : s.hasByte a = false := decide_eq_false (Nat.not_lt.mpr h)

theorem State.HoldsWord.hasBytes (h : s.HoldsWord a) : (s.hasByte a && s.hasByte (a + 1)) = true := by
  rw [State.hasByte_of_lt h.1, State.hasByte_of_lt h.2, Bool.and_self]

theorem State.not_hasBytes (h : s.cfg.dmemBytes ≤ a.toNat ∨ s.cfg.dmemBytes ≤ (a + 1).toNat) :
    (s.hasByte a && s.hasByte (a + 1)) = false := by
  rcases h with h | h
  · rw [State.hasByte_of_le h, Bool.false_and]
  · rw [State.hasByte_of_le h, Bool.and_false]

theorem State.memReadByte_inside (h : a.toNat < s.cfg.dmemBytes) : s.memReadByte a = .ok (s.byteAt a) :=
  if_pos (State.hasByte_of_lt h)

theorem State.memReadByte_outside (h : s.cfg.dmemBytes ≤ a.toNat) : s.memReadByte a = .error .outsideDataMemory := by
  rw [State.memReadByte, State.hasByte_of_le h]
  rfl

theorem State.memWriteByte_inside (h : a.toNat < s.cfg.dmemBytes) (v : Byte) : s.memWriteByte a v = .ok (s.setByte a v) :=
  if_pos (State.hasByte_of_lt h)

theorem State.memWriteByte_outside (h : s.cfg.dmemBytes ≤ a.toNat) (v : Byte) :
    s.memWriteByte a v = .error .outsideDataMemory := by
  rw [State.memWriteByte, State.hasByte_of_le h]
  rfl

theorem State.memReadWord_inside (h : s.HoldsWord a) :
    s.memReadWord a = .ok (joinBytes s.cfg.byteOrder (s.byteAt a) (s.byteAt (a + 1))) := if_pos h.hasBytes

theorem State.memReadWord_outside (h : s.cfg.dmemBytes ≤ a.toNat ∨ s.cfg.dmemBytes ≤ (a + 1).toNat) :
    s.memReadWord a = .error .outsideDataMemory := by
  rw [State.memReadWord, State.not_hasBytes h]
  rfl

theorem State.memWriteWord_inside (h : s.HoldsWord a) (v : Word) : s.memWriteWord a v = .ok (s.setWord a v) :=
  if_pos h.hasBytes

theorem State.memWriteWord_outside (h : s.cfg.dmemBytes ≤ a.toNat ∨ s.cfg.dmemBytes ≤ (a + 1).toNat) (v : Word) :
    s.memWriteWord a v = .error .outsideDataMemory := by
  rw [State.memWriteWord, State.not_hasBytes h]
  rfl

end Primitives

/-! ## The shared loads and stores, by memory model (R101 to R104, R45) -/

section ByteAddressed

variable {s : State} (hm : s.cfg.memModel = .byteAddressed) (rd : Reg) {base off : Word}
include hm

theorem loadWord_inside (h : s.HoldsWord (wordAddress base off)) :
    loadWord rd base off s = s.writeBack rd
      (joinBytes s.cfg.byteOrder (s.byteAt (wordAddress base off)) (s.byteAt (wordAddress base off + 1))) := by
  simp only [loadWord, hm, State.memReadWord_inside h]

theorem loadWord_outside
    (h : s.cfg.dmemBytes ≤ (wordAddress base off).toNat ∨ s.cfg.dmemBytes ≤ (wordAddress base off + 1).toNat) :
    loadWord rd base off s = .fault .outsideDataMemory := by
  simp only [loadWord, hm, State.memReadWord_outside h]

theorem storeWord_inside (h : s.HoldsWord (wordAddress base off)) :
    storeWord rd base off s = .next (s.setWord (wordAddress base off) (s.reg rd)).finish := by
  simp only [storeWord, hm, State.memWriteWord_inside h]

theorem storeWord_outside
    (h : s.cfg.dmemBytes ≤ (wordAddress base off).toNat ∨ s.cfg.dmemBytes ≤ (wordAddress base off + 1).toNat) :
    storeWord rd base off s = .fault .outsideDataMemory := by
  simp only [storeWord, hm, State.memWriteWord_outside h]

theorem loadByte_inside (h : (plainAddress base off).toNat < s.cfg.dmemBytes) :
    loadByte rd base off s = s.writeBack rd ((s.byteAt (plainAddress base off)).setWidth 16) := by
  simp only [loadByte, hm, State.memReadByte_inside h]

theorem loadByte_outside (h : s.cfg.dmemBytes ≤ (plainAddress base off).toNat) :
    loadByte rd base off s = .fault .outsideDataMemory := by
  simp only [loadByte, hm, State.memReadByte_outside h]

theorem storeByte_inside (h : (plainAddress base off).toNat < s.cfg.dmemBytes) :
    storeByte rd base off s = .next (s.setByte (plainAddress base off) ((s.reg rd).setWidth 8)).finish := by
  simp only [storeByte, hm, State.memWriteByte_inside h]

theorem storeByte_outside (h : s.cfg.dmemBytes ≤ (plainAddress base off).toNat) :
    storeByte rd base off s = .fault .outsideDataMemory := by
  simp only [storeByte, hm, State.memWriteByte_outside h]

end ByteAddressed

section WordIndexed

variable {s : State} (hm : s.cfg.memModel = .wordIndexed) (rd : Reg) (base off : Word)
include hm

theorem loadWord_wordIndexed :
    loadWord rd base off s = s.writeBack rd (s.indexedWordAt (plainAddress base off)) := by
  simp only [loadWord, hm]

theorem storeWord_wordIndexed :
    storeWord rd base off s = .next (s.setIndexedWord (plainAddress base off) (s.reg rd)).finish := by
  simp only [storeWord, hm]

theorem loadByte_wordIndexed : loadByte rd base off s = .refused .byteAccessNotImplemented := by
  simp only [loadByte, hm]

theorem storeByte_wordIndexed : storeByte rd base off s = .refused .byteAccessNotImplemented := by
  simp only [storeByte, hm]

end WordIndexed

/-! ## The eight forms are the shared operations at an offset from a register -/

section Forms

variable (s : State) (rd rs : Reg) (n : Nat)

theorem exec_load : exec (.load rd rs) s = loadWord rd (s.reg rs) 0 s := rfl
theorem exec_store : exec (.store rd rs) s = storeWord rd (s.reg rs) 0 s := rfl
theorem exec_loadb : exec (.loadb rd rs) s = loadByte rd (s.reg rs) 0 s := rfl
theorem exec_storeb : exec (.storeb rd rs) s = storeByte rd (s.reg rs) 0 s := rfl
theorem exec_loadI : exec (.loadI rd rs n) s = loadWord rd (s.reg rs) (s.immval4 n) s := rfl
theorem exec_storeI : exec (.storeI rd rs n) s = storeWord rd (s.reg rs) (s.immval4 n) s := rfl
theorem exec_loadbI : exec (.loadbI rd rs n) s = loadByte rd (s.reg rs) (s.immval4 n) s := rfl
theorem exec_storebI : exec (.storebI rd rs n) s = storeByte rd (s.reg rs) (s.immval4 n) s := rfl

end Forms

/-- Settles O46: each form is one of the four shared operations at its address. -/
theorem dataAccessOutsideMemoryStops : Obligations.DataAccessOutsideMemoryStops := by
  intro s rd rs n
  refine ⟨fun hm => ⟨fun ea ho => ⟨?_, ?_⟩, fun ea ho => ⟨?_, ?_⟩⟩, fun hm => ?_⟩
  · rintro rfl
    rw [exec_load, exec_store]
    exact ⟨loadWord_outside hm rd ho, storeWord_outside hm rd ho⟩
  · rintro rfl
    rw [exec_loadI, exec_storeI]
    exact ⟨loadWord_outside hm rd ho, storeWord_outside hm rd ho⟩
  · rintro rfl
    rw [← plainAddress_zero (s.reg rs)] at ho
    rw [exec_loadb, exec_storeb]
    exact ⟨loadByte_outside hm rd ho, storeByte_outside hm rd ho⟩
  · rintro rfl
    rw [exec_loadbI, exec_storebI]
    exact ⟨loadByte_outside hm rd ho, storeByte_outside hm rd ho⟩
  · rw [exec_loadb, exec_storeb, exec_loadbI, exec_storebI]
    exact ⟨loadByte_wordIndexed hm rd _ _, storeByte_wordIndexed hm rd _ _, loadByte_wordIndexed hm rd _ _,
      storeByte_wordIndexed hm rd _ _⟩

/-! ## What a load reads after a store (R34, R40) -/

@[simp] theorem State.setWord_cfg (s : State) (a v : Word) : (s.setWord a v).cfg = s.cfg := rfl

theorem State.byteAt_setWord (s : State) (a v : Word) :
    (s.setWord a v).byteAt a = lowerAddressByte s.cfg.byteOrder v := by
  simp [State.setWord, State.byteAt_setByte]

theorem State.byteAt_setWord_add_one (s : State) (a v : Word) :
    (s.setWord a v).byteAt (a + 1) = higherAddressByte s.cfg.byteOrder v := by
  simp [State.setWord, State.byteAt_setByte]

/-- The byte at a base address, once the word of that base is written. -/
theorem State.byteAt_base_setWord_toNat (s : State) (base v : Word) :
    ((s.setWord (wordAddress base 0) v).byteAt base).toNat =
      if s.cfg.byteOrder = .little ↔ base.toNat % 2 = 0 then v.toNat % 256 else v.toNat / 256 := by
  obtain ⟨he, hb⟩ | ⟨ho, hb⟩ := base_eq_wordAddress base
  · have h := (congrArg _ hb).trans (State.byteAt_setWord s (wordAddress base 0) v)
    rw [h, lowerAddressByte_toNat]
    simp [he]
  · have h := (congrArg _ hb).trans (State.byteAt_setWord_add_one s (wordAddress base 0) v)
    rw [h, higherAddressByte_toNat]
    cases s.cfg.byteOrder <;> simp [ho]

@[simp] theorem State.byteAt_finish (s : State) (a : Word) : s.finish.byteAt a = s.byteAt a := rfl

@[simp] theorem State.indexedWordAt_finish (s : State) (a : Word) : s.finish.indexedWordAt a = s.indexedWordAt a := rfl

@[simp] theorem State.reg_finish (s : State) (i : Reg) : s.finish.reg i = s.reg i := State.regOf_finish s s.k i

@[simp] theorem State.reg_setWord (s : State) (a v : Word) (i : Reg) : (s.setWord a v).reg i = s.reg i :=
  (State.regOf_setByte _ (a + 1) _ s.k i).trans (State.regOf_setByte s a _ s.k i)

@[simp] theorem State.reg_setIndexedWord (s : State) (a v : Word) (i : Reg) : (s.setIndexedWord a v).reg i = s.reg i :=
  State.regOf_setIndexedWord s a v s.k i

/-- Two instructions in a row, the second one writing a register in the mode of the first. -/
theorem execSeq_pair_writes {i j : Instr} {s t : State} {rd : Reg} {v : Word} (hi : exec i s = .next t) (hk : t.k = s.k)
    (hj : Writes j t rd v) : ∃ u, execSeq [i, j] s = .next u ∧ u.regOf s.k rd = v := by
  obtain ⟨u, hu, hv, -⟩ := hj
  rw [hk] at hv
  exact ⟨u, by simp only [execSeq, hi, hu], hv⟩

/-- Settles O47: the load finds the address unchanged, and there the two bytes, or the indexed word, just stored. -/
theorem storeThenLoadReturnsWord : Obligations.StoreThenLoadReturnsWord := by
  intro s rd rs rt hin
  cases hm : s.cfg.memModel with
  | byteAddressed =>
    have hw : s.HoldsWord (wordAddress (s.reg rs) 0) := hin hm
    refine execSeq_pair_writes ((exec_store s rd rs).trans (storeWord_inside hm rd hw)) rfl (writes_of_writeBack ?_)
    rw [exec_load, State.reg_finish, State.reg_setWord, loadWord_inside, State.byteAt_finish, State.byteAt_finish,
      State.byteAt_setWord, State.byteAt_setWord_add_one, State.finish_cfg, State.setWord_cfg, joinBytes_split]
    · exact hm
    · exact hw
  | wordIndexed =>
    refine execSeq_pair_writes ((exec_store s rd rs).trans (storeWord_wordIndexed hm rd _ _)) rfl (writes_of_writeBack ?_)
    rw [exec_load, State.reg_finish, State.reg_setIndexedWord, loadWord_wordIndexed, State.indexedWordAt_finish,
      State.indexedWordAt_setIndexedWord, if_pos rfl]
    exact hm

/-- Settles O48: the base is the lower address of the word when it is even, the higher one when it is odd. -/
theorem byteOrderOfStoredWord : Obligations.ByteOrderOfStoredWord := by
  intro s rd rs rt hm hlo hhi
  have hw : s.HoldsWord (wordAddress (s.reg rs) 0) := ⟨hlo, hhi⟩
  have hload : exec (.loadb rt rs) (s.setWord (wordAddress (s.reg rs) 0) (s.reg rd)).finish =
      (s.setWord (wordAddress (s.reg rs) 0) (s.reg rd)).finish.writeBack rt
        (((s.setWord (wordAddress (s.reg rs) 0) (s.reg rd)).byteAt (s.reg rs)).setWidth 16) := by
    rw [exec_loadb, State.reg_finish, State.reg_setWord, loadByte_inside, plainAddress_zero, State.byteAt_finish]
    · exact hm
    · rw [plainAddress_zero]
      exact hw.base_lt
  obtain ⟨t, ht, hv⟩ := execSeq_pair_writes ((exec_store s rd rs).trans (storeWord_inside hm rd hw)) rfl
    (writes_of_writeBack hload)
  refine ⟨t, ht, ?_⟩
  rw [hv, BitVec.toNat_setWidth_of_le (by decide), State.byteAt_base_setWord_toNat]
  exact ⟨fun h => if_pos h, fun h => if_neg h⟩

end Sys2Proof.Machine
end

section
/-! SUPPORT. The fields of a word as numbers, the formats of R59 as a relation between words and instructions that the
decoder meets, and obligations O1 and O3 to O6 (spec/30_encoding.md R50 to R63). -/

namespace Sys2Proof

/-! ## Fields as numbers (R51 to R56) -/

theorem toNat_extractLsb'_eq_fieldNat (lo n : Nat) (w : Word) : (w.extractLsb' lo n).toNat = fieldNat lo n w := by
  rw [BitVec.extractLsb'_toNat, Nat.shiftRight_eq_div_pow, fieldNat]

/-- The sign of a field is its highest bit. -/
theorem toInt_extractLsb'_eq_fieldInt (lo n : Nat) (w : Word) :
    (w.extractLsb' lo (n + 1)).toInt = fieldInt lo (n + 1) w := by
  have hhalf : 2 * fieldNat lo (n + 1) w < 2 ^ (n + 1) ↔ fieldNat lo (n + 1) w < 2 ^ n := by
    rw [Nat.pow_succ']
    omega
  rw [BitVec.toInt_eq_toNat_cond, toNat_extractLsb'_eq_fieldNat, fieldInt, Nat.add_sub_cancel]
  simp only [hhalf, Nat.cast_pow, Nat.cast_ofNat]

theorem fieldNat_lt (lo n : Nat) (w : Word) : fieldNat lo n w < 2 ^ n := Nat.mod_lt _ (Nat.two_pow_pos n)

/-- The range of a signed field (R57). -/
theorem fieldInt_bounds (lo n : Nat) (w : Word) :
    -2 ^ n ≤ fieldInt lo (n + 1) w ∧ fieldInt lo (n + 1) w ≤ 2 ^ n - 1 := by
  rw [← toInt_extractLsb'_eq_fieldInt]
  exact ⟨BitVec.le_toInt _, BitVec.toInt_le⟩

/-- A field that a mask keeps whole is the same in two words that the mask makes equal. -/
theorem fieldNat_eq_of_and_eq {u w m : Word} {lo n : Nat} (h : u &&& m = w &&& m)
    (hm : m.extractLsb' lo n = BitVec.allOnes n) : fieldNat lo n u = fieldNat lo n w := by
  have hbits : (u &&& m).extractLsb' lo n = (w &&& m).extractLsb' lo n := by rw [h]
  rw [BitVec.extractLsb'_and, BitVec.extractLsb'_and, hm, BitVec.and_allOnes, BitVec.and_allOnes] at hbits
  rw [← toNat_extractLsb'_eq_fieldNat, hbits, toNat_extractLsb'_eq_fieldNat]

theorem getLsbD_eq_decide (w : Word) (i : Nat) : w.getLsbD i = decide (w.toNat / 2 ^ i % 2 = 1) := by
  rw [BitVec.getLsbD, Nat.testBit_eq_decide_div_mod_eq]

theorem ofNat_fieldNat (lo : Nat) (w : Word) :
    Fin.ofNat 16 (fieldNat lo 4 w) = ⟨(w.extractLsb' lo 4).toNat, (w.extractLsb' lo 4).isLt⟩ := by
  ext
  rw [← toNat_extractLsb'_eq_fieldNat]
  exact Nat.mod_eq_of_lt (w.extractLsb' lo 4).isLt

theorem rdField_eq_wordRd (w : Word) : rdField w = wordRd w := (ofNat_fieldNat 12 w).symm

theorem rsField_eq_wordRs (w : Word) : rsField w = wordRs w := (ofNat_fieldNat 8 w).symm

theorem imm6Field_eq_fieldInt (w : Word) : imm6Field w = fieldInt 6 6 w := toInt_extractLsb'_eq_fieldInt 6 5 w

theorem imm8Field_eq_fieldInt (w : Word) : imm8Field w = fieldInt 4 8 w := toInt_extractLsb'_eq_fieldInt 4 7 w

theorem imm11Field_eq_fieldInt (w : Word) : imm11Field w = fieldInt 5 11 w := toInt_extractLsb'_eq_fieldInt 5 10 w

theorem imm4Field_eq_fieldNat (w : Word) : imm4Field w = fieldNat 4 4 w := toNat_extractLsb'_eq_fieldNat 4 4 w

theorem imm12Field_eq_ofNat (w : Word) : imm12Field w = BitVec.ofNat 12 (fieldNat 4 12 w) := by
  rw [← toNat_extractLsb'_eq_fieldNat, BitVec.ofNat_toNat, BitVec.setWidth_eq, imm12Field]

/-- The low `k` bits of a word, taken by a mask, as a number. -/
theorem and_mask_eq_iff (k n : Nat) (w : Word) (hk : k ≤ 16 := by omega) (hn : n < 2 ^ 16 := by omega) :
    w &&& BitVec.ofNat 16 (2 ^ k - 1) = BitVec.ofNat 16 n ↔ w.toNat % 2 ^ k = n := by
  have hmask : 2 ^ k - 1 < 2 ^ 16 := by
    have := Nat.pow_le_pow_right (n := 2) (by omega) hk
    omega
  rw [← BitVec.toNat_inj, BitVec.toNat_and, BitVec.toNat_ofNat, BitVec.toNat_ofNat, Nat.mod_eq_of_lt hmask,
    Nat.mod_eq_of_lt hn, Nat.and_two_pow_sub_one_eq_mod]

/-! ## The formats (R59) -/

/-- The instruction that each row of R59 gives a word, by the word's low bits as a number. -/
inductive ReadsAs (w : Word) : Instr → Prop where
  | rr (op : Nat) (h : w.toNat % 128 = 4 * op) : ReadsAs w (decodeRr op (wordRd w) (wordRs w))
  | moveI (h : w.toNat % 16 = 1) : ReadsAs w (.moveI (wordRd w) (fieldInt 4 8 w))
  | loadcI (h : w.toNat % 16 = 9) : ReadsAs w (.loadcI (wordRd w) (fieldInt 4 8 w))
  | jumpI (h : w.toNat % 32 = 5) : ReadsAs w (.jumpI (fieldInt 5 11 w))
  | callI (h : w.toNat % 32 = 21) : ReadsAs w (.callI (fieldInt 5 11 w))
  | imm (h : w.toNat % 16 = 13) : ReadsAs w (.imm (BitVec.ofNat 12 (fieldNat 4 12 w)))
  | ls (op : Nat) (h : w.toNat % 16 = 4 * op + 2) : ReadsAs w (decodeLs op (wordRd w) (wordRs w) (fieldNat 4 4 w))
  | ri6 (op : Nat) (h : w.toNat % 64 = 4 * op + 3) : ReadsAs w (decodeRi6 op (wordRd w) (fieldInt 6 6 w))

/-- The formats cover every word (R62). -/
theorem exists_readsAs (w : Word) : ∃ i, ReadsAs w i := by
  have hfmt : w.toNat % 4 < 4 := Nat.mod_lt _ (by omega)
  interval_cases h : w.toNat % 4
  · exact ⟨_, .rr (w.toNat / 4 % 32) (by omega)⟩
  · obtain h | h | h | h | h : w.toNat % 16 = 1 ∨ w.toNat % 16 = 9 ∨ w.toNat % 32 = 5 ∨ w.toNat % 32 = 21 ∨
        w.toNat % 16 = 13 := by omega
    · exact ⟨_, .moveI h⟩
    · exact ⟨_, .loadcI h⟩
    · exact ⟨_, .jumpI h⟩
    · exact ⟨_, .callI h⟩
    · exact ⟨_, .imm h⟩
  · exact ⟨_, .ls (w.toNat / 4 % 4) (by omega)⟩
  · exact ⟨_, .ri6 (w.toNat / 4 % 16) (by omega)⟩

theorem fmtField_toNat (w : Word) : (fmtField w).toNat = w.toNat % 4 := by
  rw [fmtField, BitVec.extractLsb'_toNat]
  rfl

theorem decode_rr {w : Word} (h : w.toNat % 4 = 0) : decode w = decodeRr (fieldNat 2 5 w) (wordRd w) (wordRs w) := by
  simp only [decode, fmtField_toNat, h, toNat_extractLsb'_eq_fieldNat, rdField_eq_wordRd, rsField_eq_wordRs]

theorem decode_ls {w : Word} (h : w.toNat % 4 = 2) :
    decode w = decodeLs (fieldNat 2 2 w) (wordRd w) (wordRs w) (fieldNat 4 4 w) := by
  simp only [decode, fmtField_toNat, h, toNat_extractLsb'_eq_fieldNat, rdField_eq_wordRd, rsField_eq_wordRs,
    imm4Field_eq_fieldNat]

theorem decode_ri6 {w : Word} (h : w.toNat % 4 = 3) :
    decode w = decodeRi6 (fieldNat 2 4 w) (wordRd w) (fieldInt 6 6 w) := by
  simp only [decode, fmtField_toNat, h, toNat_extractLsb'_eq_fieldNat, rdField_eq_wordRd, imm6Field_eq_fieldInt]

/-- The wide-immediate family, by bits 2, 3 and 4 as numbers (R52 to R54). -/
theorem decode_wide {w : Word} (h : w.toNat % 4 = 1) :
    decode w =
      if w.toNat / 4 % 2 = 1 then
        if w.toNat / 8 % 2 = 1 then .imm (BitVec.ofNat 12 (fieldNat 4 12 w))
        else if w.toNat / 16 % 2 = 1 then .callI (fieldInt 5 11 w)
        else .jumpI (fieldInt 5 11 w)
      else if w.toNat / 8 % 2 = 1 then .loadcI (wordRd w) (fieldInt 4 8 w)
      else .moveI (wordRd w) (fieldInt 4 8 w) := by
  simp only [decode, fmtField_toNat, h, decodeWide, getLsbD_eq_decide, imm12Field_eq_ofNat,
    imm11Field_eq_fieldInt, imm8Field_eq_fieldInt, rdField_eq_wordRd]
  split_ifs <;> simp [*]

/-- The decoder follows R59. -/
theorem ReadsAs.decode_eq {w : Word} {i : Instr} (h : ReadsAs w i) : decode w = i := by
  cases h with
  | rr op h =>
    have hop : fieldNat 2 5 w = op := by simp only [fieldNat]; omega
    rw [decode_rr (by omega), hop]
  | ls op h =>
    have hop : fieldNat 2 2 w = op := by simp only [fieldNat]; omega
    rw [decode_ls (by omega), hop]
  | ri6 op h =>
    have hop : fieldNat 2 4 w = op := by simp only [fieldNat]; omega
    rw [decode_ri6 (by omega), hop]
  | moveI h => rw [decode_wide (by omega), if_neg (by omega), if_neg (by omega)]
  | loadcI h => rw [decode_wide (by omega), if_neg (by omega), if_pos (by omega)]
  | jumpI h => rw [decode_wide (by omega), if_pos (by omega), if_neg (by omega), if_neg (by omega)]
  | callI h => rw [decode_wide (by omega), if_pos (by omega), if_neg (by omega), if_pos (by omega)]
  | imm h => rw [decode_wide (by omega), if_pos (by omega), if_pos (by omega)]

/-! ## The opcode map by masks (R60) -/

theorem decode_rrRow {w : Word} (op : Fin 32) (h : w &&& 0x007F = BitVec.ofNat 16 (4 * op)) :
    decode w = decodeRr op (wordRd w) (wordRs w) :=
  (ReadsAs.rr op ((and_mask_eq_iff 7 _ w).mp h)).decode_eq

theorem decode_lsRow {w : Word} (op : Fin 4) (h : w &&& 0x000F = BitVec.ofNat 16 (4 * op + 2)) :
    decode w = decodeLs op (wordRd w) (wordRs w) (fieldNat 4 4 w) :=
  (ReadsAs.ls op ((and_mask_eq_iff 4 _ w).mp h)).decode_eq

theorem decode_ri6Row {w : Word} (op : Fin 16) (h : w &&& 0x003F = BitVec.ofNat 16 (4 * op + 3)) :
    decode w = decodeRi6 op (wordRd w) (fieldInt 6 6 w) :=
  (ReadsAs.ri6 op ((and_mask_eq_iff 6 _ w).mp h)).decode_eq

/-- Settles O1, row by row: format rr, the wide family, then ls and ri6. -/
theorem opcodeMapDecodes : Obligations.OpcodeMapDecodes := by
  intro w
  have rr := decode_rrRow (w := w)
  have ls := decode_lsRow (w := w)
  have ri6 := decode_ri6Row (w := w)
  exact ⟨rr 0, rr 1, rr 2, rr 3, rr 4, rr 5, rr 6, rr 7, rr 8, rr 9, rr 10, rr 11, rr 12, rr 13, rr 14, rr 15,
    rr 16, rr 17, rr 18, rr 19, rr 20, rr 21, rr 22, rr 23, rr 24, rr 25, rr 26, rr 27, rr 28, rr 29, rr 30, rr 31,
    fun h => (ReadsAs.moveI ((and_mask_eq_iff 4 1 w).mp h)).decode_eq,
    fun h => (ReadsAs.loadcI ((and_mask_eq_iff 4 9 w).mp h)).decode_eq,
    fun h => (ReadsAs.jumpI ((and_mask_eq_iff 5 5 w).mp h)).decode_eq,
    fun h => (ReadsAs.callI ((and_mask_eq_iff 5 21 w).mp h)).decode_eq,
    fun h => (ReadsAs.imm ((and_mask_eq_iff 4 13 w).mp h)).decode_eq,
    ls 0, ls 1, ls 2, ls 3,
    ri6 0, ri6 1, ri6 2, ri6 3, ri6 4, ri6 5, ri6 6, ri6 7, ri6 8, ri6 9, ri6 10, ri6 11,
    ri6 12, ri6 13, ri6 14, ri6 15⟩

/-! ## Every word is a well-formed instruction (R50, R57, R62) -/

theorem fitsImm6_fieldInt (w : Word) : fitsImm6 (fieldInt 6 6 w) = true := by
  simpa [fitsImm6] using fieldInt_bounds 6 5 w

theorem fitsImm8_fieldInt (w : Word) : fitsImm8 (fieldInt 4 8 w) = true := by
  simpa [fitsImm8] using fieldInt_bounds 4 7 w

theorem fitsImm11_fieldInt (w : Word) : fitsImm11 (fieldInt 5 11 w) = true := by
  simpa [fitsImm11] using fieldInt_bounds 5 10 w

theorem fitsImm4_fieldNat (w : Word) : fitsImm4 (fieldNat 4 4 w) = true := by
  simpa [fitsImm4] using Nat.le_of_lt_succ (fieldNat_lt 4 4 w)

theorem wellFormed_decodeRr (op : Nat) (rd rs : Reg) : (decodeRr op rd rs).wellFormed = true := by
  unfold decodeRr
  split <;> rfl

theorem wellFormed_decodeLs (op : Nat) (rd rs : Reg) {v : Nat} (h : fitsImm4 v = true) :
    (decodeLs op rd rs v).wellFormed = true := by
  unfold decodeLs
  split <;> exact h

theorem wellFormed_decodeRi6 (op : Nat) (rd : Reg) {v : Int} (h : fitsImm6 v = true) :
    (decodeRi6 op rd v).wellFormed = true := by
  unfold decodeRi6
  split <;> exact h

theorem wellFormed_decode (w : Word) : (decode w).wellFormed = true := by
  obtain ⟨i, h⟩ := exists_readsAs w
  rw [h.decode_eq]
  cases h with
  | rr op => exact wellFormed_decodeRr op _ _
  | moveI | loadcI => exact fitsImm8_fieldInt w
  | jumpI | callI => exact fitsImm11_fieldInt w
  | imm => rfl
  | ls op => exact wellFormed_decodeLs op _ _ (fitsImm4_fieldNat w)
  | ri6 op => exact wellFormed_decodeRi6 op _ (fitsImm6_fieldInt w)

theorem decodeTableWord_toNat (w : Word) : decodeTableWord 16 w.toNat = some (decode w) := by
  have hw : ¬65536 ≤ w.toNat := Nat.not_le.mpr w.isLt
  rw [decodeTableWord, decodeBits, if_neg (not_not.mpr rfl), if_neg hw, BitVec.ofNat_toNat, BitVec.setWidth_eq]

theorem decodeTableWord_eq_none {n w : Nat} (h : n ≠ 16 ∨ 65536 ≤ w) : decodeTableWord n w = none := by
  by_cases hn : n = 16
  · have hw : 65536 ≤ w := h.resolve_left (not_not.mpr hn)
    rw [decodeTableWord, decodeBits, if_neg (not_not.mpr hn), if_pos hw]
  · rw [decodeTableWord, decodeBits, if_pos hn]

/-- Settles O4: the fields of a word fit their ranges, in whichever format it is read. -/
theorem everyWordDecodesWellFormed : Obligations.EveryWordDecodesWellFormed :=
  ⟨fun w => ⟨wellFormed_decode w, decodeTableWord_toNat w⟩, fun _ _ => decodeTableWord_eq_none⟩

/-! ## Prefix instructions (R61) -/

theorem isPrefixing_decodeRr (op : Nat) (rd rs : Reg) :
    (decodeRr op rd rs).isPrefixing = true ↔ op = 18 ∨ op = 19 := by
  unfold decodeRr
  split <;> simp_all [Instr.isPrefixing]

theorem isPrefixing_decodeLs (op : Nat) (rd rs : Reg) (v : Nat) : (decodeLs op rd rs v).isPrefixing = false := by
  unfold decodeLs
  split <;> rfl

theorem isPrefixing_decodeRi6 (op : Nat) (rd : Reg) (v : Int) :
    (decodeRi6 op rd v).isPrefixing = true ↔ op = 2 ∨ op = 3 := by
  unfold decodeRi6
  split <;> simp_all [Instr.isPrefixing]

/-- The low bits of a word, as a number, tell both its format and its row. -/
theorem isPrefixing_decode_iff (w : Word) :
    (decode w).isPrefixing = true ↔
      w.toNat % 16 = 0xD ∨ w.toNat % 128 = 0x48 ∨ w.toNat % 64 = 0x0B ∨ w.toNat % 128 = 0x4C ∨
        w.toNat % 64 = 0x0F := by
  obtain ⟨i, h⟩ := exists_readsAs w
  rw [h.decode_eq]
  cases h with
  | rr op h => rw [isPrefixing_decodeRr]; omega
  | moveI | loadcI | jumpI | callI => simp only [Instr.isPrefixing, Bool.false_eq_true, false_iff]; omega
  | imm h => exact iff_of_true rfl (.inl h)
  | ls op h => simp only [isPrefixing_decodeLs, Bool.false_eq_true, false_iff]; omega
  | ri6 op h => rw [isPrefixing_decodeRi6]; omega

/-- Settles O6: each mask takes the low bits as a number. -/
theorem prefixInstructionsByWord : Obligations.PrefixInstructionsByWord := fun w =>
  (isPrefixing_decode_iff w).trans
    (or_congr (and_mask_eq_iff 4 0xD w) (or_congr (and_mask_eq_iff 7 0x48 w) (or_congr (and_mask_eq_iff 6 0x0B w)
      (or_congr (and_mask_eq_iff 7 0x4C w) (and_mask_eq_iff 6 0x0F w))))).symm

/-! ## Don't-care bits (R63) -/

theorem wordRd_eq_of_and_eq {u w m : Word} (h : u &&& m = w &&& m) (hm : m.extractLsb' 12 4 = BitVec.allOnes 4) :
    wordRd u = wordRd w := by
  rw [wordRd, wordRd, fieldNat_eq_of_and_eq h hm]

theorem wordRs_eq_of_and_eq {u w m : Word} (h : u &&& m = w &&& m) (hm : m.extractLsb' 8 4 = BitVec.allOnes 4) :
    wordRs u = wordRs w := by
  rw [wordRs, wordRs, fieldNat_eq_of_and_eq h hm]

theorem decode_xor_bit7 {w : Word} (h : w &&& 3 = 0) : decode (w ^^^ 0x80) = decode w := by
  have hmask : (w ^^^ 0x80) &&& 0xFF7F = w &&& 0xFF7F := by
    apply BitVec.eq_of_toNat_eq
    rw [BitVec.toNat_and, BitVec.toNat_xor, Nat.and_xor_distrib_right, BitVec.toNat_and]
    exact Nat.xor_zero _
  have hw : w.toNat % 4 = 0 := (and_mask_eq_iff 2 0 w).mp h
  have hx : (w ^^^ 0x80).toNat % 4 = 0 := by
    have := fieldNat_eq_of_and_eq (lo := 0) (n := 2) hmask rfl
    simp only [fieldNat] at this
    omega
  rw [decode_rr hx, decode_rr hw, fieldNat_eq_of_and_eq hmask rfl, wordRd_eq_of_and_eq hmask rfl,
    wordRs_eq_of_and_eq hmask rfl]

/-- Two words of one rr row, when the row does not read what tells them apart. -/
theorem decode_eq_of_rrRow {u w : Word} (op : Fin 32) (h : w &&& 0x7F = u &&& 0x7F)
    (hw : w &&& 0x7F = BitVec.ofNat 16 (4 * op))
    (hread : decodeRr op (wordRd u) (wordRs u) = decodeRr op (wordRd w) (wordRs w)) : decode u = decode w := by
  rw [decode_rrRow op (h.symm.trans hw), decode_rrRow op hw, hread]

theorem bit7_packRr (op : BitVec 5) (rd rs : Reg) : packRr op rd rs &&& 0x80 = 0 := by
  unfold packRr
  ext i hi
  interval_cases i <;> simp
  grind

/-- Only the words of format rr have the format code 00. -/
theorem encode_rr_or_fmt (i : Instr) : (∃ op rd rs, encode i = packRr op rd rs) ∨ fmtField (encode i) ≠ 0 := by
  cases i with
  | moveI | loadcI => exact .inr (by rw [encode, fmtField_packI8]; decide)
  | jumpI | callI => exact .inr (by rw [encode, fmtField_packI11]; decide)
  | imm => exact .inr (by rw [encode, fmtField_packI12]; decide)
  | loadI | storeI | loadbI | storebI => exact .inr (by rw [encode, fmtField_packLs]; decide)
  | addI | subI | addcI | subcI | xorI | andI | orI | shlI | shrI | asrI | ifEqI | ifNeI | ifLtI | ifGeI | ifUltI
  | ifUgeI => exact .inr (by rw [encode, fmtField_packRi6]; decide)
  | _ => exact .inl ⟨_, _, _, rfl⟩

theorem encode_bit7 {i : Instr} (h : encode i &&& 3 = 0) : encode i &&& 0x80 = 0 := by
  obtain ⟨op, rd, rs, hi⟩ | hfmt := encode_rr_or_fmt i
  · rw [hi, bit7_packRr]
  · have hzero : (encode i).toNat % 4 = 0 := (and_mask_eq_iff 2 0 _).mp h
    exact absurd (BitVec.eq_of_toNat_eq ((fmtField_toNat _).trans hzero)) hfmt

/-- Settles O5: words that agree on the bits of a mask agree on the fields inside it, and no row reads more. -/
theorem ignoredBitsDoNotMatter : Obligations.IgnoredBitsDoNotMatter := by
  refine ⟨fun w => decode_xor_bit7, fun u w h hrow => ?_, fun u w h hrow => ?_, fun i => encode_bit7⟩
  · simp only [List.mem_cons, List.not_mem_nil, or_false] at hrow
    obtain hw | hw | hw | hw | hw | hw | hw := hrow
    · exact decode_eq_of_rrRow 0 h hw rfl
    · exact decode_eq_of_rrRow 1 h hw rfl
    · exact decode_eq_of_rrRow 2 h hw rfl
    · exact decode_eq_of_rrRow 3 h hw rfl
    · exact decode_eq_of_rrRow 5 h hw rfl
    · exact decode_eq_of_rrRow 9 h hw rfl
    · exact decode_eq_of_rrRow 11 h hw rfl
  · have hrd : wordRd u = wordRd w := wordRd_eq_of_and_eq h.symm rfl
    have hlow : w &&& 0x7F = u &&& 0x7F := by
      have hkeep (v : Word) : v &&& 0xF07F &&& 0x7F = v &&& 0x7F := by rw [BitVec.and_assoc]; rfl
      rw [← hkeep w, h, hkeep]
    simp only [List.mem_cons, List.not_mem_nil, or_false] at hrow
    obtain hw | hw | hw := hrow
    · exact decode_eq_of_rrRow 4 hlow hw (congrArg Instr.rcsr hrd)
    · exact decode_eq_of_rrRow 8 hlow hw (congrArg Instr.jump hrd)
    · exact decode_eq_of_rrRow 10 hlow hw (congrArg Instr.call hrd)

end Sys2Proof

namespace Sys2Proof.Laws.EncodeRoundTrip

/-! ## The round trip (R59) -/

/-- The law of each instruction, in the order of the constructors. -/
theorem statement_of_every_instr (i : Instr) : Statement i :=
  i.casesOn nop rets error halt rcsr wcsr move loadc jump nopOp9 call nopOp11 load store loadb storeb
    add sub addc subc xor and or shl shr asr ifEq ifNe ifLt ifGe ifUlt ifUge
    moveI loadcI jumpI callI imm loadI storeI loadbI storebI
    addI subI addcI subcI xorI andI orI shlI shrI asrI ifEqI ifNeI ifLtI ifGeI ifUltI ifUgeI

/-- Settles O3: every constructor has its law. -/
theorem decodeEncodeRoundTrip : Obligations.DecodeEncodeRoundTrip := statement_of_every_instr

end Sys2Proof.Laws.EncodeRoundTrip

end

section
/-! SUPPORT. The immediate of an instruction word, with and without an `imm` before it (spec/30_encoding.md R57, R65),
and obligations O7 and O8. -/

namespace Sys2Proof.Machine

/-- The low bits of a signed field are the field's own low bits. -/
theorem ofInt_toInt_extractLsb' (lo : Nat) {m n : Nat} (h : m ≤ n) (w : Word) :
    BitVec.ofInt m (w.extractLsb' lo n).toInt = w.extractLsb' lo m :=
  (BitVec.signExtend_eq_setWidth_of_le _ h).trans (BitVec.setWidth_extractLsb'_of_le h)

/-- Settles O7: a pending `imm` leaves the low bits of the field, and without one the field is extended. -/
theorem immediateAssembly : Obligations.ImmediateAssembly := by
  intro s w
  refine ⟨fun h => ⟨?_, ?_, ?_, ?_⟩, fun h => ⟨?_, ?_, ?_, ?_⟩, ?_, ?_, ?_, ?_⟩
  · rw [State.immval_pending h, imm8Field, ofInt_toInt_extractLsb' 4 (by omega)]
  · rw [State.immval_pending h, imm11Field, ofInt_toInt_extractLsb' 5 (by omega)]
  · rw [State.immval4_pending h, imm4Field, BitVec.ofNat_toNat, BitVec.setWidth_eq]
  · rw [State.immval_pending h, imm6Field, ofInt_toInt_extractLsb' 6 (by omega)]
  · exact State.immval_plain h _
  · exact State.immval_plain h _
  · rw [State.immval4_plain h, imm4Field, BitVec.ofNat_toNat]
  · exact State.immval_plain h _
  · rw [imm8Field_eq_fieldInt]
    exact fieldInt_bounds 4 7 w
  · rw [imm11Field_eq_fieldInt]
    exact fieldInt_bounds 5 10 w
  · exact Nat.le_of_lt_succ (w.extractLsb' 4 4).isLt
  · rw [imm6Field_eq_fieldInt]
    exact fieldInt_bounds 6 5 w

theorem exec_imm_completes {s : State} (v : BitVec 12) (h : s.cfg.immAfterCarry ≠ .refuse ∨ s.uc = false) :
    ∃ t, exec (.imm v) s = .next t := by
  change ∃ t, execImm v s = .next t
  unfold execImm
  split
  · exact ⟨_, rfl⟩
  · exact ⟨_, rfl⟩
  · next hc =>
    rw [h.resolve_left (not_not.mpr hc)]
    exact ⟨_, rfl⟩

/-- Settles O8: `imm` leaves its field pending, and the two parts of `v` join to `v`. -/
theorem immSuppliesAnyConstant : Obligations.ImmSuppliesAnyConstant := by
  intro s v h
  obtain ⟨t, ht⟩ := exec_imm_completes (v.extractLsb' 4 12) h
  obtain ⟨hv, himm, -, -⟩ := (exec_shape ht).imm_effect
  have hjoin : v.extractLsb' 4 12 ++ v.extractLsb' 0 4 = v := by
    rw [BitVec.extractLsb'_append_extractLsb'_eq_extractLsb' (start₁ := 0) (len₁ := 4) rfl]
    exact BitVec.extractLsb'_eq_self
  refine ⟨t, ht, fun f hf => ?_, fun f hf => ?_⟩
  · rw [State.immval_pending hv, himm, hf, hjoin]
  · rw [State.immval4_pending hv, himm, hf, hjoin]

end Sys2Proof.Machine
end

section
/-! SUPPORT. The system instructions (spec/40_system.md R80 to R85, spec/60_exceptions.md R165), and obligations O24, O26,
O32, O33 and O34. -/

namespace Sys2Proof.Machine

/-! ## rets (R81) -/

/-- The mode that is entered continues where it last stopped (R81). -/
@[simp] theorem State.pc_switchMode (s : State) : s.switchMode.pc = s.pcOf (otherMode s.k) :=
  (State.pcOf_switchMode s (otherMode s.k)).trans (if_neg (otherMode_ne s.k))

theorem exec_rets (s : State) : exec .rets s = .next s.switchMode := rfl

/-- Settles O24: the words are one row of the opcode map, the effect is that of the mode switch. -/
theorem retsSwitchesModes : Obligations.RetsSwitchesModes := by
  refine ⟨rfl, fun w h => decode_rrRow 1 h, fun s => ⟨s.switchMode, exec_rets s, rfl, ?_, s.pc_switchMode, fun m hm => ?_,
    s.regOf_switchMode, ⟨rfl, rfl, rfl⟩, rfl, rfl, rfl, rfl, .refl_of rfl rfl rfl rfl rfl, .refl_of rfl rfl rfl⟩⟩
  · rw [State.pcOf_switchMode, if_pos rfl, State.pc]
  · rw [State.pcOf_switchMode, if_neg hm]

/-- Two mode switches advance both program counters: the first that of the mode it leaves, the second that of the other. -/
theorem State.pcOf_switchMode_switchMode (s : State) (m : Mode) :
    s.switchMode.switchMode.pcOf m = pcBits s.cfg.pcWidth (s.pcOf m + 1) := by
  rw [State.pcOf_switchMode, State.switchMode_k, State.switchMode_cfg, State.pc_switchMode]
  by_cases hm : m = s.k
  · rw [hm, if_neg (ne_otherMode s.k), State.pcOf_switchMode, if_pos rfl, State.pc]
  · rw [eq_otherMode_of_ne hm, if_pos rfl]

/-- Settles O26: the machine after both is the mode switch applied twice. -/
theorem retsTwiceComesBack : Obligations.RetsTwiceComesBack := fun s =>
  ⟨s.switchMode.switchMode, by simp only [execSeq, exec_rets], otherMode_otherMode s.k, s.pcOf_switchMode_switchMode,
    fun m i => by rw [State.regOf_switchMode, State.regOf_switchMode], .refl_of rfl rfl rfl⟩

/-! ## nop, and the register forms of opcodes 9 and 11 (R80, R95) -/

/-- The epilogue of a regular instruction continues at the next word. -/
theorem State.finish_eq_finishAt (s : State) : s.finish = s.finishAt (s.pc + 1) := by
  rw [State.finish, State.advance, State.finishAt, State.pc, State.pcOf_clearPrefix, State.clearPrefix_k, State.pc]

/-- An instruction that is nothing but its epilogue only moves on. -/
theorem jumpsTo_next_of_finish {i : Instr} {s : State} (h : exec i s = .next s.finish) : JumpsTo i s (s.pc + 1) :=
  jumpsTo_of_finishAt (h.trans (congrArg _ s.finish_eq_finishAt))

/-- Settles O32: each of the three is its epilogue, and its word a row of format rr. -/
theorem nopFormsOnlyMoveOn : Obligations.NopFormsOnlyMoveOn := fun _ =>
  ⟨jumpsTo_next_of_finish rfl, jumpsTo_next_of_finish rfl, jumpsTo_next_of_finish rfl,
    mask_packRr 0 0 0, mask_packRr 9 0 0, mask_packRr 11 0 0, rfl⟩

/-! ## halt and error (R82, R83) -/

/-- The machine after `halt` or `error`: the prefix state cleared, the two lines as given. -/
def State.stopWith (s : State) (halt error : Bool) : State := { s.clearPrefix with halt := halt, error := error }

theorem exec_halt (s : State) : exec .halt s = .next (s.stopWith true s.error) := rfl

theorem exec_error (s : State) : exec .error s = .next (s.stopWith s.halt true) := rfl

/-- What stopping leaves unchanged, and that a machine with a line up stands still in the next cycle. -/
theorem stopWith_frame {s t : State} {halt error : Bool} (ht : t = s.stopWith halt error)
    (hline : halt = true ∨ error = true) :
    PrefixCleared t ∧ t.pcOf s.k = s.pcOf s.k ∧ KeepsBanksBut s t none ∧ t.k = s.k ∧ t.imm = s.imm ∧ t.skip = s.skip ∧
      KeepsSetting s t ∧ KeepsDataMemory s t ∧
      (t.input.reset = false → step t = .next { t with inputs := t.inputs.tail }) := by
  subst ht
  have hpc : ∀ m, (s.stopWith halt error).pcOf m = s.pcOf m := State.pcOf_congr rfl rfl
  have hreg : ∀ m i, (s.stopWith halt error).regOf m i = s.regOf m i := State.regOf_congr rfl rfl
  exact ⟨⟨rfl, rfl, rfl⟩, hpc s.k, ⟨fun m i _ => hreg m i, fun m _ => hpc m⟩, rfl, rfl, rfl,
    .refl_of rfl rfl rfl rfl rfl, .refl_of rfl rfl rfl, fun hr => step_stopped hr hline⟩

/-- Settles O33: both stop the machine, with one line up and the other as it was. -/
theorem haltAndErrorRaiseTheirLine : Obligations.HaltAndErrorRaiseTheirLine := fun s =>
  ⟨⟨_, exec_halt s, rfl, rfl, stopWith_frame rfl (.inl rfl)⟩, ⟨_, exec_error s, rfl, rfl, stopWith_frame rfl (.inr rfl)⟩,
    mask_packRr 3 0 0, mask_packRr 2 0 0, rfl, rfl⟩

/-! ## rcsr and wcsr (R84, R85) -/

theorem exec_rcsr_of_not_errata {s : State} (h : s.cfg.errata = false) (rd : Reg) :
    exec (.rcsr rd) s = .refused .rcsrNotImplemented := by
  change execRcsr rd s = _
  rw [execRcsr, h, if_neg Bool.false_ne_true]

/-- Settles O34. -/
theorem csrInstructionsAreRefused : Obligations.CsrInstructionsAreRefused := fun _ =>
  ⟨rfl, mask_packRr 5 0 0, fun rd => ⟨mask_packRr 4 rd 0, fun h => exec_rcsr_of_not_errata h rd⟩⟩

end Sys2Proof.Machine
end

section
/-! SUPPORT. Move, constants, jumps, calls and `imm` (spec/41_move_control.md R90 to R94), and obligations O36 to O40. -/

namespace Sys2Proof.Machine

/-! ## move (R90) -/

/-- Settles O36: both forms are a register write with the epilogue of a regular instruction. -/
theorem moveWritesRegister : Obligations.MoveWritesRegister := fun _ rd =>
  ⟨fun rs => ⟨writes_of_writeBack rfl, mask_packRr 6 rd rs⟩, fun v => ⟨writes_of_writeBack rfl, mask_packI8 0 rd v⟩⟩

/-! ## loadc (R91) -/

theorem exec_loadc (rd rs : Reg) (s : State) : exec (.loadc rd rs) s = loadConstant rd (s.reg rs) s := rfl

theorem exec_loadcI (rd : Reg) (v : Int) (s : State) :
    exec (.loadcI rd v) s = loadConstant rd (s.pc + s.immval v) s := rfl

section LoadConstant

variable {s : State} (rd : Reg) {a : Word}

theorem loadConstant_inside (hu : s.cfg.unimpl = .asDocumented) (h : a.toNat < s.cfg.pmemWords) :
    loadConstant rd a s = s.writeBack rd (s.programWordAt a) := by
  simp only [loadConstant, hu, State.pmemRead_of_lt h]

theorem loadConstant_outside (hu : s.cfg.unimpl = .asDocumented) (h : s.cfg.pmemWords ≤ a.toNat) :
    loadConstant rd a s = .fault .outsideProgramMemory := by
  simp only [loadConstant, hu, State.pmemRead_of_le h]

theorem loadConstant_refused (hu : s.cfg.unimpl = .refuse) : loadConstant rd a s = .refused .loadcNotImplemented := by
  simp only [loadConstant, hu]

end LoadConstant

/-- Settles O37: both forms are `loadConstant` at their address, which has one outcome for each case. -/
theorem loadcReadsProgramMemory : Obligations.LoadcReadsProgramMemory := by
  refine ⟨fun rd => ⟨mask_packRr 7 rd, mask_packI8 1 rd⟩, fun s rd i a hform => ?_⟩
  have hexec : exec i s = loadConstant rd a s := by
    obtain ⟨rs, rfl, rfl⟩ | ⟨v, rfl, rfl⟩ := hform
    · exact exec_loadc rd rs s
    · exact exec_loadcI rd v s
  exact ⟨fun hu h => writes_of_writeBack (hexec.trans (loadConstant_inside rd hu h)),
    fun hu h => hexec.trans (loadConstant_outside rd hu h), fun hu => hexec.trans (loadConstant_refused rd hu)⟩

/-! ## Relative targets, by `REL_BASE` -/

theorem State.relativeTarget_ownAddress {s : State} (h : s.cfg.relBase = .ownAddress) (v : Int) :
    s.relativeTarget v = s.pc + s.immval v := by
  rw [State.relativeTarget, h, relBaseValue, add_zero]

theorem State.relativeTarget_nextInstruction {s : State} (h : s.cfg.relBase = .nextInstruction) (v : Int) :
    s.relativeTarget v = s.pc + 1 + s.immval v := by
  rw [State.relativeTarget, h, relBaseValue]

/-! ## jump (R92) -/

theorem exec_jump_of_not_errata {s : State} (h : s.cfg.errata = false) (rd : Reg) :
    exec (.jump rd) s = .next (s.finishAt (s.reg rd)) := by
  change execJump rd s = _
  rw [execJump, h, if_neg Bool.false_ne_true]

theorem jumpI_jumpsTo_relativeTarget (s : State) (v : Int) : JumpsTo (.jumpI v) s (s.relativeTarget v) :=
  jumpsTo_of_finishAt rfl

/-- Settles O38: the immediate form continues at the relative target, which `REL_BASE` places. -/
theorem jumpSetsPc : Obligations.JumpSetsPc := by
  refine fun s => ⟨fun rd => ⟨mask_packRr 8 rd 0, fun he => ?_⟩, fun v => ⟨mask_packI11 0 v, fun hb => ?_, fun hb => ?_⟩⟩
  · exact jumpsTo_of_finishAt (exec_jump_of_not_errata he rd)
  · exact State.relativeTarget_ownAddress hb v ▸ jumpI_jumpsTo_relativeTarget s v
  · exact State.relativeTarget_nextInstruction hb v ▸ jumpI_jumpsTo_relativeTarget s v

/-! ## call (R94) -/

theorem exec_call_of_not_errata {s : State} (h : s.cfg.errata = false) (rd : Reg) :
    exec (.call rd) s = callTo (s.reg rd) s := by
  change execCall rd s = _
  rw [execCall, h, if_neg Bool.false_ne_true]

theorem exec_callI (s : State) (v : Int) : exec (.callI v) s = callTo (s.relativeTarget v) s := rfl

/-- Settles O39: each form is `callTo` at its target, computed in the state before the call. -/
theorem callSavesReturnAddress : Obligations.CallSavesReturnAddress := by
  refine ⟨⟨fun rd => mask_packRr 10 rd 0, mask_packI11 1⟩, fun s i target hform => ?_⟩
  have hexec : exec i s = callTo target s := by
    obtain ⟨rd, rfl, he, rfl⟩ | ⟨v, rfl, ⟨hb, rfl⟩ | ⟨hb, rfl⟩⟩ := hform
    · exact exec_call_of_not_errata he rd
    · rw [exec_callI, State.relativeTarget_ownAddress hb]
    · rw [exec_callI, State.relativeTarget_nextInstruction hb]
  rw [hexec]
  exact callTo_effect s target

/-! ## imm (R93) -/

theorem exec_imm_refused {s : State} (v : BitVec 12) (hc : s.cfg.immAfterCarry = .refuse) (hu : s.uc = true) :
    exec (.imm v) s = .refused .immAfterCarry := by
  change execImm v s = _
  rw [execImm, hc, if_pos hu]

/-- Whatever `IMM_AFTER_CARRY` is, `imm` writes the immediate register and the prefix flags and advances. -/
theorem exec_imm_next {v : BitVec 12} {s t : State} (h : exec (.imm v) s = .next t) :
    ∃ c uc, t = { s with imm := v, immv := true, c := c, uc := uc }.advance := by
  change execImm v s = .next t at h
  unfold execImm at h
  split at h
  · cases h
    exact ⟨false, false, rfl⟩
  · cases h
    exact ⟨s.c, s.uc, rfl⟩
  · split at h <;> cases h
    exact ⟨false, false, rfl⟩

/-- What `imm` leaves unchanged beside memories and setting. -/
theorem exec_imm_frame {v : BitVec 12} {s t : State} (h : exec (.imm v) s = .next t) :
    KeepsBanksBut s t none ∧ t.k = s.k ∧ t.skip = s.skip ∧ t.halt = s.halt ∧ t.error = s.error := by
  have hbank : ∀ m, m ≠ s.k → t.pcOf m = s.pcOf m := fun _ hm => congrArg Bank.pc ((exec_shape h).bank_of_ne hm)
  obtain ⟨c, uc, rfl⟩ := exec_imm_next h
  exact ⟨⟨fun m i _ => (State.regOf_advance _ m i).trans (State.regOf_congr rfl rfl m i), hbank⟩, rfl, rfl, rfl, rfl⟩

/-- Settles O40: `imm` is refused or completes, and its effect is that of its shape. -/
theorem immLoadsImmediateRegister : Obligations.ImmLoadsImmediateRegister := by
  refine fun s v => ⟨mask_packI12 v, exec_imm_refused v, fun hcompletes => ?_⟩
  obtain ⟨t, ht⟩ := exec_imm_completes v hcompletes
  have hs := exec_shape ht
  obtain ⟨himmv, himm, hkeep, hclear⟩ := hs.imm_effect
  obtain ⟨hbanks, hk, hskip, hhalt, herror⟩ := exec_imm_frame ht
  exact ⟨t, ht, himm, himmv, hs.pcOf_advanced rfl, hkeep, hclear, hbanks, hk, hskip, hhalt, herror, hs.keepsSetting,
    hs.keepsDataMemory rfl⟩

end Sys2Proof.Machine
end

section
/-! SUPPORT. What a load writes and a store changes (spec/42_load_store.md R100 to R104), and obligations O41 to O45. -/

namespace Sys2Proof.Machine

/-! ## Effective addresses (R100) -/

/-- Settles O41: clearing bit 0 of the base and doubling the offset leave an even sum, and 65536 is even. -/
theorem effectiveAddresses : Obligations.EffectiveAddresses := by
  intro base off
  refine ⟨wordAddress_toNat base off, BitVec.toNat_add base off, ?_⟩
  rw [wordAddress_toNat]
  omega

/-! ## The two forms of a load or store (R100) -/

/-- The offset of the register form is 0, that of the other form its immediate. -/
theorem exec_at_offset {i form : Instr} {formI : Nat → Instr} {s : State} {off : Word} (op : Word → State → Result)
    (hform : (i = form ∧ off = 0) ∨ ∃ n, i = formI n ∧ off = s.immval4 n) (h : exec form s = op 0 s)
    (hI : ∀ n, exec (formI n) s = op (s.immval4 n) s) : exec i s = op off s := by
  obtain ⟨rfl, rfl⟩ | ⟨n, rfl, rfl⟩ := hform
  · exact h
  · exact hI n

/-! ## Loads (R101, R103) -/

/-- Settles O42: both forms are `loadWord` at their offset, which joins the two bytes in the machine's order. -/
theorem loadReadsWord : Obligations.LoadReadsWord := by
  refine ⟨fun rd rs => ⟨mask_packRr 12 rd rs, mask_packLs 0 rd rs⟩, fun s rd rs i off ea hform hea => ?_⟩
  have hexec : exec i s = loadWord rd (s.reg rs) off s :=
    exec_at_offset (loadWord rd (s.reg rs)) hform (exec_load s rd rs) (exec_loadI s rd rs)
  subst hea
  refine ⟨fun hm hlo hhi => ?_, fun hm => writes_of_writeBack (hexec.trans (loadWord_wordIndexed hm rd _ off))⟩
  have hload := writes_of_writeBack (hexec.trans (loadWord_inside hm rd ⟨hlo, hhi⟩))
  exact ⟨fun ho => by rwa [ho] at hload, fun ho => by rwa [ho] at hload⟩

/-- Settles O44: both forms are `loadByte` at their offset, and zero extension puts a zero byte above the loaded one. -/
theorem loadbReadsByte : Obligations.LoadbReadsByte := by
  refine ⟨fun rd rs => ⟨mask_packRr 14 rd rs, mask_packLs 2 rd rs⟩, fun s rd rs i off ea hform hea => ?_⟩
  have hexec : exec i s = loadByte rd (s.reg rs) off s :=
    exec_at_offset (loadByte rd (s.reg rs)) hform (exec_loadb s rd rs) (exec_loadbI s rd rs)
  subst hea
  refine ⟨fun hm hin => ?_, fun hm => hexec.trans (loadByte_wordIndexed hm rd _ off)⟩
  have hload := writes_of_writeBack (hexec.trans (loadByte_inside hm rd hin))
  rwa [BitVec.setWidth_eq_append (by omega)] at hload

/-! ## Stores (R102, R104) -/

/-- A form that changes data memory alone and ends as a regular instruction: its whole effect but for the memory, and
what `P` says of the memory afterwards. -/
theorem completes_of_dataMemoryWrite {i : Instr} {s u : State} {P : State → Prop} (h : exec i s = .next u.finish)
    (hu : u = { s with mem := u.mem, memw := u.memw }) (hP : P u.finish) :
    ∃ t, exec i s = .next t ∧ t.pcOf s.k = pcBits s.cfg.pcWidth (s.pcOf s.k + 1) ∧ PrefixCleared t ∧ KeepsCore s t none ∧
      t.skip = s.skip ∧ P t := by
  obtain ⟨m, w, rfl⟩ : ∃ m w, u = { s with mem := m, memw := w } := ⟨_, _, hu⟩
  obtain ⟨hcore, hpc⟩ := finish_keepsCore (s := s) (u := { s with mem := m, memw := w }) (fun _ => rfl)
    ⟨rfl, rfl, rfl, rfl⟩ (.refl_of rfl rfl rfl rfl rfl)
  exact ⟨_, h, hpc, ⟨rfl, rfl, rfl⟩, hcore, rfl, hP⟩

/-- A word write changes two bytes. -/
theorem State.byteAt_setWord_of_ne (s : State) {a b : Word} (v : Word) (hlo : b ≠ a) (hhi : b ≠ a + 1) :
    (s.setWord a v).byteAt b = s.byteAt b := by
  rw [State.setWord, State.byteAt_setByte, if_neg hhi, State.byteAt_setByte, if_neg hlo]

/-- Settles O43: both forms are `storeWord` at their offset, which writes the two bytes, or the indexed word, and no
other. -/
theorem storeWritesWord : Obligations.StoreWritesWord := by
  refine ⟨fun rd rs => ⟨mask_packRr 13 rd rs, mask_packLs 1 rd rs⟩, fun s rd rs i off ea hform hea => ?_⟩
  have hexec : exec i s = storeWord rd (s.reg rs) off s :=
    exec_at_offset (storeWord rd (s.reg rs)) hform (exec_store s rd rs) (exec_storeI s rd rs)
  subst hea
  refine ⟨fun hm hlo hhi => ?_, fun hm => ?_⟩
  · refine completes_of_dataMemoryWrite (hexec.trans (storeWord_inside hm rd ⟨hlo, hhi⟩)) rfl ?_
    simp only [State.byteAt_finish, State.byteAt_setWord, State.byteAt_setWord_add_one]
    exact ⟨fun ho => ho ▸ ⟨rfl, rfl⟩, fun ho => ho ▸ ⟨rfl, rfl⟩, fun b => s.byteAt_setWord_of_ne _, fun _ => rfl⟩
  · refine completes_of_dataMemoryWrite (hexec.trans (storeWord_wordIndexed hm rd _ off)) rfl ?_
    simp only [State.indexedWordAt_finish, State.indexedWordAt_setIndexedWord]
    exact ⟨if_pos rfl, fun b hb => if_neg hb, fun _ => rfl⟩

/-- Settles O45: both forms are `storeByte` at their offset, which writes one byte, the low one of the register. -/
theorem storebWritesByte : Obligations.StorebWritesByte := by
  refine ⟨fun rd rs => ⟨mask_packRr 15 rd rs, mask_packLs 3 rd rs⟩, fun s rd rs i off ea hform hea => ?_⟩
  have hexec : exec i s = storeByte rd (s.reg rs) off s :=
    exec_at_offset (storeByte rd (s.reg rs)) hform (exec_storeb s rd rs) (exec_storebI s rd rs)
  subst hea
  refine ⟨fun hm hin => ?_, fun hm => hexec.trans (storeByte_wordIndexed hm rd _ off)⟩
  refine completes_of_dataMemoryWrite (hexec.trans (storeByte_inside hm rd hin)) rfl ?_
  simp only [State.byteAt_finish, State.byteAt_setByte, if_true]
  exact ⟨BitVec.setWidth_eq_extractLsb' (by decide), fun b hb => if_neg hb, fun _ => rfl⟩

end Sys2Proof.Machine
end

section
/-! SUPPORT. Arithmetic, logic and shifts on one word (spec/43_alu.md R110 to R120), and obligations O49, O50, O53 and
O54. -/

namespace Sys2Proof.Machine

/-! ## The two halves of a 17-bit result (R110 to R113) -/

theorem low16_add_bit16 (x : BitVec 17) : (low16 x).toNat + 65536 * (bit16 x).toNat = x.toNat := by
  have hx := x.isLt
  rw [low16_toNat, bit16, BitVec.getLsbD, Nat.toNat_testBit]
  omega

theorem low16_sum17 (a b : Word) (c : Bool) : low16 (sum17 a b c) = a + b + if c then 1 else 0 := by
  apply BitVec.eq_of_toNat_eq
  rw [low16_toNat, sum17_toNat]
  cases c <;> simp

theorem low16_diff17 (a b : Word) (c : Bool) : low16 (diff17 a b c) = a - b - if c then 1 else 0 := by
  have hdiff := diff17_toNat a b c
  have ha := a.isLt
  have hb := b.isLt
  apply BitVec.eq_of_toNat_eq
  rw [low16_toNat]
  cases c <;> simp [BitVec.toNat_sub] at hdiff ⊢ <;> omega

theorem low16_diff17_toNat (a b : Word) (c : Bool) :
    ((low16 (diff17 a b c)).toNat : Int) = (a.toNat - b.toNat - c.toNat : Int) % 65536 := by
  have hdiff := diff17_toNat a b c
  rw [low16_toNat]
  omega

theorem bit16_sum17_iff (a b : Word) (c : Bool) :
    bit16 (sum17 a b c) = true ↔ 65536 ≤ a.toNat + b.toNat + c.toNat := by
  rw [bit16_iff, sum17_toNat]

/-- A borrow is what makes the difference negative. -/
theorem bit16_diff17_iff (a b : Word) (c : Bool) :
    bit16 (diff17 a b c) = true ↔ a.toNat < b.toNat + c.toNat := by
  have hdiff := diff17_toNat a b c
  have ha := a.isLt
  have hb := b.isLt
  have hc := c.toNat_lt
  rw [bit16_iff]
  omega

/-! ## add and sub (R110, R111) -/

theorem addTo_eq_writeBack (rd : Reg) (b : Word) (s : State) :
    addTo rd b s = s.writeBack rd (s.reg rd + b + if s.c then 1 else 0) := by
  rw [addTo, low16_sum17]

theorem subFrom_eq_writeBack (rd : Reg) (b : Word) (s : State) :
    subFrom rd b s = s.writeBack rd (s.reg rd - b - if s.c then 1 else 0) := by
  rw [subFrom, low16_diff17]

/-- Settles O49: both forms of `add` are `addTo` at their operand, both forms of `sub` are `subFrom`. -/
theorem addAndSubWriteRegister : Obligations.AddAndSubWriteRegister := by
  rintro s rd _ _ rfl
  refine ⟨?_, ?_⟩
  · rintro rs rfl
    exact ⟨writes_of_writeBack (addTo_eq_writeBack rd _ s), writes_of_writeBack (subFrom_eq_writeBack rd _ s),
      mask_packRr 16 rd rs, mask_packRr 17 rd rs⟩
  · rintro v rfl
    exact ⟨writes_of_writeBack (addTo_eq_writeBack rd _ s), writes_of_writeBack (subFrom_eq_writeBack rd _ s),
      mask_packRi6 0 rd v, mask_packRi6 1 rd v⟩

/-! ## addc and subc (R112, R113) -/

/-- The instruction completes as a prefixing one that does nothing else than write the low half of `x` to register `rd` and
leave bit 16 of `x` as the carry. -/
def LeavesCarry (i : Instr) (s : State) (rd : Reg) (x : BitVec 17) : Prop :=
  ∃ t, exec i s = .next t ∧ t.regOf s.k rd = low16 x ∧ t.c = bit16 x ∧ t.uc = true ∧ t.immv = false ∧
    t.pcOf s.k = pcBits s.cfg.pcWidth (s.pcOf s.k + 1) ∧ RegisterFrame s t (some rd)

theorem leavesCarry_of_finishCarry {i : Instr} {s : State} {rd : Reg} {x : BitVec 17}
    (h : exec i s = .next ((s.setReg rd (low16 x)).finishCarry (bit16 x))) : LeavesCarry i s rd x :=
  have ⟨hreg, hpc, hframe⟩ := finishCarry_effect s rd (low16 x) (bit16 x)
  ⟨_, h, hreg, rfl, rfl, rfl, hpc, hframe⟩

theorem leavesCarry_of_addToCarry {i : Instr} {s : State} {rd : Reg} {b : Word} (h : exec i s = addToCarry rd b s) :
    LeavesCarry i s rd (sum17 (s.reg rd) b s.c) :=
  leavesCarry_of_finishCarry h

theorem leavesCarry_of_subFromBorrow {i : Instr} {s : State} {rd : Reg} {b : Word}
    (h : exec i s = subFromBorrow rd b s) : LeavesCarry i s rd (diff17 (s.reg rd) b s.c) :=
  leavesCarry_of_finishCarry h

/-- Settles O50: the low half of the 17-bit result is what is written, its highest bit what is left as carry or borrow. -/
theorem addcAndSubcLeaveCarry : Obligations.AddcAndSubcLeaveCarry := by
  refine ⟨fun rd => ⟨fun rs => ⟨mask_packRr 18 rd rs, mask_packRr 19 rd rs⟩,
    fun v => ⟨mask_packRi6 2 rd v, mask_packRi6 3 rd v⟩⟩, fun s rd b i => ⟨fun hform => ?_, fun hform => ?_⟩⟩
  · have ⟨hexec, hprefix⟩ : exec i s = addToCarry rd b s ∧ i.isPrefixing = true := by
      obtain ⟨rs, rfl, rfl⟩ | ⟨v, rfl, rfl⟩ := hform
      · exact ⟨rfl, rfl⟩
      · exact ⟨rfl, rfl⟩
    obtain ⟨t, ht, hreg, hc, huc, himmv, hpc, hframe⟩ := leavesCarry_of_addToCarry hexec
    refine ⟨t, ht, ?_, ?_, huc, himmv, hpc, hframe, hprefix⟩
    · rw [hreg, low16_toNat, sum17_toNat]
    · rw [hc, bit16_sum17_iff]
  · have ⟨hexec, hprefix⟩ : exec i s = subFromBorrow rd b s ∧ i.isPrefixing = true := by
      obtain ⟨rs, rfl, rfl⟩ | ⟨v, rfl, rfl⟩ := hform
      · exact ⟨rfl, rfl⟩
      · exact ⟨rfl, rfl⟩
    obtain ⟨t, ht, hreg, hc, huc, himmv, hpc, hframe⟩ := leavesCarry_of_subFromBorrow hexec
    refine ⟨t, ht, ?_, ?_, huc, himmv, hpc, hframe, hprefix⟩
    · rw [hreg, low16_diff17_toNat]
    · rw [hc, bit16_diff17_iff]

/-! ## xor, and, or (R114 to R116) -/

/-- Settles O53: each is a register write, whichever form supplies the operand. -/
theorem logicWritesRegister : Obligations.LogicWritesRegister := by
  intro s rd b
  refine ⟨?_, ?_⟩
  · rintro rs rfl
    exact ⟨writes_of_writeBack rfl, writes_of_writeBack rfl, writes_of_writeBack rfl,
      mask_packRr 20 rd rs, mask_packRr 21 rd rs, mask_packRr 22 rd rs⟩
  · rintro v rfl
    exact ⟨writes_of_writeBack rfl, writes_of_writeBack rfl, writes_of_writeBack rfl,
      mask_packRi6 4 rd v, mask_packRi6 5 rd v, mask_packRi6 6 rd v⟩

/-! ## shl, shr, asr (R117 to R120) -/

/-- Where an amount is allowed, its low four bits count. -/
theorem shiftAmount_allowed {m : ShiftMode} {b : Word} (h : b.toNat ≤ 15 ∨ m = .low4) :
    shiftAmount m b = some (b.toNat % 16) := by
  obtain hb | rfl := h
  · rw [shiftAmount_of_lt hb, Nat.mod_eq_of_lt (Nat.lt_succ_of_le hb)]
  · exact shiftAmount_low4 b

theorem word_shiftLeft_eq_ofNat (a : Word) (n : Nat) : a <<< n = BitVec.ofNat 16 (a.toNat * 2 ^ n) :=
  congrArg (BitVec.ofNat 16) (Nat.shiftLeft_eq a.toNat n)

theorem word_ushiftRight_eq_ofNat (a : Word) (n : Nat) : a >>> n = BitVec.ofNat 16 (a.toNat / 2 ^ n) := by
  rw [← Nat.shiftRight_eq_div_pow, ← BitVec.toNat_ushiftRight, BitVec.ofNat_toNat, BitVec.setWidth_eq]

theorem word_sshiftRight_eq_ofInt (a : Word) (n : Nat) : a.sshiftRight n = BitVec.ofInt 16 (a.toInt / 2 ^ n) := by
  rw [BitVec.sshiftRight_eq, Int.shiftRight_eq_div_pow, Nat.cast_pow, Nat.cast_ofNat]

section Shifts

variable (rd : Reg) {b : Word} {s : State}

theorem shiftLeft_eq_writeBack {n : Nat} (h : shiftAmount s.cfg.shiftMode b = some n) :
    shiftLeft rd b s = s.writeBack rd (BitVec.ofNat 16 ((s.reg rd).toNat * 2 ^ n)) := by
  simp only [shiftLeft, h, word_shiftLeft_eq_ofNat]

theorem shiftRight_eq_writeBack {n : Nat} (h : shiftAmount s.cfg.shiftMode b = some n) :
    shiftRight rd b s = s.writeBack rd (BitVec.ofNat 16 ((s.reg rd).toNat / 2 ^ n)) := by
  simp only [shiftRight, h, word_ushiftRight_eq_ofNat]

theorem shiftRightSigned_eq_writeBack {n : Nat} (h : shiftAmount s.cfg.shiftMode b = some n) :
    shiftRightSigned rd b s = s.writeBack rd (BitVec.ofInt 16 ((s.reg rd).toInt / 2 ^ n)) := by
  simp only [shiftRightSigned, h, word_sshiftRight_eq_ofInt]

theorem shifts_refused (h : shiftAmount s.cfg.shiftMode b = none) :
    shiftLeft rd b s = .refused .shiftAmount ∧ shiftRight rd b s = .refused .shiftAmount ∧
      shiftRightSigned rd b s = .refused .shiftAmount := by
  simp only [shiftLeft, shiftRight, shiftRightSigned, h, and_self]

end Shifts

/-- Settles O54: each form is its shared shift at its operand, and `shiftAmount` alone decides how far, or that it is
refused. -/
theorem shiftsWriteRegister : Obligations.ShiftsWriteRegister := by
  refine ⟨fun rd => ⟨fun rs => ⟨mask_packRr 23 rd rs, mask_packRr 24 rd rs, mask_packRr 25 rd rs⟩,
    fun v => ⟨mask_packRi6 7 rd v, mask_packRi6 8 rd v, mask_packRi6 9 rd v⟩⟩, fun s rd b shl shr asr hform => ?_⟩
  have ⟨hshl, hshr, hasr⟩ : exec shl s = shiftLeft rd b s ∧ exec shr s = shiftRight rd b s ∧
      exec asr s = shiftRightSigned rd b s := by
    obtain ⟨rs, rfl, rfl, rfl, rfl⟩ | ⟨v, rfl, rfl, rfl, rfl⟩ := hform
    · exact ⟨rfl, rfl, rfl⟩
    · exact ⟨rfl, rfl, rfl⟩
  refine ⟨fun hallowed => ?_, fun hb hrefuse => ?_⟩
  · have hn := shiftAmount_allowed hallowed
    exact ⟨writes_of_writeBack (hshl.trans (shiftLeft_eq_writeBack rd hn)),
      writes_of_writeBack (hshr.trans (shiftRight_eq_writeBack rd hn)),
      writes_of_writeBack (hasr.trans (shiftRightSigned_eq_writeBack rd hn))⟩
  · rw [hshl, hshr, hasr]
    exact shifts_refused rd (hrefuse ▸ shiftAmount_refuse hb)

end Sys2Proof.Machine
end

section
/-! SUPPORT. Chains of additions and subtractions over numbers of any length (spec/43_alu.md R110 to R113,
95_test_vectors.md V30), and obligations O51 and O52. The two differ in a sign only. -/

namespace Sys2Proof.Machine

/-! ## Numbers in several registers -/

theorem State.multiword_congr {s t : State} {rs : List Reg} (h : ∀ r ∈ rs, t.reg r = s.reg r) :
    t.multiword rs = s.multiword rs := by
  induction rs with
  | nil => rfl
  | cons r rs ih =>
    rw [State.multiword, State.multiword, h r List.mem_cons_self, ih fun q hq => h q (List.mem_cons_of_mem r hq)]

/-- A lowest limb and what a longer number leaves of the others. -/
theorem limb_add_emod {x m : Int} (a : Int) (h0 : 0 ≤ x) (hx : x < 65536) (hm : 0 < m) :
    (x + 65536 * a) % (m * 65536) = x + 65536 * (a % m) := by
  have hlo := Int.emod_nonneg a hm.ne'
  have hhi := Int.emod_lt_of_pos a hm
  have hsplit : x + 65536 * a = x + 65536 * (a % m) + m * 65536 * (a / m) := by
    linear_combination -65536 * Int.mul_ediv_add_emod a m
  rw [hsplit, Int.add_mul_emod_self_left]
  exact Int.emod_eq_of_lt (by omega) (by omega)

/-! ## One limb -/

/-- `r`, with `carry` out of it, is `a` and `b` and the carry in `c` added (`sign` is 1), or `b` and the borrow in `c`
subtracted from `a` (`sign` is -1). -/
abbrev LimbSum (sign : Int) (a b : Word) (c : Bool) (r : Word) (carry : Bool) : Prop :=
  (r.toNat : Int) + sign * (65536 * carry.toNat) = a.toNat + sign * (b.toNat + c.toNat)

theorem limbSum_sum17 (a b : Word) (c : Bool) : LimbSum 1 a b c (low16 (sum17 a b c)) (bit16 (sum17 a b c)) := by
  have hhalves := low16_add_bit16 (sum17 a b c)
  rw [sum17_toNat] at hhalves
  omega

theorem limbSum_diff17 (a b : Word) (c : Bool) : LimbSum (-1) a b c (low16 (diff17 a b c)) (bit16 (diff17 a b c)) := by
  have hhalves := low16_add_bit16 (diff17 a b c)
  have hdiff := diff17_toNat a b c
  have hlow := (low16 (diff17 a b c)).isLt
  have hbit := (bit16 (diff17 a b c)).toNat_lt
  have ha := a.isLt
  have hb := b.isLt
  have hc := c.toNat_lt
  omega

/-- From `s` to `t` register `rd` takes the limb sum of itself, register `rs` and C; no other register of the active bank
changes. -/
structure LimbStep (sign : Int) (s t : State) (rd rs : Reg) (carry : Bool) : Prop where
  limb : LimbSum sign (s.reg rd) (s.reg rs) s.c (t.reg rd) carry
  others : ∀ r, r ≠ rd → t.reg r = s.reg r

theorem RegisterFrame.reg_eq_regOf {s t : State} {rd : Option Reg} (h : RegisterFrame s t rd) (r : Reg) :
    t.reg r = t.regOf s.k r := by
  obtain ⟨⟨-, ⟨hk, -⟩, -⟩, -⟩ := h
  rw [State.reg, hk]

theorem RegisterFrame.reg_of_ne {s t : State} {rd r : Reg} (h : RegisterFrame s t (some rd)) (hr : r ≠ rd) :
    t.reg r = s.reg r := by
  rw [h.reg_eq_regOf]
  obtain ⟨⟨⟨hregs, -⟩, -⟩, -⟩ := h
  exact hregs s.k r fun ⟨_, hrd⟩ => hr (Option.some.inj hrd).symm

section OneLimb

variable {i : Instr} {s : State} {rd rs : Reg} {x : BitVec 17} {sign : Int}
  (hx : LimbSum sign (s.reg rd) (s.reg rs) s.c (low16 x) (bit16 x))
include hx

theorem limbStep_of_registerFrame {t : State} (hreg : t.regOf s.k rd = low16 x) (hframe : RegisterFrame s t (some rd)) :
    LimbStep sign s t rd rs (bit16 x) where
  limb := by rwa [hframe.reg_eq_regOf, hreg]
  others _ := hframe.reg_of_ne

theorem LeavesCarry.limbStep (h : LeavesCarry i s rd x) : ∃ t, exec i s = .next t ∧ LimbStep sign s t rd rs t.c := by
  obtain ⟨t, ht, hreg, hc, -, -, -, hframe⟩ := h
  exact ⟨t, ht, hc ▸ limbStep_of_registerFrame hx hreg hframe⟩

theorem Writes.limbStep (h : Writes i s rd (low16 x)) :
    ∃ t, exec i s = .next t ∧ PrefixCleared t ∧ ∃ carry, LimbStep sign s t rd rs carry := by
  obtain ⟨t, ht, hreg, -, hclear, hframe⟩ := h
  exact ⟨t, ht, hclear, bit16 x, limbStep_of_registerFrame hx hreg hframe⟩

end OneLimb

/-! ## A chain of limbs -/

/-- From `s` to `t` the number in the registers `rss` and C are added to the number in the registers `rds`, or subtracted
from it, as `sign` says; no other register of the active bank changes. -/
structure ChainStep (sign : Int) (s t : State) (rds rss : List Reg) : Prop where
  number : (t.multiword rds : Int) =
    (s.multiword rds + sign * (s.multiword rss + s.c.toNat)) % 65536 ^ rds.length
  others : ∀ r, r ∉ rds → t.reg r = s.reg r

/-- The last limb's carry is lost. -/
theorem LimbStep.chainStep {sign : Int} {s t : State} {rd rs : Reg} {carry : Bool} (h : LimbStep sign s t rd rs carry) :
    ChainStep sign s t [rd] [rs] where
  number := by
    have hlt : (t.reg rd).toNat < 65536 := (t.reg rd).isLt
    have hsum : ((s.reg rd).toNat : Int) + sign * ((s.reg rs).toNat + s.c.toNat) =
        (t.reg rd).toNat + 65536 * (sign * carry.toNat) := by
      linear_combination -h.limb
    simp only [State.multiword, List.length_singleton, pow_one, mul_zero, add_zero, hsum, Int.add_mul_emod_self_left]
    exact (Int.emod_eq_of_lt (by omega) (by omega)).symm
  others r hr := h.others r fun he => hr (List.mem_singleton.mpr he)

/-- A limb whose register the rest of the chain neither reads nor writes, and then the rest with that limb's carry. -/
theorem LimbStep.consChainStep {sign : Int} {s u t : State} {rd rs : Reg} {rds rss : List Reg}
    (h : LimbStep sign s u rd rs u.c) (hrest : ChainStep sign u t rds rss) (hrds : rd ∉ rds) (hrss : rd ∉ rss) :
    ChainStep sign s t (rd :: rds) (rs :: rss) where
  number := by
    have hlt : (u.reg rd).toNat < 65536 := (u.reg rd).isLt
    have hkept {l : List Reg} (hl : rd ∉ l) : u.multiword l = s.multiword l :=
      State.multiword_congr fun r hr => h.others r fun he => hl (he ▸ hr)
    have hsum : ((s.reg rd).toNat : Int) + 65536 * s.multiword rds +
          sign * ((s.reg rs).toNat + 65536 * s.multiword rss + s.c.toNat) =
        (u.reg rd).toNat + 65536 * (s.multiword rds + sign * (s.multiword rss + u.c.toNat)) := by
      linear_combination -h.limb
    have hnumber := hrest.number
    rw [hkept hrds, hkept hrss] at hnumber
    simp only [State.multiword, List.length_cons, pow_succ, hrest.others rd hrds]
    push_cast
    rw [hsum, limb_add_emod _ (by omega) (by omega) (by positivity), hnumber]
  others r hr := by
    rw [List.mem_cons, not_or] at hr
    rw [hrest.others r hr.2, h.others r hr.1]

theorem execSeq_cons {i : Instr} {s t : State} (h : exec i s = .next t) (is : List Instr) :
    execSeq (i :: is) s = execSeq is t := by
  rw [execSeq, h]

/-- `carrying` on all limbs but the last and `last` on the last, when no limb is written before it is read. -/
theorem execSeq_chain {sign : Int} {carrying last : Reg → Reg → Instr}
    (hcarrying : ∀ s rd rs, ∃ t, exec (carrying rd rs) s = .next t ∧ LimbStep sign s t rd rs t.c)
    (hlast : ∀ s rd rs, ∃ t, exec (last rd rs) s = .next t ∧ PrefixCleared t ∧ ∃ carry, LimbStep sign s t rd rs carry)
    (s : State) (limbs : List (Reg × Reg)) (rd rs : Reg)
    (h : (limbs ++ [(rd, rs)]).Pairwise fun p q => q.1 ≠ p.1 ∧ q.2 ≠ p.1) :
    ∃ t, execSeq (limbs.map (fun p => carrying p.1 p.2) ++ [last rd rs]) s = .next t ∧ PrefixCleared t ∧
      ChainStep sign s t ((limbs ++ [(rd, rs)]).map Prod.fst) ((limbs ++ [(rd, rs)]).map Prod.snd) := by
  induction limbs generalizing s with
  | nil =>
    obtain ⟨t, ht, hclear, carry, hstep⟩ := hlast s rd rs
    exact ⟨t, execSeq_cons ht [], hclear, hstep.chainStep⟩
  | cons p limbs ih =>
    obtain ⟨hp, hrest⟩ := List.pairwise_cons.mp h
    obtain ⟨u, hu, hstep⟩ := hcarrying s p.1 p.2
    obtain ⟨t, ht, hclear, hchain⟩ := ih u hrest
    refine ⟨t, (execSeq_cons hu _).trans ht, hclear, hstep.consChainStep hchain ?_ ?_⟩
    · exact fun hmem => have ⟨q, hq, he⟩ := List.mem_map.mp hmem; (hp q hq).1 he
    · exact fun hmem => have ⟨q, hq, he⟩ := List.mem_map.mp hmem; (hp q hq).2 he

/-- Settles O51: each limb is a 17-bit sum, whose highest bit the next one takes. -/
theorem addcChainAddsMultiwordNumbers : Obligations.AddcChainAddsMultiwordNumbers := by
  intro s limbs rd rs h
  obtain ⟨t, ht, hclear, hnumber, -⟩ := execSeq_chain (sign := 1) (carrying := .addc) (last := .add)
    (fun s rd rs => (leavesCarry_of_addToCarry rfl).limbStep (limbSum_sum17 (s.reg rd) (s.reg rs) s.c))
    (fun s rd rs => (writes_of_writeBack rfl).limbStep (limbSum_sum17 (s.reg rd) (s.reg rs) s.c)) s limbs rd rs h
  simp only [List.map_append, List.map_singleton, List.length_append, List.length_map, List.length_singleton] at hnumber
  refine ⟨t, ht, ?_, hclear⟩
  zify
  rw [hnumber, one_mul, add_assoc]

/-- Settles O52: each limb is a 17-bit difference, whose highest bit the next one takes. -/
theorem subcChainSubtractsMultiwordNumbers : Obligations.SubcChainSubtractsMultiwordNumbers := by
  intro s limbs rd rs h
  obtain ⟨t, ht, hclear, hnumber, -⟩ := execSeq_chain (sign := -1) (carrying := .subc) (last := .sub)
    (fun s rd rs => (leavesCarry_of_subFromBorrow rfl).limbStep (limbSum_diff17 (s.reg rd) (s.reg rs) s.c))
    (fun s rd rs => (writes_of_writeBack rfl).limbStep (limbSum_diff17 (s.reg rd) (s.reg rs) s.c)) s limbs rd rs h
  simp only [List.map_append, List.map_singleton, List.length_append, List.length_map, List.length_singleton] at hnumber
  refine ⟨t, ht, ?_, hclear⟩
  rw [hnumber, neg_one_mul, ← sub_eq_add_neg, sub_add_eq_sub_sub]

end Sys2Proof.Machine
end

section
/-! SUPPORT. Compare and skip (spec/44_compare_skip.md R130 to R136), and obligation O55. -/

namespace Sys2Proof.Machine

/-! ## The flag computations as the conditions of R131 to R136 -/

section Conditions

variable {a b : Word}

theorem condEq_iff : condEq a b = true ↔ a = b := decide_eq_true_iff

theorem condNe_iff : condNe a b = true ↔ a ≠ b := by
  rw [condNe, Bool.not_eq_true', decide_eq_false_iff_not]

theorem condLt_iff : condLt a b = true ↔ a.toInt < b.toInt := decide_eq_true_iff

theorem condGe_iff : condGe a b = true ↔ a.toInt ≥ b.toInt := decide_eq_true_iff

theorem condUlt_iff : condUlt a b = true ↔ a.toNat < b.toNat := decide_eq_true_iff

theorem condUge_iff : condUge a b = true ↔ a.toNat ≥ b.toNat := decide_eq_true_iff

end Conditions

/-- Settles O55: each compare ends in `finishCompare` of its condition, whichever form supplies the operand. -/
theorem compareInstructionsSetSkip : Obligations.CompareInstructionsSetSkip := by
  refine ⟨fun rd => ⟨fun rs => ?_, fun v => ?_⟩, fun s rd b => ?_⟩
  · exact ⟨mask_packRr 26 rd rs, mask_packRr 27 rd rs, mask_packRr 28 rd rs,
      mask_packRr 29 rd rs, mask_packRr 30 rd rs, mask_packRr 31 rd rs⟩
  · exact ⟨mask_packRi6 10 rd v, mask_packRi6 11 rd v, mask_packRi6 12 rd v,
      mask_packRi6 13 rd v, mask_packRi6 14 rd v, mask_packRi6 15 rd v⟩
  · constructor
    all_goals
      rintro _ rfl
      exact ⟨compares_of_finishCompare rfl condEq_iff, compares_of_finishCompare rfl condNe_iff,
        compares_of_finishCompare rfl condLt_iff, compares_of_finishCompare rfl condGe_iff,
        compares_of_finishCompare rfl condUlt_iff, compares_of_finishCompare rfl condUge_iff⟩

end Sys2Proof.Machine
end

section
/-! SUPPORT. The pseudoinstructions (spec/45_pseudoinstructions.md R141 to R152), and obligations O56, O57 and O58. -/

namespace Sys2Proof.Machine

/-! ## Two instructions that write one register -/

theorem KeepsBanksBut.trans {s t u : State} {rd : Option Reg} (hk : t.k = s.k) (hst : KeepsBanksBut s t rd)
    (htu : KeepsBanksBut t u rd) : KeepsBanksBut s u rd := by
  obtain ⟨hreg, hpc⟩ := hst
  obtain ⟨hreg', hpc'⟩ := htu
  rw [hk] at hreg' hpc'
  exact ⟨fun m i hi => (hreg' m i hi).trans (hreg m i hi), fun m hm => (hpc' m hm).trans (hpc m hm)⟩

theorem KeepsModeAndLines.trans {s t u : State} (hst : KeepsModeAndLines s t) (htu : KeepsModeAndLines t u) :
    KeepsModeAndLines s u := by
  obtain ⟨hk, himm, hhalt, herror⟩ := hst
  obtain ⟨hk', himm', hhalt', herror'⟩ := htu
  exact ⟨hk'.trans hk, himm'.trans himm, hhalt'.trans hhalt, herror'.trans herror⟩

theorem KeepsSetting.trans {s t u : State} (hst : KeepsSetting s t) (htu : KeepsSetting t u) : KeepsSetting s u := by
  obtain ⟨hcfg, hie, hprogram, hinputs, hepoch⟩ := hst
  obtain ⟨hcfg', hie', hprogram', hinputs', hepoch'⟩ := htu
  exact ⟨hcfg'.trans hcfg, hie'.trans hie, fun a => (hprogram' a).trans (hprogram a), hinputs'.trans hinputs,
    hepoch'.trans hepoch⟩

theorem KeepsDataMemory.trans {s t u : State} (hst : KeepsDataMemory s t) (htu : KeepsDataMemory t u) :
    KeepsDataMemory s u := by
  obtain ⟨hbytes, hwords⟩ := hst
  obtain ⟨hbytes', hwords'⟩ := htu
  exact ⟨fun a => (hbytes' a).trans (hbytes a), fun a => (hwords' a).trans (hwords a)⟩

theorem RegisterFrame.trans {s t u : State} {rd : Option Reg} (hst : RegisterFrame s t rd) (htu : RegisterFrame t u rd) :
    RegisterFrame s u rd := by
  obtain ⟨⟨hbanks, hlines, hsetting⟩, hskip, hdata⟩ := hst
  obtain ⟨⟨hbanks', hlines', hsetting'⟩, hskip', hdata'⟩ := htu
  have ⟨hk, _⟩ := hlines
  exact ⟨⟨hbanks.trans hk hbanks', hlines.trans hlines', hsetting.trans hsetting'⟩, hskip'.trans hskip,
    hdata.trans hdata'⟩

/-- The second instruction finds the first one's result in the register and no prefix state, whatever was pending before. -/
theorem Writes.execSeq_pair {i j : Instr} {s : State} {rd : Reg} {v w : Word} (hi : Writes i s rd v)
    (hj : ∀ t : State, PrefixCleared t → t.reg rd = v → Writes j t rd w) :
    ∃ u, execSeq [i, j] s = .next u ∧ u.regOf s.k rd = w ∧ u.pcOf s.k = pcBits s.cfg.pcWidth (s.pcOf s.k + 2) ∧
      RegisterFrame s u (some rd) := by
  obtain ⟨t, ht, hreg, hpc, hclear, hframe⟩ := hi
  obtain ⟨u, hu, hreg', hpc', -, hframe'⟩ := hj t hclear ((hframe.reg_eq_regOf rd).trans hreg)
  have ⟨⟨_, ⟨hk, _⟩, ⟨hcfg, _⟩⟩, _⟩ := hframe
  rw [hk] at hreg' hpc'
  refine ⟨u, (execSeq_cons ht [j]).trans (execSeq_cons hu []), hreg', ?_, hframe.trans hframe'⟩
  rw [hpc', hcfg, hpc]
  exact pcBits_next_add s.cfg.pcWidth (s.pcOf s.k) 1

/-! ## sxt and zxt (R141, R142) -/

/-- The shifts by an amount of 0..15 that the word itself holds are allowed under both values of `SHIFT_MODE`. -/
theorem shiftsI_write {s : State} (h : s.immv = false) (rd : Reg) {n : Nat} (hn : n ≤ 15) :
    Writes (.shlI rd n) s rd (s.reg rd <<< n) ∧ Writes (.shrI rd n) s rd (s.reg rd >>> n) ∧
      Writes (.asrI rd n) s rd ((s.reg rd).sshiftRight n) := by
  have hval : (s.immval n).toNat = n := by
    rw [State.immval_plain h, BitVec.ofInt_natCast, BitVec.toNat_ofNat]
    omega
  have hwrites := (shiftsWriteRegister.2 s rd _ _ _ _ (.inr ⟨n, rfl, rfl, rfl, rfl⟩)).1 (.inl (hval.trans_le hn))
  rwa [hval, Nat.mod_eq_of_lt (by omega), ← word_shiftLeft_eq_ofNat, ← word_ushiftRight_eq_ofNat,
    ← word_sshiftRight_eq_ofInt] at hwrites

/-- Below bit 8 both are the bit of the byte, from there on its sign. -/
theorem shiftLeft_sshiftRight_eight (a : Word) :
    (a <<< 8).sshiftRight 8 = (a.extractLsb' 0 8).signExtend 16 := by
  ext i hi
  rw [BitVec.getElem_sshiftRight, BitVec.getElem_signExtend]
  by_cases hbyte : i < 8
  · have hin : 8 + i < 16 := by omega
    simp [hbyte, hin, BitVec.getLsbD_eq_getElem hi]
  · have hout : ¬8 + i < 16 := by omega
    simp [hbyte, hout]

theorem shiftLeft_ushiftRight_eight (a : Word) : a <<< 8 >>> 8 = (a.extractLsb' 0 8).zeroExtend 16 := by
  ext i hi
  have hbyte : 8 + i < 16 ↔ i < 8 := by omega
  simp [hbyte]

/-- Settles O56: both shift the low byte to the top, and the second shift brings it back with its sign or with zeros. -/
theorem sxtAndZxtExtendTheByte : Obligations.SxtAndZxtExtendTheByte := by
  refine ⟨rfl, rfl, rfl, fun s rd himmv => ?_⟩
  obtain ⟨hshl, -⟩ := shiftsI_write himmv rd (n := 8) (by decide)
  refine ⟨hshl.execSeq_pair fun t ⟨himmv, _⟩ hreg => ?_, hshl.execSeq_pair fun t ⟨himmv, _⟩ hreg => ?_⟩
  · obtain ⟨-, -, hasr⟩ := shiftsI_write himmv rd (n := 8) (by decide)
    rwa [hreg, shiftLeft_sshiftRight_eight] at hasr
  · obtain ⟨-, hshr, -⟩ := shiftsI_write himmv rd (n := 8) (by decide)
    rwa [hreg, shiftLeft_ushiftRight_eight] at hshr

/-! ## not and neg (R143, R144) -/

theorem xorI_neg_one_writes {s : State} (h : s.immv = false) (rd : Reg) : Writes (.xorI rd (-1)) s rd (~~~s.reg rd) := by
  have hval : s.immval (-1) = BitVec.allOnes 16 := State.immval_plain h (-1)
  obtain ⟨hwrites, -⟩ := (logicWritesRegister s rd _).2 (-1) rfl
  rwa [hval, BitVec.xor_allOnes] at hwrites

/-- With no carry pending either, the sum is that of the register and the field alone. -/
theorem addI_one_writes {s : State} (h : PrefixCleared s) (rd : Reg) : Writes (.addI rd 1) s rd (s.reg rd + 1) := by
  obtain ⟨himmv, hc, -⟩ := h
  have hval : s.immval 1 = 1 := State.immval_plain himmv 1
  obtain ⟨hwrites, -⟩ := (addAndSubWriteRegister s rd _ _ rfl).2 1 rfl
  rwa [hval, hc, if_neg Bool.false_ne_true, add_zero] at hwrites

/-- Settles O57: the complement is one `xor`, which leaves no carry for the `add` that makes it the negation. -/
theorem notAndNegComplement : Obligations.NotAndNegComplement := by
  refine ⟨rfl, rfl, fun s rd himmv => ⟨xorI_neg_one_writes himmv rd, ?_⟩⟩
  refine (xorI_neg_one_writes himmv rd).execSeq_pair fun t hclear hreg => ?_
  have hneg : 0 - s.reg rd = ~~~s.reg rd + 1 := (BitVec.zero_sub _).trans (BitVec.neg_eq_not_add _)
  rw [hneg, ← hreg]
  exact addI_one_writes hclear rd

/-! ## The compares that the hardware does not have (R145 to R152) -/

theorem Compares.congr {i : Instr} {s : State} {p q : Prop} (h : Compares i s p) (hpq : p ↔ q) : Compares i s q :=
  propext hpq ▸ h

theorem word_toInt_add_one {b : Word} (h : b.toInt < 32767) : (b + 1).toInt = b.toInt + 1 := by
  have hone : (1 : Word).toInt = 1 := by decide
  have hle := BitVec.le_toInt b
  rw [BitVec.toInt_add, hone]
  exact Int.bmod_eq_of_le (by omega) (by omega)

theorem word_toNat_add_one {b : Word} (h : b.toNat < 65535) : (b + 1).toNat = b.toNat + 1 :=
  BitVec.toNat_add_of_lt (Nat.succ_lt_succ h)

/-- Settles O58: exchanging the operands turns "less" into "greater", and to reach `b + 1` is to exceed `b`. -/
theorem derivedCompares : Obligations.DerivedCompares := by
  refine fun s rd => ⟨fun rs => ?_, ?_⟩
  · obtain ⟨-, -, hlt, hge, hult, huge⟩ := (compareInstructionsSetSkip.2 s rs (s.reg rd)).1 rd rfl
    exact ⟨hlt, hge, hult, huge⟩
  · rintro v b _ hv rfl
    obtain ⟨-, -, hlt, hge, hult, huge⟩ := (compareInstructionsSetSkip.2 s rd (b + 1)).2 v hv.symm
    refine ⟨fun hb => ?_, fun hb => ?_⟩
    · rw [word_toInt_add_one hb] at hlt hge
      exact ⟨hge.congr Int.add_one_le_iff, hlt.congr Int.lt_add_one_iff⟩
    · rw [word_toNat_add_one hb] at hult huge
      exact ⟨huge.congr Nat.add_one_le_iff, hult.congr Nat.lt_add_one_iff⟩

end Sys2Proof.Machine
end

section
/-! SUPPORT. Interrupts and the two modes (spec/60_exceptions.md R162 to R165, R168), and obligations O11, O12, O13, O22 and
O25. -/

namespace Sys2Proof.Machine

/-! ## When an interrupt is taken (R162, R163) -/

theorem State.action_eq_interrupt_iff {s : State} {w : Word} (hr : s.input.reset = false) (hp : s.pmemRead s.pc = .ok w) :
    s.action = .interrupt ↔
      s.halt = false ∧ s.error = false ∧ s.skip = false ∧ s.interruptTaken (decode w) = true := by
  refine ⟨fun ha => ?_, fun ⟨hh, he, hs, hi⟩ => by simp [State.action, hr, hh, he, hp, hs, hi]⟩
  obtain ⟨-, hh, he, v, hv, hs, hi⟩ := action_interrupt ha
  obtain rfl : w = v := Except.ok.inj (hp.symm.trans hv)
  exact ⟨hh, he, hs, hi⟩

/-- Settles O11: the conditions on the cycle, then those on the mode, the line and the instruction. -/
theorem interruptTakenExactlyWhen : Obligations.InterruptTakenExactlyWhen := fun s w hr hp => by
  rw [State.action_eq_interrupt_iff hr hp, State.interruptTaken_iff, State.interruptible_iff]

/-- The state that a taken interrupt finds: user mode, with no skip and no prefix before the instruction. -/
theorem State.of_action_interrupt {s : State} (ha : s.action = .interrupt) :
    s.k = .user ∧ s.skip = false ∧ s.immv = false ∧ s.uc = false := by
  obtain ⟨-, -, -, w, -, hs, hi⟩ := action_interrupt ha
  obtain ⟨hk, -, -, hready⟩ := (State.interruptTaken_iff s _).mp hi
  obtain ⟨himmv, huc, -⟩ := (State.interruptible_iff s _).mp hready
  exact ⟨hk, hs, himmv, huc⟩

/-- In kernel mode no interrupt is taken (R162). -/
theorem State.interruptTaken_kernel {s : State} (h : s.k = .kernel) (i : Instr) : s.interruptTaken i = false := by
  simp [State.interruptTaken, h]

/-! ## What a taken interrupt does (R164) -/

theorem step_of_action_interrupt {s : State} (ha : s.action = .interrupt) : step s = .next s.tick.takeInterrupt := by
  simp only [step, ha]

/-- Settles O12: only K moves, and what the interrupt asks of the prefix state makes C = 0 too. -/
theorem takenInterruptChangesModeOnly : Obligations.TakenInterruptChangesModeOnly := by
  intro s ha hc
  obtain ⟨hk, hs, himmv, huc⟩ := State.of_action_interrupt ha
  have hpc : ∀ m, s.tick.takeInterrupt.pcOf m = s.pcOf m := fun m => by
    rw [State.pcOf_takeInterrupt, State.pcOf_tick]
  have hreg : ∀ m i, s.tick.takeInterrupt.regOf m i = s.regOf m i := fun m i => by
    rw [State.regOf_takeInterrupt, State.regOf_tick]
  exact ⟨s.tick.takeInterrupt, step_of_action_interrupt ha, hk, rfl, hpc .kernel, hreg .kernel, hpc, hreg,
    .refl_of rfl rfl rfl, hs, ⟨himmv, hc huc, huc⟩, rfl, rfl, rfl, rfl, rfl, rfl, rfl, rfl, rfl, fun _ => rfl⟩

/-! ## After a prefix instruction (R163, R25) -/

theorem step_of_action_execute {s : State} {i : Instr} (ha : s.action = .execute i) : step s = exec i s.tick := by
  simp only [step, ha]

/-- An executed prefix instruction leaves an immediate or a carry to the next one. -/
theorem exec_prefix_pending {i : Instr} {s t : State} (h : exec i s = .next t) (hi : i.isPrefixing = true) :
    t.immv = true ∨ t.uc = true := by
  by_cases himm : ∃ v, i = .imm v
  · obtain ⟨v, rfl⟩ := himm
    obtain ⟨himmv, -⟩ := (exec_shape h).imm_effect
    exact .inl himmv
  · obtain ⟨-, huc⟩ := exec_carry_pending h hi fun v hv => himm ⟨v, hv⟩
    exact .inr huc

/-- Settles O13: what the prefix instruction leaves is what an interrupt must not find. -/
theorem prefixHoldsOffInterrupt : Obligations.PrefixHoldsOffInterrupt := by
  intro s t i ha hi h hint
  rw [step_of_action_execute ha] at h
  obtain ⟨-, -, himmv, huc⟩ := State.of_action_interrupt hint
  obtain himm | hcarry := exec_prefix_pending h hi
  · rw [himm] at himmv
    cases himmv
  · rw [hcarry] at huc
    cases huc

/-! ## The two modes exchanged (R168) -/

/-- Banks exchanged, and the mode with them, so that the bank in use stays in use. -/
def Front.swap (x : Front) : Front := { x with user := x.kernel, kernel := x.user, k := otherMode x.k }

theorem State.mapFront_swap : State.mapFront Front.swap = State.swapModes := rfl

theorem State.bank_swapModes (s : State) (m : Mode) : s.swapModes.bank (otherMode m) = s.bank m := by
  cases m <;> rfl

theorem State.swapModes_setBank (s : State) (m : Mode) (b : Bank) :
    (s.setBank m b).swapModes = s.swapModes.setBank (otherMode m) b := by
  cases m <;> rfl

theorem unseen_swap (k : Mode) : Unseen Front.swap k where
  bank s _ := s.bank_swapModes s.k
  setBank s b _ := s.swapModes_setBank s.k b
  switch _ _ := rfl

/-- Settles O22: no instruction sees the exchange. -/
theorem instructionsTreatModesAlike : Obligations.InstructionsTreatModesAlike := by
  intro i s
  rw [← State.mapFront_swap]
  exact (unseen_swap s.k).exec i fun _ _ _ => rfl

/-! ## An interrupt answered by rets (R165) -/

/-- The handler's first cycle executes the `rets` at the kernel's pc: in kernel mode nothing interrupts it. -/
theorem step_rets_of_action_interrupt {s : State} {w : Word} (ha : s.action = .interrupt)
    (hp : s.pmemRead (s.pcOf .kernel) = .ok w) (hd : decode w = .rets) (hr : (s.inputs.getD 1 .low).reset = false) :
    step s.tick.takeInterrupt = .next s.tick.takeInterrupt.tick.switchMode := by
  obtain ⟨-, hh, he, -, -, hs, -⟩ := action_interrupt ha
  have hr' : s.tick.takeInterrupt.input.reset = false := by
    rw [State.input_eq_getD, State.takeInterrupt_inputs, State.tick_inputs, getD_tail]
    exact hr
  rw [step_execute hr' hh he hp hs (State.interruptTaken_kernel rfl _), hd, exec_rets]

/-- Settles O25: the interrupt moves no pc, and `rets` moves that of the kernel, which it leaves. -/
theorem interruptThenRetsResumesUser : Obligations.InterruptThenRetsResumesUser := by
  intro s w ha hp hd hr
  have hrun : Host.Core.run Sys2Proof.core 2 s = .next s.tick.takeInterrupt.tick.switchMode := by
    rw [run_succ 1 (step_of_action_interrupt ha), run_succ 0 (step_rets_of_action_interrupt ha hp hd hr)]
    rfl
  refine ⟨_, hrun, rfl, ?_, ?_, fun m i => ?_, .refl_of rfl rfl rfl⟩
  · exact (State.pcOf_switchMode _ .user).trans (if_neg (ne_otherMode .user))
  · exact (State.pcOf_switchMode _ .kernel).trans (if_pos rfl)
  · rw [State.regOf_switchMode, State.regOf_tick, State.regOf_takeInterrupt, State.regOf_tick]

end Sys2Proof.Machine
end

section
/-! SUPPORT. A reset asserted from outside (spec/70_reset_and_hazards.md R180), the words that `ERRATA` = on changes
(spec/92_eei_decisions.md D24), and the spec's decoder vectors; obligations O29, O35 and O2. -/

namespace Sys2Proof.Machine

/-! ## Reset asserted in a cycle (R180) -/

/-- A reset comes before the halt and error lines and before the fetch, so it reaches a stopped machine too (log 7). -/
theorem step_of_reset {s : State} (hr : s.input.reset = true) : step s = .next s.tick.assertReset := by
  have ha : s.action = .reset := by rw [State.action, if_pos hr]
  simp only [step, ha]

/-- Settles O29: the next state is the machine after reset, with the parameters and the program of before. -/
theorem resetInputResetsTheMachine : Obligations.ResetInputResetsTheMachine := fun s hr =>
  ⟨s.tick.assertReset, step_of_reset hr, State.pcOf_assertReset _ .user, State.pcOf_assertReset _ .kernel, rfl, rfl,
    ⟨rfl, rfl, rfl⟩, rfl, rfl, rfl, State.assertReset_cfg _, rfl, State.programWordAt_congr (State.assertReset_pmem _)⟩

/-! ## The three words that `ERRATA` = on changes (D24) -/

section Errata

variable {s : State} (he : s.cfg.errata = true) (rd : Reg)
include he

theorem exec_rcsr_of_errata : exec (.rcsr rd) s = .next (s.finishAt (s.reg rd)) := by
  change execRcsr rd s = _
  rw [execRcsr, if_pos he]

theorem exec_jump_of_errata : exec (.jump rd) s = .refused .jumpRegisterErrata := by
  change execJump rd s = _
  rw [execJump, if_pos he]

theorem exec_call_of_errata : exec (.call rd) s = callTo (s.pc + s.reg rd) s := by
  change execCall rd s = _
  rw [execCall, if_pos he]

end Errata

/-- Settles O35: the first word ends in a jump, the second is refused, the third is `callTo` at its target. -/
theorem errataForms : Obligations.ErrataForms := by
  refine fun s rd he => ⟨jumpsTo_of_finishAt (exec_rcsr_of_errata he rd), exec_jump_of_errata he rd, ?_⟩
  rw [exec_call_of_errata he rd]
  exact callTo_effect s (s.pc + s.reg rd)

/-! ## The decoder vectors (95_test_vectors.md section 2.9) -/

/-- Settles O2: fourteen fixed words, each decoded by evaluation. -/
theorem specDecoderVectors : Obligations.SpecDecoderVectors := by
  unfold Obligations.SpecDecoderVectors
  decide

end Sys2Proof.Machine
end
